-- ==== Sys2Proof/Word.lean ====
section
/-! DEFINITION. The words of the block and their plainest shapes (00_scope.md R6 to R8). -/

namespace Sys2Proof

/-- 00_scope.md R6: the word width is 32 bits, unsigned (R8). -/
abbrev Word := BitVec 32

/-- 20_memory.md R50: the unit of the block buffer and of the digest window. -/
abbrev Byte := BitVec 8

/-- 30_encoding.md R70: a command word, `CMD[40:0]`. -/
abbrev CmdWord := BitVec 41

/-- 30_encoding.md R74: a response word, `RSP[32:0]`. -/
abbrev RspWord := BitVec 33

/-- 30_encoding.md R75: a step control word, `SCW[42:0]`, one row of the schedule table. -/
abbrev RowWord := BitVec 43

/-- Four words in the order `A, B, C, D` (or `a, b, c, d`), as in 44_compression_core.md R164. -/
structure Quad where
  S0 : Word
  S1 : Word
  S2 : Word
  S3 : Word
  deriving DecidableEq, Repr

end Sys2Proof
end

