-- ==== Sys2Proof/Syntax.lean ====
section
/-! DEFINITION. The instructions: one constructor per row of spec/opcode_table.json (00_scope.md R14). -/

namespace Sys2Proof

/-- The six host commands and the four step operations. Ignored bits of a command word (30_encoding.md R71) are no
operands: they "have no effect and are not checked". `FOLD` has no encoding (R77) and is no constructor. -/
inductive Instr where
  /-- `RDS`: read the status register (45_host_commands.md R180). -/
  | rds
  /-- `INIT`: start a new message (45_host_commands.md R182). -/
  | init
  /-- `WRB j, v`: write one byte of the block buffer (45_host_commands.md R184). -/
  | wrb (j : BitVec 6) (v : Byte)
  /-- `WRW k, w`: write one word of the block buffer (45_host_commands.md R186). -/
  | wrw (k : BitVec 4) (w : Word)
  /-- `GO`: start the compression of the block in the buffer (44_compression_core.md R161). -/
  | go
  /-- `RDB j`: read one byte of the digest window (45_host_commands.md R190). -/
  | rdb (j : BitVec 4)
  /-- `STEP.F k, s, T` (42_transform_step.md R121). -/
  | stepF (k : BitVec 4) (s : BitVec 5) (T : Word)
  /-- `STEP.G k, s, T` (42_transform_step.md R122). -/
  | stepG (k : BitVec 4) (s : BitVec 5) (T : Word)
  /-- `STEP.H k, s, T` (42_transform_step.md R123). -/
  | stepH (k : BitVec 4) (s : BitVec 5) (T : Word)
  /-- `STEP.I k, s, T` (42_transform_step.md R124). -/
  | stepI (k : BitVec 4) (s : BitVec 5) (T : Word)
  deriving DecidableEq, Repr

/-- The two places an instruction is fetched from: the command port (30_encoding.md R70) and the schedule table
(R75). The two layouts differ in width and meaning, so a fetched word carries where it came from. -/
inductive Fetched where
  | command (w : CmdWord)
  | row (w : RowWord)
  deriving DecidableEq, Repr

end Sys2Proof
end

