-- ==== Sys2Proof/Decode.lean ====
section
/-! DEFINITION. The decoder of the two kinds of words (30_encoding.md R70 to R81), then the encoder written from the
same tables, then the host's reading of a table row's word. -/

namespace Sys2Proof

/-- Why a command word spells no command (30_encoding.md R80). The response does not tell the causes apart (60_exceptions.md
R231); the decoder does. -/
inductive DecodeError where
  /-- `op` is 6 or 7. -/
  | reservedOp
  /-- `WRW` with `addr[5:4]` not 0. -/
  | wrwHighAddress
  /-- `RDB` with `addr[5:4]` not 0. -/
  | rdbHighAddress
  deriving DecidableEq, Repr

/-! ## Fields -/

/-- R70: `op`, bits 40:38. -/
def cmdOp (w : CmdWord) : BitVec 3 := w.extractLsb' 38 3

/-- R70: `addr`, bits 37:32. -/
def cmdAddr (w : CmdWord) : BitVec 6 := w.extractLsb' 32 6

/-- R70: `wdata`, bits 31:0. -/
def cmdData (w : CmdWord) : Word := w.extractLsb' 0 32

/-- R71: `addr[5:4]`, which must be 0 in `WRW` and `RDB`. -/
def addrHigh (addr : BitVec 6) : BitVec 2 := addr.extractLsb' 4 2

/-- R71: `addr[3:0]`, the word index of `WRW` and the byte index of `RDB`. -/
def addrLow (addr : BitVec 6) : BitVec 4 := addr.extractLsb' 0 4

/-- R71: `wdata[7:0]`, the data byte of `WRB`. -/
def dataByte (data : Word) : Byte := data.extractLsb' 0 8

/-- R75: `fn`, bits 42:41 of a row. -/
def rowFn (r : RowWord) : BitVec 2 := r.extractLsb' 41 2

/-- R75: `k`, bits 40:37 of a row. -/
def rowK (r : RowWord) : BitVec 4 := r.extractLsb' 37 4

/-- R75: `s`, bits 36:32 of a row. -/
def rowS (r : RowWord) : BitVec 5 := r.extractLsb' 32 5

/-- R75: `T`, bits 31:0 of a row. -/
def rowT (r : RowWord) : Word := r.extractLsb' 0 32

/-! ## Decoder -/

/-- The opcode map of R72 with the formats of R71 and the reserved words of R80. -/
def decodeCommand (w : CmdWord) : Except DecodeError Instr :=
  match (cmdOp w).toNat with
  | 0 => .ok .rds
  | 1 => .ok .init
  | 2 => .ok (.wrb (cmdAddr w) (dataByte (cmdData w)))
  | 3 => if addrHigh (cmdAddr w) = 0 then .ok (.wrw (addrLow (cmdAddr w)) (cmdData w)) else .error .wrwHighAddress
  | 4 => .ok .go
  | 5 => if addrHigh (cmdAddr w) = 0 then .ok (.rdb (addrLow (cmdAddr w))) else .error .rdbHighAddress
  | _ => .error .reservedOp

/-- R76: "the field `fn` is the opcode of a step"; every value of it is used. -/
def decodeRow (r : RowWord) : Instr :=
  match (rowFn r).toNat with
  | 0 => .stepF (rowK r) (rowS r) (rowT r)
  | 1 => .stepG (rowK r) (rowS r) (rowT r)
  | 2 => .stepH (rowK r) (rowS r) (rowT r)
  | _ => .stepI (rowK r) (rowS r) (rowT r)

/-- The decoder: total, rejecting by name. -/
def decode : Fetched → Except DecodeError Instr
  | .command w => decodeCommand w
  | .row r => .ok (decodeRow r)

/-! ## Encoder -/

/-- R70: `CMD = op * 2^38 + addr * 2^32 + wdata`. -/
def commandWord (op : BitVec 3) (addr : BitVec 6) (data : Word) : CmdWord := op ++ addr ++ data

/-- R75: `SCW = fn * 2^41 + k * 2^37 + s * 2^32 + T`. -/
def rowWord (fn : BitVec 2) (k : BitVec 4) (s : BitVec 5) (T : Word) : RowWord := fn ++ k ++ s ++ T

/-- R82 for the commands ("an assembler writes [ignored bits] as 0", R71), R75 and R76 for the steps. -/
def encode : Instr → Fetched
  | .rds => .command (commandWord 0 0 0)
  | .init => .command (commandWord 1 0 0)
  | .wrb j v => .command (commandWord 2 j (v.setWidth 32))
  | .wrw k w => .command (commandWord 3 (k.setWidth 6) w)
  | .go => .command (commandWord 4 0 0)
  | .rdb j => .command (commandWord 5 (j.setWidth 6) 0)
  | .stepF k s T => .row (rowWord 0 k s T)
  | .stepG k s T => .row (rowWord 1 k s T)
  | .stepH k s T => .row (rowWord 2 k s T)
  | .stepI k s T => .row (rowWord 3 k s T)

/-! ## A table row's word

spec/opcode_table.json has command words of 41 bits and step control words of 43 bits; in whole bytes both are 48.
The machine never meets the ambiguity (the port holds commands, the table holds rows); only this reading of a bare
number does. Log 8. -/

/-- Whether the word is a command as an assembler writes it, with its ignored bits 0 (R71, R82). -/
def isAssembledCommand (w : CmdWord) : Bool :=
  match decodeCommand w with
  | .ok i => encode i = .command w
  | .error _ => false

/-- Which kind of word a bare number of `nbits` bits is: a row when it says 43 bits or sets a bit above bit 40, a command
when it says at most 41 bits; else the command an assembler writes so, else a row whose rotate amount is in range, else
a command word. -/
def tableWord (nbits w : Nat) : Fetched :=
  if nbits = 43 || 2 ^ 41 ≤ w then .row (BitVec.ofNat 43 w)
  else if nbits ≤ 41 || isAssembledCommand (BitVec.ofNat 41 w) then .command (BitVec.ofNat 41 w)
  else if rowS (BitVec.ofNat 43 w) != 0 then .row (BitVec.ofNat 43 w)
  else .command (BitVec.ofNat 41 w)

/-- The instruction the decoder reads from a word numbered as spec/opcode_table.json numbers it; none where the decoder
refuses, or where the number has a bit no word of this hardware has. -/
def decodeTableWord (nbits w : Nat) : Option Instr :=
  if 2 ^ 43 ≤ w then none
  else
    match decode (tableWord nbits w) with
    | .ok i => some i
    | .error _ => none

end Sys2Proof
end

