-- ==== Sys2Proof/Config.lean ====
section
/-! DEFINITION. The free values of the model, and the fixed limits the spec gives the host.
A free value has no body: nothing can be proved of it, so a claim holds whatever it is. -/

namespace Sys2Proof

/-- 70_reset_and_hazards.md R262 (`RESET_MB`): the byte the buffer shows at an address that nothing has written since
reset number `draw`: "a draw made at reset, the same value at every read until written". Free value, log 5. -/
opaque Config.resetMb (draw : Nat) (address : Nat) : Byte

/-- 40_primitives.md R103: `ROTL32(x, 0)`, which the spec leaves without a meaning and no row of the schedule asks
for. Free value, log 6. -/
opaque Config.rotlZero (x : Word) : Word

/-- 43_padding.md R143: `LMAX`, the longest message the host may pad, in bytes. -/
def Config.lmax : Nat := 2 ^ 61 - 1

/-- 46_digest_and_driver.md R216: the driver's truncation length, one mebibyte. -/
def Config.mebibyte : Nat := 1048576

end Sys2Proof
end

