-- ==== Sys2Proof/Machine/Primitives.lean ====
section
/-! DEFINITION. The arithmetic units, the round functions and their multiplexer, and the data path of one step
(40_primitives.md, 41_round_functions.md, 42_transform_step.md). -/

namespace Sys2Proof.Machine

/-- 40_primitives.md R100: the sum modulo 2^32; the carry is "recorded nowhere". -/
def ADD32 (x y : Word) : Word := x + y

/-- 40_primitives.md R102 on 1 to 31: both shifts are logical. The amount 0 has no meaning (R103): a free value. -/
def ROTL32 (x : Word) (n : BitVec 5) : Word :=
  if n = 0 then Config.rotlZero x else (x <<< n.toNat) ||| (x >>> (32 - n.toNat))

/-- 41_round_functions.md R110. -/
def F (x y z : Word) : Word := (x &&& y) ||| (~~~x &&& z)

/-- 41_round_functions.md R111. -/
def G (x y z : Word) : Word := (x &&& z) ||| (y &&& ~~~z)

/-- 41_round_functions.md R112. -/
def H (x y z : Word) : Word := x ^^^ y ^^^ z

/-- 41_round_functions.md R113. -/
def I (x y z : Word) : Word := y ^^^ (x ||| ~~~z)

/-- 41_round_functions.md R114: the multiplexer. -/
def roundFn (sel : BitVec 2) (x y z : Word) : Word :=
  match sel.toNat with
  | 0 => F x y z
  | 1 => G x y z
  | 2 => H x y z
  | _ => I x y z

/-- 42_transform_step.md R120 and R129: the accumulators after one step with the row `(fn, k, s, T)`, where `x` is the
message word `X[k]`. -/
def stepQuad (fn : BitVec 2) (x : Word) (s : BitVec 5) (T : Word) (q : Quad) : Quad :=
  let f := roundFn fn q.S1 q.S2 q.S3
  let a' := ADD32 q.S0 (ADD32 (ADD32 f x) T)
  ⟨q.S3, ADD32 (ROTL32 a' s) q.S1, q.S1, q.S2⟩

/-- 44_compression_core.md R166: the component-wise addition of the add-back. -/
def addQuad (p q : Quad) : Quad :=
  ⟨ADD32 p.S0 q.S0, ADD32 p.S1 q.S1, ADD32 p.S2 q.S2, ADD32 p.S3 q.S3⟩

end Sys2Proof.Machine
end

