-- ==== Sys2Proof/Machine/Schedule.lean ====
section
/-! DEFINITION. The initial values and the schedule table, the core's built-in program (42_transform_step.md R125). -/

namespace Sys2Proof.Machine

/-- 10_state.md R21, R36: the initial values `IV` of `A, B, C, D`. -/
def IV : Quad := ⟨0x67452301, 0xefcdab89, 0x98badcfe, 0x10325476⟩

/-- R125, rows 0 to 15: round one, `STEP.F`. -/
def rowsF : List RowWord :=
  [0x007d76aa478, 0x02ce8c7b756, 0x051242070db, 0x076c1bdceee,
   0x087f57c0faf, 0x0ac4787c62a, 0x0d1a8304613, 0x0f6fd469501,
   0x107698098d8, 0x12c8b44f7af, 0x151ffff5bb1, 0x176895cd7be,
   0x1876b901122, 0x1acfd987193, 0x1d1a679438e, 0x1f649b40821]

/-- R125, rows 16 to 31: round two, `STEP.G`. -/
def rowsG : List RowWord :=
  [0x225f61e2562, 0x2c9c040b340, 0x36e265e5a51, 0x214e9b6c7aa,
   0x2a5d62f105d, 0x34902441453, 0x3eed8a1e681, 0x294e7d3fbc8,
   0x32521e1cde6, 0x3c9c33707d6, 0x26ef4d50d87, 0x314455a14ed,
   0x3a5a9e3e905, 0x249fcefa3f8, 0x2ee676f02d9, 0x3948d2a4c8a]

/-- R125, rows 32 to 47: round three, `STEP.H`. -/
def rowsH : List RowWord :=
  [0x4a4fffa3942, 0x50b8771f681, 0x5706d9d6122, 0x5d7fde5380c,
   0x424a4beea44, 0x48b4bdecfa9, 0x4f0f6bb4b60, 0x557bebfbc70,
   0x5a4289b7ec6, 0x40beaa127fa, 0x470d4ef3085, 0x4d704881d05,
   0x524d9d4d039, 0x58be6db99e5, 0x5f01fa27cf8, 0x457c4ac5665]

/-- R125, rows 48 to 63: round four, `STEP.I`. -/
def rowsI : List RowWord :=
  [0x606f4292244, 0x6ea432aff97, 0x7cfab9423a7, 0x6b5fc93a039,
   0x786655b59c3, 0x66a8f0ccc92, 0x74fffeff47d, 0x63585845dd1,
   0x7066fa87e4f, 0x7eafe2ce6e0, 0x6cfa3014314, 0x7b54e0811a1,
   0x686f7537e82, 0x76abd3af235, 0x64f2ad7d2bb, 0x735eb86d391]

/-- R125: the rows `SCHED[0..63]` in order. -/
def scheduleRows : List RowWord := rowsF ++ rowsG ++ rowsH ++ rowsI

/-- R125: the schedule table. -/
def schedule : Vector RowWord 64 := ⟨scheduleRows.toArray, rfl⟩

end Sys2Proof.Machine
end

