-- ==== Sys2Proof/Machine/State.lean ====
section
/-! DEFINITION. The state of the block, its reset value, and the reasons a step can stop. -/

namespace Sys2Proof.Machine

/-- 10_state.md R28: the phase. The 2-bit code is not observable (93_implementation_defined.md U11). -/
inductive Phase where
  /-- no block in progress, commands are accepted -/
  | idle
  /-- the 64 steps of a block are in progress -/
  | run
  /-- the 64 steps are done, the add-back is the next transition -/
  | fold
  deriving DecidableEq, Repr

/-- What the outside does, and who moves next (00_scope.md R12, 60_exceptions.md R234). One event is consumed by one step;
the list in `State.events` is the order of moments in one run. The model's own, log 1. -/
inductive Event where
  /-- `rst = 1` at this moment (70_reset_and_hazards.md R260) -/
  | reset
  /-- the host takes the last response and offers the word `w` (10_state.md R34, R35) -/
  | offer (w : CmdWord)
  /-- the command port moves: the offered word is accepted, if it can be -/
  | port
  /-- the core moves: its next internal transition, if it has one -/
  | core
  deriving DecidableEq, Repr

/-- 60_exceptions.md R230: "A model has no fault state, no stuck state and no trap for the core". Nothing raises a
fault, so there is none. -/
inductive Fault : Type
  deriving DecidableEq, Repr

/-- The reasons a step can be refused. -/
inductive Refusal where
  /-- An instruction that has no meaning in the model yet, by its mnemonic. Raised by `exec` alone; safe. -/
  | notModelled (mnemonic : String)
  deriving DecidableEq, Repr

/-- 20_memory.md R50, R51: the block buffer as the bytes written since the last reset, address and value, addresses
strictly rising. An address not listed holds the reset draw (R262, log 5). -/
abbrev Memory := List Host.Cell

/-- The block (10_state.md) with its port registers, and two fields of the model's own. -/
structure State where
  /-- state registers, R20 -/
  A : Word
  B : Word
  C : Word
  D : Word
  /-- accumulators, R24 -/
  a : Word
  b : Word
  c : Word
  d : Word
  /-- step counter, R26 -/
  STEP : BitVec 6
  /-- phase, R28 -/
  PH : Phase
  /-- block buffer, 20_memory.md R51 -/
  MB : Memory
  /-- schedule table, read-only, 20_memory.md R63; log 7 -/
  SCHED : Vector RowWord 64
  /-- `cmd_valid` and `cmd`, R34: the word offered and not yet accepted -/
  cmd : Option CmdWord
  /-- `rsp_valid` and `rsp`, R34: the response to the last accepted word, until the host offers another; log 3 -/
  rsp : Option RspWord
  /-- the model's own: what the outside does next, oldest first; log 1 -/
  events : List Event
  /-- the model's own: which reset the unwritten bytes of `MB` were drawn at; log 5 -/
  draw : Nat
  deriving DecidableEq, Repr

/-- 10_state.md R36. The spec states no value for `a, b, c, d`: 0, as 70_reset_and_hazards.md R262 allows (log 4). -/
def State.reset : State where
  A := IV.S0
  B := IV.S1
  C := IV.S2
  D := IV.S3
  a := 0
  b := 0
  c := 0
  d := 0
  STEP := 0
  PH := .idle
  MB := []
  SCHED := schedule
  cmd := none
  rsp := none
  events := []
  draw := 0

end Sys2Proof.Machine
end

