-- ==== Sys2Proof/Machine/Ops.lean ====
section
/-! DEFINITION. The named operations over memory, registers and ports, the error response (60_exceptions.md R231) and reset
(70_reset_and_hazards.md R260). The block has no trap entry and no return from one (60_exceptions.md R235). -/

namespace Sys2Proof.Machine

/-! ## Memory -/

/-- The byte written at an address since reset; none if nothing has been written there. -/
def Memory.lookup (m : Memory) (address : Nat) : Option Byte :=
  match m with
  | [] => none
  | (p, v) :: rest => if p = address then some v else Memory.lookup rest address

/-- Write one byte, keeping the addresses strictly rising. -/
def Memory.write (m : Memory) (address : Nat) (v : Byte) : Memory :=
  match m with
  | [] => [(address, v)]
  | (p, u) :: rest =>
    if address < p then (address, v) :: (p, u) :: rest
    else if address = p then (p, v) :: rest
    else (p, u) :: Memory.write rest address v

/-- The canonical form: addresses strictly rising, each below 64 (20_memory.md R50). An unlisted address has no
written value, so no entry can equal what it reads as. -/
abbrev Memory.wf (m : Memory) : Prop := (m.map Prod.fst).Pairwise (· < ·) ∧ ∀ p ∈ m.map Prod.fst, p < 64

/-- `MB[address]`: the last byte written there, or the reset contents if there was none (20_memory.md R61, 70_reset_and_hazards.md
R262). -/
def State.memByte (s : State) (address : Nat) : Byte :=
  match s.MB.lookup address with
  | some v => v
  | none => Config.resetMb s.draw address

/-- 00_scope.md R11: `MemRead(addr, 4)`, little-endian (20_memory.md R53). -/
def State.memRead4 (s : State) (address : Nat) : Word :=
  s.memByte (address + 3) ++ s.memByte (address + 2) ++ s.memByte (address + 1) ++ s.memByte address

/-- 00_scope.md R11: `MemWrite(addr, 1, v)`. -/
def State.memWrite1 (s : State) (address : Nat) (v : Byte) : State :=
  { s with MB := s.MB.write address v }

/-- 00_scope.md R11: `MemWrite(addr, 4, w)`: the four byte writes of 20_memory.md R54. -/
def State.memWrite4 (s : State) (address : Nat) (w : Word) : State :=
  (((s.memWrite1 address (w.extractLsb' 0 8)).memWrite1 (address + 1) (w.extractLsb' 8 8)).memWrite1
    (address + 2) (w.extractLsb' 16 8)).memWrite1 (address + 3) (w.extractLsb' 24 8)

/-! ## Registers -/

/-- `(A, B, C, D)`. -/
def State.regs (s : State) : Quad := ⟨s.A, s.B, s.C, s.D⟩

/-- `(A, B, C, D) <- q`. -/
def State.setRegs (s : State) (q : Quad) : State := { s with A := q.S0, B := q.S1, C := q.S2, D := q.S3 }

/-- `(a, b, c, d)`. -/
def State.accs (s : State) : Quad := ⟨s.a, s.b, s.c, s.d⟩

/-- `(a, b, c, d) <- q`. -/
def State.setAccs (s : State) (q : Quad) : State := { s with a := q.S0, b := q.S1, c := q.S2, d := q.S3 }

/-- `(PH, STEP) <- (ph, n)`. -/
def State.setSeq (s : State) (ph : Phase) (n : BitVec 6) : State := { s with PH := ph, STEP := n }

/-- 10_state.md R26: after a step, `STEP + 1` while `STEP < 63`; at 63 `(PH, STEP) <- (FOLD, 0)`. -/
def State.advance (s : State) : State :=
  if s.STEP = 63 then s.setSeq .fold 0 else s.setSeq s.PH (s.STEP + 1)

/-- 20_memory.md R56: the fetch of a step is the read of row `STEP`, whole. -/
def State.fetchRow (s : State) : RowWord := s.SCHED[s.STEP.toNat]'(by have := s.STEP.isLt; omega)

/-! ## The command port -/

/-- 30_encoding.md R74: `RSP = err * 2^32 + rdata`. -/
def rspWord (err : BitVec 1) (rdata : Word) : RspWord := err ++ rdata

/-- 10_state.md R35: the offered word is accepted and answered; the port is free again. -/
def State.respond (s : State) (err : BitVec 1) (rdata : Word) : State :=
  { s with cmd := none, rsp := some (rspWord err rdata) }

/-- 60_exceptions.md R231: `CmdError`, the one refusal of the block: `respond(1, 0)` "with no change of state", in every
phase. -/
def State.raiseCmdError (s : State) : State := s.respond 1 0

/-- 10_state.md R33: a command that needs `IDLE`. In `RUN` and `FOLD` it is held: it has no effect and no response
and stays offered (log 11). -/
def whenIdle (s : State) (effect : State → State) : Host.Outcome State Fault Refusal :=
  match s.PH with
  | .idle => .next (effect s)
  | .run => .next s
  | .fold => .next s

/-- The host takes the last response and offers the word `w` (R34, R35; log 3). -/
def State.place (s : State) (w : CmdWord) : State := { s with cmd := some w, rsp := none }

/-- One event of the outside has happened. -/
def State.setEvents (s : State) (es : List Event) : State := { s with events := es }

/-! ## Reset -/

/-- 70_reset_and_hazards.md R260: `A, B, C, D`, `STEP` and `PH` as stated; the buffer is a fresh draw and the accumulators
are as `State.reset` has them (R262, logs 4 and 5); an offered command and an untaken response are dropped; the schedule
"is not touched". What the outside does afterwards stays. -/
def State.resetNow (s : State) : State :=
  { State.reset with SCHED := s.SCHED, events := s.events, draw := s.draw + 1 }

end Sys2Proof.Machine
end

