-- ==== Sys2Proof/Machine/Operands.lean ====
section
/-! DEFINITION. The operands that an instruction takes from the state: message words and digest bytes. -/

namespace Sys2Proof.Machine

/-- 20_memory.md R57: the address of word `k` of the buffer, `4k`. -/
def wordAddress (k : BitVec 4) : Nat := 4 * k.toNat

/-- 20_memory.md R53: the message word `X[k]`. -/
def State.X (s : State) (k : BitVec 4) : Word := s.memRead4 (wordAddress k)

/-- 45_host_commands.md R200: `R[n]`, with `R[0] = A`. -/
def quadReg (q : Quad) (n : Nat) : Word :=
  match n with
  | 0 => q.S0
  | 1 => q.S1
  | 2 => q.S2
  | _ => q.S3

/-- 45_host_commands.md R200: the serializer, `R[j div 4][8*(j mod 4)+7 : 8*(j mod 4)]`. -/
def digestByte (q : Quad) (j : BitVec 4) : Byte :=
  (quadReg q (j.toNat / 4)).extractLsb' (8 * (j.toNat % 4)) 8

/-- 20_memory.md R52: byte `j` of the digest window, a view of `A, B, C, D`. -/
def State.digestWindow (s : State) (j : BitVec 4) : Byte := digestByte s.regs j

end Sys2Proof.Machine
end

