-- ==== Sys2Proof/Machine/Compression.lean ====
section
/-! DEFINITION. GO and FOLD, the two ends of a block (44_compression_core.md). -/

namespace Sys2Proof.Machine

/-- 44_compression_core.md R161: `(a, b, c, d) <- (A, B, C, D)`, `STEP <- 0`, `PH <- RUN`. -/
def execGo (s : State) : Host.Outcome State Fault Refusal :=
  whenIdle s fun s => ((s.setAccs s.regs).setSeq .run 0).respond 0 0

/-- 44_compression_core.md R166: the add-back; `STEP` is not written. -/
def State.fold (s : State) : State :=
  (s.setRegs (addQuad s.regs s.accs)).setSeq .idle s.STEP

end Sys2Proof.Machine
end

