-- ==== Sys2Proof/Machine/Flags.lean ====
section
/-! DEFINITION. The one flag and the one status register (10_state.md R29, R30). Neither has storage. -/

namespace Sys2Proof.Machine

/-- 10_state.md R29: 1 when `PH` is `RUN` or `FOLD`, 0 when it is `IDLE`; also the level of the port `busy`. -/
def State.BUSY (s : State) : BitVec 1 :=
  match s.PH with
  | .idle => 0
  | .run => 1
  | .fold => 1

/-- 10_state.md R30: bit 0 is `BUSY`, bits 31:1 are 0. -/
def State.STATUS (s : State) : Word := s.BUSY.setWidth 32

/-- 10_state.md R28: the suggested code of a phase, "of no consequence outside the block". -/
def Phase.code : Phase → BitVec 2
  | .idle => 0b00
  | .run => 0b01
  | .fold => 0b10

/-- 10_state.md R27: the round, `STEP[5:4]`. -/
def State.round (s : State) : BitVec 2 := s.STEP.extractLsb' 4 2

end Sys2Proof.Machine
end

