-- ==== Sys2Proof/Machine/HostCommands.lean ====
section
/-! DEFINITION. The meanings of the host commands RDS, INIT, WRB, WRW, RDB (45_host_commands.md). -/

namespace Sys2Proof.Machine

/-- 45_host_commands.md R180: `respond(0, STATUS)`, in every phase. -/
def execRds (s : State) : Host.Outcome State Fault Refusal := .next (s.respond 0 s.STATUS)

/-- 45_host_commands.md R182: `(A, B, C, D) <- IV`. -/
def execInit (s : State) : Host.Outcome State Fault Refusal :=
  whenIdle s fun s => (s.setRegs IV).respond 0 0

/-- 45_host_commands.md R184: `MB[j] <- v`. -/
def execWrb (j : BitVec 6) (v : Byte) (s : State) : Host.Outcome State Fault Refusal :=
  whenIdle s fun s => (s.memWrite1 j.toNat v).respond 0 0

/-- 45_host_commands.md R186: `MemWrite(4*k, 4, w)`. -/
def execWrw (k : BitVec 4) (w : Word) (s : State) : Host.Outcome State Fault Refusal :=
  whenIdle s fun s => (s.memWrite4 (wordAddress k) w).respond 0 0

/-- 45_host_commands.md R190: `respond(0, zext_32(DigestByte(j)))`. -/
def execRdb (j : BitVec 4) (s : State) : Host.Outcome State Fault Refusal :=
  whenIdle s fun s => s.respond 0 ((s.digestWindow j).setWidth 32)

end Sys2Proof.Machine
end

