-- ==== Sys2Proof/Machine/Transform.lean ====
section
/-! DEFINITION. The four step operations (42_transform_step.md R120 to R124). The core fetches them in phase RUN only
(Machine/Agents.lean), so the phase is not checked again here (log 10). -/

namespace Sys2Proof.Machine

/-- 42_transform_step.md R120 with the row `(fn, k, s, T)`. -/
def State.transform (st : State) (fn : BitVec 2) (k : BitVec 4) (s : BitVec 5) (T : Word) : State :=
  (st.setAccs (stepQuad fn (st.X k) s T st.accs)).advance

/-- 42_transform_step.md R121. -/
def execStepF (k : BitVec 4) (s : BitVec 5) (T : Word) (st : State) : Host.Outcome State Fault Refusal :=
  .next (st.transform 0 k s T)

/-- 42_transform_step.md R122. -/
def execStepG (k : BitVec 4) (s : BitVec 5) (T : Word) (st : State) : Host.Outcome State Fault Refusal :=
  .next (st.transform 1 k s T)

/-- 42_transform_step.md R123. -/
def execStepH (k : BitVec 4) (s : BitVec 5) (T : Word) (st : State) : Host.Outcome State Fault Refusal :=
  .next (st.transform 2 k s T)

/-- 42_transform_step.md R124. -/
def execStepI (k : BitVec 4) (s : BitVec 5) (T : Word) (st : State) : Host.Outcome State Fault Refusal :=
  .next (st.transform 3 k s T)

end Sys2Proof.Machine
end

