-- ==== Sys2Proof/Machine/Dispatch.lean ====
section
/-! DEFINITION. One arm per constructor of Instr. -/

namespace Sys2Proof.Machine

def exec (i : Instr) (s : State) : Host.Outcome State Fault Refusal :=
  match i with
  | .rds => Sys2Proof.Machine.execRds s
  | .init => Sys2Proof.Machine.execInit s
  | .wrb j v => Sys2Proof.Machine.execWrb j v s
  | .wrw k w => Sys2Proof.Machine.execWrw k w s
  | .go => Sys2Proof.Machine.execGo s
  | .rdb j => Sys2Proof.Machine.execRdb j s
  | .stepF k n T => Sys2Proof.Machine.execStepF k n T s
  | .stepG k n T => Sys2Proof.Machine.execStepG k n T s
  | .stepH k n T => Sys2Proof.Machine.execStepH k n T s
  | .stepI k n T => Sys2Proof.Machine.execStepI k n T s

end Sys2Proof.Machine
end

