-- ==== Sys2Proof/Machine/Agents.lean ====
section
/-! DEFINITION. The host's port, the core, and which of them moves (00_scope.md R12, 60_exceptions.md R234). -/

namespace Sys2Proof.Machine

/-- 45_host_commands.md R202: whether the word is accepted in this state: first whether it spells a command at all
(accepted in any phase, R80), then, for a command other than `RDS`, whether `PH = IDLE` (10_state.md R33). -/
def State.accepts (s : State) (w : CmdWord) : Bool :=
  match decodeCommand w with
  | .error _ => true
  | .ok .rds => true
  | .ok _ => s.PH = .idle

/-- 10_state.md R34: `cmd_ready`; false also when nothing is offered. -/
def State.cmdReady (s : State) : Bool :=
  match s.cmd with
  | none => false
  | some w => s.accepts w

/-- The command port moves: the offered word is decoded and runs (a command that needs `IDLE` is held by its own
meaning), or gets `CmdError`. With nothing offered nothing happens. -/
def portMove (s : State) : Host.Outcome State Fault Refusal :=
  match s.cmd with
  | none => .next s
  | some w =>
    match decodeCommand w with
    | .ok i => exec i s
    | .error _ => .next s.raiseCmdError

/-- 44_compression_core.md R160: the core's transition: none in `IDLE`, the step of row `STEP` in `RUN`, the add-back
in `FOLD`. -/
def coreMove (s : State) : Host.Outcome State Fault Refusal :=
  match s.PH with
  | .idle => .next s
  | .run => exec (decodeRow s.fetchRow) s
  | .fold => .next s.fold

/-- Who moves when the outside has not said: an acceptable word is accepted, else the core moves (00_scope.md R19:
progress). Log 1. -/
def defaultMove (s : State) : Host.Outcome State Fault Refusal :=
  if s.cmdReady then portMove s else coreMove s

/-- One moment. Reset wins over everything (60_exceptions.md R234). An offer waits while an earlier word is still on the
port (10_state.md R35, log 2). -/
def nextMove (s : State) : Host.Outcome State Fault Refusal :=
  match s.events with
  | [] => defaultMove s
  | .reset :: es => .next (s.setEvents es).resetNow
  | .port :: es => portMove (s.setEvents es)
  | .core :: es => coreMove (s.setEvents es)
  | .offer w :: es =>
    match s.cmd with
    | none => .next ((s.setEvents es).place w)
    | some _ => defaultMove s

end Sys2Proof.Machine
end

