-- ==== Sys2Proof/Machine/Step.lean ====
section
/-! DEFINITION. One step of the machine, and how the host of this package places an instruction to be run next. -/

namespace Sys2Proof.Machine

/-- One transition of the model: of the host's port, of the core, or reset (00_scope.md R12). -/
def step (s : State) : Host.Outcome State Fault Refusal := nextMove s

/-- The state in which the very next step runs the instruction whose word is `w`: a command is offered on the port, in
`IDLE` if it needs it, and the port moves next; a step control word stands in row `STEP` of the table, in `RUN`, and the
core moves next. Log 9. -/
def State.withFetchWord (s : State) (nbits w : Nat) : State :=
  match tableWord nbits w with
  | .command c =>
    { s with cmd := some c, rsp := none, PH := if s.accepts c then s.PH else .idle, events := .port :: s.events }
  | .row r =>
    { s with SCHED := s.SCHED.set s.STEP.toNat r (by have := s.STEP.isLt; omega), PH := .run, events := .core :: s.events }

end Sys2Proof.Machine
end

