-- ==== Sys2Proof/Machine/Compress.lean ====
section
/-! DEFINITION. The compression of one block and of a list of blocks as pure functions (44_compression_core.md R164, R167). -/

namespace Sys2Proof.Machine

/-- 44_compression_core.md R164: one line of the recurrence, `(a_i, b_i, c_i, d_i)` to `(a_(i+1), ...)`, with row `r`. -/
def pureStep (M : BitVec 4 → Word) (q : Quad) (r : RowWord) : Quad :=
  stepQuad (rowFn r) (M (rowK r)) (rowS r) (rowT r) q

/-- 44_compression_core.md R164: `(a_n, b_n, c_n, d_n)`, the accumulators after the first `n` rows. -/
def afterRows (n : Nat) (S : Quad) (M : BitVec 4 → Word) : Quad :=
  (scheduleRows.take n).foldl (pureStep M) S

/-- 44_compression_core.md R164: `Compress(S, M)`. -/
def compress (S : Quad) (M : BitVec 4 → Word) : Quad := addQuad S (afterRows 64 S M)

/-- 44_compression_core.md R167: `S_0 = IV`, `S_(n+1) = Compress(S_n, M_n)`. -/
def compressAll (blocks : List (BitVec 4 → Word)) : Quad := blocks.foldl compress IV

end Sys2Proof.Machine
end

