-- ==== Sys2Proof/Machine/Padding.lean ====
section
/-! DEFINITION. Message padding and the word array, a duty of the host (43_padding.md). -/

namespace Sys2Proof.Machine

/-- 43_padding.md R142: the number of zero bytes, `z = (55 - L) mod 64`. -/
def padZeros (L : Nat) : Nat := ((55 - (L : Int)) % 64).toNat

/-- 43_padding.md R142: the number of blocks, `((L + 8) div 64) + 1`. -/
def numBlocks (L : Nat) : Nat := (L + 8) / 64 + 1

/-- 43_padding.md R143: the length in bits, `8L`, as eight bytes, least significant first. -/
def lengthField (L : Nat) : List Byte := (List.range 8).map fun u => BitVec.ofNat 8 (8 * L / 2 ^ (8 * u))

/-- 43_padding.md R141: the padded byte string: the message, `0x80`, the zero bytes, the length. -/
def padBytes (msg : List Byte) : List Byte :=
  msg ++ 0x80#8 :: List.replicate (padZeros msg.length) 0#8 ++ lengthField msg.length

/-- 43_padding.md R143: the padder; a message longer than `LMAX` is refused. -/
def pad (msg : List Byte) : Option (List Byte) :=
  if msg.length ≤ Config.lmax then some (padBytes msg) else none

/-- 43_padding.md R144: `W[t]`, four bytes of the padded string, least significant byte first. -/
def wordAt (P : List Byte) (t : Nat) : Word :=
  P.getD (4 * t + 3) 0 ++ P.getD (4 * t + 2) 0 ++ P.getD (4 * t + 1) 0 ++ P.getD (4 * t) 0

/-- 43_padding.md R144: the word array of a padded byte string. -/
def wordArray (P : List Byte) : List Word := (List.range (P.length / 4)).map (wordAt P)

/-- 43_padding.md R144: block `n`, the words `W[16n]` to `W[16n + 15]`. -/
def blockOf (W : List Word) (n : Nat) : BitVec 4 → Word := fun k => W.getD (16 * n + k.toNat) 0

/-- 43_padding.md R144: all blocks of a padded byte string, in order. -/
def blocksOf (P : List Byte) : List (BitVec 4 → Word) := (List.range (P.length / 64)).map (blockOf (wordArray P))

end Sys2Proof.Machine
end

