-- ==== Sys2Proof/Machine/Message.lean ====
section
/-! DEFINITION. What the host does for one message: the procedure, the digest as bytes and as text, the driver's
interface (46_digest_and_driver.md), and the pseudo-instructions (30_encoding.md R83). -/

namespace Sys2Proof.Machine

/-- 44_compression_core.md R167: the final state of a message. -/
def messageState (P : List Byte) : Quad := compressAll (blocksOf P)

/-- 45_host_commands.md R200: `DigestByte(0)` to `DigestByte(15)`. -/
def digestBytes (q : Quad) : List Byte := (List.range 16).map fun j => digestByte q (BitVec.ofNat 4 j)

/-- 46_digest_and_driver.md R210: the digits `0123456789abcdef`. -/
def hexDigit (n : BitVec 4) : Char :=
  (['0', '1', '2', '3', '4', '5', '6', '7', '8', '9', 'a', 'b', 'c', 'd', 'e', 'f'] : List Char).getD n.toNat '0'

/-- 46_digest_and_driver.md R210: a byte as two characters, the more significant nibble first. -/
def hexByte (v : Byte) : List Char := [hexDigit (v.extractLsb' 4 4), hexDigit (v.extractLsb' 0 4)]

/-- 46_digest_and_driver.md R210, R212 step 5: bytes, as the host has received them, as text. -/
def hexBytes (bytes : List Byte) : List Char := bytes.flatMap hexByte

/-- 46_digest_and_driver.md R210: the 32 characters of the digest string. -/
def hexDigest (q : Quad) : List Char := hexBytes (digestBytes q)

/-- The digest of a message as text; none for a message longer than `LMAX`. -/
def digestText (msg : List Byte) : Option (List Char) := (pad msg).map fun P => hexDigest (messageState P)

/-! ## Pseudo-instructions (30_encoding.md R83) -/

/-- `BLOCK w0, ..., w15`: the words of a block by `WRW`, then `GO`. -/
def blockProgram (M : BitVec 4 → Word) : List Instr :=
  ((List.range 16).map fun k => Instr.wrw (BitVec.ofNat 4 k) (M (BitVec.ofNat 4 k))) ++ [.go]

/-- `BLOCKB b0, ..., b63`: the bytes of a block by `WRB`, then `GO`. -/
def blockBytesProgram (b : BitVec 6 → Byte) : List Instr :=
  ((List.range 64).map fun j => Instr.wrb (BitVec.ofNat 6 j) (b (BitVec.ofNat 6 j))) ++ [.go]

/-- `DIGEST`: `RDB 0` to `RDB 15`. -/
def digestProgram : List Instr := (List.range 16).map fun j => .rdb (BitVec.ofNat 4 j)

/-- `WAIT`, unrolled: as many `RDS` as the host repeats before one answers 0 (log 15). -/
def waitProgram (polls : Nat) : List Instr := List.replicate polls .rds

/-! ## The procedure for one message (46_digest_and_driver.md R212) -/

/-- `INIT`, every block by words, `DIGEST`. -/
def procedureOf (blocks : List (BitVec 4 → Word)) : List Instr :=
  .init :: blocks.flatMap blockProgram ++ digestProgram

/-- The commands for one message; none when the message is longer than `LMAX`. -/
def messageProcedure (msg : List Byte) : Option (List Instr) := (pad msg).map fun P => procedureOf (blocksOf P)

/-- The commands that offered words spell: ignored bits are of no account (30_encoding.md R71), and a word that spells no
command changes nothing (60_exceptions.md R231). -/
def commandsOf (words : List CmdWord) : List Instr := words.filterMap fun w => (decodeCommand w).toOption

/-- What a command writes at address `p` of the buffer, if anything. -/
def writeAt (p : Nat) : Instr → Option Byte
  | .rds => none
  | .init => none
  | .wrb j v => if p = j.toNat then some v else none
  | .wrw k w => if wordAddress k ≤ p ∧ p < wordAddress k + 4 then some (w.extractLsb' (8 * (p - wordAddress k)) 8) else none
  | .go => none
  | .rdb _ => none
  | .stepF _ _ _ => none
  | .stepG _ _ _ => none
  | .stepH _ _ _ => none
  | .stepI _ _ _ => none

/-- The byte that a list of commands leaves at address `p`, if one of them writes there. -/
def lastWrite (p : Nat) (program : List Instr) : Option Byte :=
  program.foldl (fun v i => (writeAt p i).or v) none

/-- The bytes of a buffer that held `m`, after a list of commands. -/
def written (program : List Instr) (m : Nat → Byte) : Nat → Byte := fun p => (lastWrite p program).getD (m p)

/-- The commands that may stand before the `GO` of a block: all that leave `A, B, C, D` alone. -/
def keepsRegisters : Instr → Bool
  | .rds => true
  | .init => false
  | .wrb _ _ => true
  | .wrw _ _ => true
  | .go => false
  | .rdb _ => true
  | .stepF _ _ _ => false
  | .stepG _ _ _ => false
  | .stepH _ _ _ => false
  | .stepI _ _ _ => false

/-- A command that only reads. -/
def readsOrPolls : Instr → Bool
  | .rds => true
  | .init => false
  | .wrb _ _ => false
  | .wrw _ _ => false
  | .go => false
  | .rdb _ => true
  | .stepF _ _ _ => false
  | .stepG _ _ _ => false
  | .stepH _ _ _ => false
  | .stepI _ _ _ => false

/-- 70_reset_and_hazards.md R270 duty 10: the commands since `INIT` leave "every byte of the buffer holding the right byte
of block n", in a buffer that held `m` before them; a byte that is right already need not be written (44_compression_core.md
R170). -/
def deliversBlock (P : List Byte) (m : Nat → Byte) (n : Nat) (program : List Instr) : Prop :=
  ∀ p, p < 64 → P[64 * n + p]? = some (written program m p)

/-- R212 with the liberties 1, 2, 4, 5 and 6 of 70_reset_and_hazards.md R270, in a buffer that holds `m`: `INIT`; for each
block whatever writes, reads and polls leave its bytes in the buffer, and `GO`; then every digest byte, in any order and
repeatedly, with polls. -/
def isProcedure (P : List Byte) (m : Nat → Byte) (program : List Instr) : Prop :=
  ∃ (parts : List (List Instr)) (reads : List Instr),
    parts.length = P.length / 64 ∧ (∀ part ∈ parts, ∀ i ∈ part, keepsRegisters i = true) ∧
    (∀ n, n < parts.length → deliversBlock P m n (parts.take (n + 1)).flatten) ∧
    (∀ i ∈ reads, readsOrPolls i = true) ∧ (∀ j, Instr.rdb j ∈ reads) ∧
    program = .init :: parts.flatMap (fun part => part ++ [.go]) ++ reads

/-- The word of a command as the assembler writes it; a step is no command. -/
def commandOf (i : Instr) : Option CmdWord :=
  match encode i with
  | .command w => some w
  | .row _ => none

/-- The host offers the commands of a program in order, each as soon as the one before it is answered. -/
def offers (program : List Instr) : List Event := (program.filterMap commandOf).map .offer

/-! ## The driver, at its interface (46_digest_and_driver.md R216 to R218) -/

/-- R216: "at most `1,048,576` bytes from the start of the file". -/
def driverMessage (file : List Byte) : List Byte := file.take Config.mebibyte

/-- R216 to R218: a file that could not be read gives no command and no digest; else the procedure for its first
mebibyte. -/
def driverProcedure (read : Option (List Byte)) : Option (List Instr) :=
  read.bind fun file => messageProcedure (driverMessage file)

/-- R216, R218: the digest string of a file, or the failure. -/
def driverDigest (read : Option (List Byte)) : Option (List Char) :=
  read.bind fun file => digestText (driverMessage file)

end Sys2Proof.Machine
end

