-- ==== Sys2Proof/Machine/Exchange.lean ====
section
/-! DEFINITION. What the host hears from the block, the digest bytes it takes from the responses, and the outcome of a run
(46_digest_and_driver.md R212 step 4, R214). -/

namespace Sys2Proof.Machine

/-- What the host notices of a run: each word it offered with the response to it (30_encoding.md R74: "answered by exactly
one response word"), and each reset. -/
inductive Heard where
  | answered (w : CmdWord) (r : RspWord)
  | reset
  deriving DecidableEq, Repr

/-- The word that was answered. -/
def Heard.word : Heard → Option CmdWord
  | .answered w _ => some w
  | .reset => none

/-- The command that was answered; none for a word that spells none. -/
def Heard.command : Heard → Option Instr
  | .answered w _ => (decodeCommand w).toOption
  | .reset => none

/-- What the host hears in the transition from `s` to `t`: the reset, or the word that has left the port with its response. -/
def heardIn (s t : State) : List Heard :=
  if s.events.head? = some .reset then [.reset]
  else if t.cmd = none then List.zipWith .answered s.cmd.toList t.rsp.toList
  else []

/-- R212: "`rdata[7:0]`" of a response. -/
def rspByte (r : RspWord) : Byte := r.extractLsb' 0 8

/-- All of a list's values, if every place has one. -/
def allOf : List (Option Byte) → Option (List Byte)
  | [] => some []
  | none :: _ => none
  | some v :: rest => (allOf rest).map (v :: ·)

/-- The host's part in reading a digest (R212 steps 3 and 4). -/
structure Receiver where
  /-- how many `GO` were answered since `INIT`; none before the first `INIT` -/
  blocks : Option Nat
  /-- `digest[0]` to `digest[15]`, as far as received -/
  bytes : Vector (Option Byte) 16
  deriving DecidableEq, Repr

/-- The host with no message begun. -/
def Receiver.start : Receiver := ⟨none, Vector.replicate 16 none⟩

/-- The sixteen bytes in index order, once all are received (R214). -/
def Receiver.result (h : Receiver) : Option (List Byte) := allOf h.bytes.toList

/-- A command of a message of `NB` blocks has been answered with `r`. `INIT` begins a message; `GO` sends a block; after
block `NB` each `RDB j` gives `digest[j]`. Once all sixteen have come the run of the message has ended (R214) and its bytes
stand. Log 17. -/
def Receiver.command (NB : Nat) (h : Receiver) (i : Instr) (r : RspWord) : Receiver :=
  match i with
  | .rds => h
  | .init => { Receiver.start with blocks := some 0 }
  | .wrb _ _ => h
  | .wrw _ _ => h
  | .go => if h.result = none then { Receiver.start with blocks := h.blocks.map (· + 1) } else h
  | .rdb j =>
    if h.blocks = some NB ∧ h.result = none then { h with bytes := h.bytes.set j.toNat (some (rspByte r)) j.isLt } else h
  | .stepF _ _ _ => h
  | .stepG _ _ _ => h
  | .stepH _ _ _ => h
  | .stepI _ _ _ => h

/-- The host hears an answer, or that the message in progress is lost by a reset (70_reset_and_hazards.md R264); the
`CmdError` of a word that spells no command tells it nothing about the message. -/
def Receiver.hear (NB : Nat) (h : Receiver) : Heard → Receiver
  | .answered w r =>
    match decodeCommand w with
    | .ok i => h.command NB i r
    | .error _ => h
  | .reset => Receiver.start

/-- What the host has after all it heard. -/
def Receiver.hearAll (NB : Nat) (h : Receiver) (trace : List Heard) : Receiver := trace.foldl (Receiver.hear NB) h

/-- R214: "the outcome of the run is the sixteen bytes received, in index order", of the last message begun, when it has
`NB` blocks; none if the host stopped earlier. -/
def outcome (NB : Nat) (trace : List Heard) : Option (List Byte) := (Receiver.start.hearAll NB trace).result

/-- R214: the run of the message ends when `e` is heard after `trace`: "the response to the last of the sixteen `RDB`". -/
def endsRun (NB : Nat) (trace : List Heard) (e : Heard) : Bool :=
  (outcome NB trace).isNone && (outcome NB (trace ++ [e])).isSome

/-- R212 step 5: the digest string of the bytes received. -/
def outcomeText (NB : Nat) (trace : List Heard) : Option (List Char) := (outcome NB trace).map hexBytes

/-- 46_digest_and_driver.md R216, R218: what the driver resolves to, from the file it read and what it heard from the
block: the string, or a failure when the file could not be read or the run had no outcome. -/
def driverResult (read : Option (List Byte)) (trace : List Heard) : Option (List Char) :=
  read.bind fun file => outcomeText (numBlocks (driverMessage file).length) trace

end Sys2Proof.Machine
end

