-- ==== Sys2Proof/WellFormed.lean ====
section
/-! DEFINITION. What the spec requires of an instruction's operands beyond their widths. -/

namespace Sys2Proof

/-- 30_encoding.md R81: "check that every `s` is in 1 to 31 and refuse a table for which it is not". The upper bound
is the field's width. -/
def rotateAmountOk (s : BitVec 5) : Bool := s != 0

/-- Every operand of a host command is legal at every value its field can hold (20_memory.md R57); a step's rotate
amount is in 1 to 31 (40_primitives.md R102, R103). -/
def Instr.wf : Instr → Bool
  | .rds => true
  | .init => true
  | .wrb _ _ => true
  | .wrw _ _ => true
  | .go => true
  | .rdb _ => true
  | .stepF _ s _ => rotateAmountOk s
  | .stepG _ s _ => rotateAmountOk s
  | .stepH _ s _ => rotateAmountOk s
  | .stepI _ s _ => rotateAmountOk s

end Sys2Proof
end

