-- ==== Sys2Proof/Safety.lean ====
section
/-! DEFINITION. What claims about the block are stated in: the invariant, runs with and without an end, what the host
hears in them, and the block as its host sees it. -/

namespace Sys2Proof.Machine

/-- The invariant of the block: the buffer's list is canonical; the schedule has the contents of 42_transform_step.md
R125 (20_memory.md R63); outside `RUN` the step counter is 0 (10_state.md R27); at most one command is outstanding, so an
offered word and an untaken response never stand together (10_state.md R35). -/
structure State.Inv (s : State) : Prop where
  memory : s.MB.wf
  table : s.SCHED = schedule
  counter : s.PH ≠ .run → s.STEP = 0
  outstanding : s.cmd ≠ none → s.rsp = none

/-- 30_encoding.md R81: every row of the table asks for a rotation in 1 to 31. -/
def scheduleWf (t : Vector RowWord 64) : Bool := t.toList.all fun r => (decodeRow r).wf

/-- `n` steps of the machine. -/
def run (n : Nat) (s : State) : Host.Outcome State Fault Refusal := Host.Core.run Sys2Proof.core n s

/-- What the host hears in `n` steps, in order. -/
def heard : Nat → State → List Heard
  | 0, _ => []
  | n + 1, s =>
    match step s with
    | .next t => heardIn s t ++ heard n t
    | .fault _ => []
    | .refused _ => []

/-! ## A world that never stops (46_digest_and_driver.md R214; log 18) -/

/-- The outside adds to what it does. -/
def State.feed (s : State) (es : List Event) : State := s.setEvents (s.events ++ es)

/-- The first `n` steps of an endless run: before step `k` the outside adds `input k`. -/
def fed (input : Nat → List Event) : Nat → State → Host.Outcome State Fault Refusal
  | 0, s => .next s
  | n + 1, s =>
    match step (s.feed (input 0)) with
    | .next t => fed (fun k => input (k + 1)) n t
    | .fault e => .fault e
    | .refused e => .refused e

/-- What the host hears in the first `n` steps of an endless run. -/
def heardFed (input : Nat → List Event) : Nat → State → List Heard
  | 0, _ => []
  | n + 1, s =>
    match step (s.feed (input 0)) with
    | .next t => heardIn (s.feed (input 0)) t ++ heardFed (fun k => input (k + 1)) n t
    | .fault _ => []
    | .refused _ => []

/-- Of a host that does nothing but poll (45_host_commands.md R180). -/
def Event.polls : Event → Bool
  | .reset => false
  | .offer w => decodeCommand w = .ok .rds
  | .port => true
  | .core => true

/-- Something in an endless input comes again and again. -/
def againAndAgain (p : Event → Prop) (input : Nat → List Event) : Prop := ∀ n, ∃ m, n ≤ m ∧ ∃ e ∈ input m, p e

/-- 44_compression_core.md R168: how many core transitions the block in progress still has to take. -/
def coreMovesLeft (s : State) : Nat :=
  match s.PH with
  | .idle => 0
  | .run => 65 - s.STEP.toNat
  | .fold => 1

/-! ## The block as its host sees it: one command after another -/

/-- The words of 64 bytes (20_memory.md R53). -/
def wordsOf (m : Nat → Byte) (k : BitVec 4) : Word :=
  m (wordAddress k + 3) ++ m (wordAddress k + 2) ++ m (wordAddress k + 1) ++ m (wordAddress k)

/-- What the state registers hold, or will hold when the block in progress is done: the rows not yet taken, then the
add-back. -/
def State.settled (s : State) : Quad :=
  match s.PH with
  | .idle => s.regs
  | .run => addQuad s.regs ((s.SCHED.toList.drop s.STEP.toNat).foldl (pureStep s.X) s.accs)
  | .fold => addQuad s.regs s.accs

/-- The effect of one command on `(A, B, C, D)` and on the 64 bytes, the whole block of a `GO` at once. -/
def commandEffect (i : Instr) (q : Quad) (m : Nat → Byte) : Quad × (Nat → Byte) :=
  match i with
  | .rds => (q, m)
  | .init => (IV, m)
  | .wrb j v => (q, fun p => (writeAt p (.wrb j v)).getD (m p))
  | .wrw k w => (q, fun p => (writeAt p (.wrw k w)).getD (m p))
  | .go => (compress q (wordsOf m), m)
  | .rdb _ => (q, m)
  | .stepF _ _ _ => (q, m)
  | .stepG _ _ _ => (q, m)
  | .stepH _ _ _ => (q, m)
  | .stepI _ _ _ => (q, m)

/-- The response to a command when `(A, B, C, D) = q`; the answer of `RDS` depends on the order against the core
(60_exceptions.md R234), so none is named. -/
def answerOf (i : Instr) (q : Quad) : Option RspWord :=
  match i with
  | .rds => none
  | .init => some 0x000000000
  | .wrb _ _ => some 0x000000000
  | .wrw _ _ => some 0x000000000
  | .go => some 0x000000000
  | .rdb j => some (rspWord 0 ((digestByte q j).setWidth 32))
  | .stepF _ _ _ => none
  | .stepG _ _ _ => none
  | .stepH _ _ _ => none
  | .stepI _ _ _ => none

/-- The effect of a list of commands, one after the other. -/
def effects (program : List Instr) (q : Quad) (m : Nat → Byte) : Quad × (Nat → Byte) :=
  program.foldl (fun z i => commandEffect i z.1 z.2) (q, m)

/-- The words that will be taken, from those on the port and the events to come; a reset drops those before it
(70_reset_and_hazards.md R260). -/
def wordsTaken (port : List CmdWord) : List Event → List CmdWord
  | [] => port
  | .reset :: es => wordsTaken [] es
  | .offer w :: es => wordsTaken (port ++ [w]) es
  | .port :: es => wordsTaken port es
  | .core :: es => wordsTaken port es

/-- The words offered and not yet taken, since the last reset to come. -/
def State.pending (s : State) : List CmdWord := wordsTaken s.cmd.toList s.events

/-- How many resets are to come. -/
def State.resetsLeft (s : State) : Nat := s.events.count .reset

/-- `(A, B, C, D)` and the 64 bytes as the first pending word meets them: those of the block in progress, or of the last
reset to come, with the draw made there (70_reset_and_hazards.md R260, R262). -/
def State.base (s : State) : Quad × (Nat → Byte) :=
  if s.resetsLeft = 0 then (s.settled, s.memByte) else (IV, Config.resetMb (s.draw + s.resetsLeft))

/-- The bytes a host has received for a digest not yet complete are those of `(A, B, C, D)`. -/
def Receiver.Faithful (h : Receiver) (s : State) : Prop :=
  h.result = none → ∀ (j : BitVec 4) (v : Byte), h.bytes[j.toNat]'j.isLt = some v → v = digestByte s.settled j

/-- 45_host_commands.md R203: "`IV` or a value reached from `IV` by some sequence of `Compress`". -/
inductive Chained : Quad → Prop where
  | iv : Chained IV
  | block (q : Quad) (M : BitVec 4 → Word) (h : Chained q) : Chained (compress q M)

/-- A host command that is held outside `IDLE` (10_state.md R33). -/
def isHeldCommand : Instr → Bool
  | .rds => false
  | .init => true
  | .wrb _ _ => true
  | .wrw _ _ => true
  | .go => true
  | .rdb _ => true
  | .stepF _ _ _ => false
  | .stepG _ _ _ => false
  | .stepH _ _ _ => false
  | .stepI _ _ _ => false

end Sys2Proof.Machine
end

