-- ==== Sys2Proof/Certificates/Slice0/Obligations.lean ====
section
/-! DEFINITION. The statements for the provers. Each docstring names the rule of spec/ the statement formalises, or the
log entry of a choice of the model. -/

open Sys2Proof Sys2Proof.Machine

/-! ## Words and the decoder -/

/-- The words of 95_test_vectors.md section 7.1 and rows of 42_transform_step.md R125, as the spec prints them. -/
def Obligations.PrintedWordsDecodeAsPrinted : Prop :=
  decodeCommand 0x00000000000 = .ok .rds ∧
  decodeCommand 0x04000000000 = .ok .init ∧
  decodeCommand 0x0b800000018 = .ok (.wrb 56 0x18) ∧
  decodeCommand 0x0c080636261 = .ok (.wrw 0 0x80636261) ∧
  decodeCommand 0x10000000000 = .ok .go ∧
  decodeCommand 0x14f00000000 = .ok (.rdb 15) ∧
  decodeCommand 0x0e500000001 = .error .wrwHighAddress ∧
  decodeRow 0x007d76aa478 = .stepF 0 7 0xd76aa478 ∧
  decodeRow 0x225f61e2562 = .stepG 1 5 0xf61e2562 ∧
  decodeRow 0x4a4fffa3942 = .stepH 5 4 0xfffa3942 ∧
  decodeRow 0x735eb86d391 = .stepI 9 21 0xeb86d391

/-- 30_encoding.md R70 and R75: a command word and a step control word are the sums the spec prints, and each field is
read back at its place. -/
def Obligations.WordsAreTheSumsOfTheirFields : Prop :=
  (∀ (op : BitVec 3) (addr : BitVec 6) (data : Word),
    (commandWord op addr data).toNat = op.toNat * 2 ^ 38 + addr.toNat * 2 ^ 32 + data.toNat ∧
    cmdOp (commandWord op addr data) = op ∧ cmdAddr (commandWord op addr data) = addr ∧
    cmdData (commandWord op addr data) = data) ∧
  (∀ (fn : BitVec 2) (k : BitVec 4) (s : BitVec 5) (T : Word),
    (rowWord fn k s T).toNat = fn.toNat * 2 ^ 41 + k.toNat * 2 ^ 37 + s.toNat * 2 ^ 32 + T.toNat ∧
    rowFn (rowWord fn k s T) = fn ∧ rowK (rowWord fn k s T) = k ∧ rowS (rowWord fn k s T) = s ∧
    rowT (rowWord fn k s T) = T)

/-- 30_encoding.md R82: the word of each command and of each step as the assembler writes it, with its ignored bits 0. -/
def Obligations.AssemblerWordsAreTheSumsOfR82 : Prop :=
  encode .rds = .command 0x00000000000 ∧ encode .init = .command 0x04000000000 ∧
  encode .go = .command 0x10000000000 ∧
  (∀ (j : BitVec 6) (v : Byte), ∃ w : CmdWord, encode (.wrb j v) = .command w ∧
    w.toNat = 0x08000000000 + j.toNat * 2 ^ 32 + v.toNat) ∧
  (∀ (k : BitVec 4) (v : Word), ∃ w : CmdWord, encode (.wrw k v) = .command w ∧
    w.toNat = 0x0c000000000 + k.toNat * 2 ^ 32 + v.toNat) ∧
  (∀ j : BitVec 4, ∃ w : CmdWord, encode (.rdb j) = .command w ∧ w.toNat = 0x14000000000 + j.toNat * 2 ^ 32) ∧
  (∀ (k : BitVec 4) (s : BitVec 5) (T : Word), ∃ r0 r1 r2 r3 : RowWord,
    encode (.stepF k s T) = .row r0 ∧ r0.toNat = k.toNat * 2 ^ 37 + s.toNat * 2 ^ 32 + T.toNat ∧
    encode (.stepG k s T) = .row r1 ∧ r1.toNat = 2 ^ 41 + r0.toNat ∧
    encode (.stepH k s T) = .row r2 ∧ r2.toNat = 2 * 2 ^ 41 + r0.toNat ∧
    encode (.stepI k s T) = .row r3 ∧ r3.toNat = 3 * 2 ^ 41 + r0.toNat)

/-- Decode and encode agree: decoding an encoded instruction gives it back, for every instruction and every value of
every operand. -/
def Obligations.DecodingAnEncodedInstructionGivesItBack : Prop :=
  ∀ i : Instr, decode (encode i) = .ok i

/-- 30_encoding.md R76: every value of `fn` is used, so every row is a step operation and encodes back to itself. -/
def Obligations.EveryRowWordIsOneStepOperation : Prop :=
  ∀ r : RowWord, encode (decodeRow r) = .row r ∧
    (r &&& 0x60000000000 = 0x00000000000 ↔ ∃ k s T, decodeRow r = .stepF k s T) ∧
    (r &&& 0x60000000000 = 0x20000000000 ↔ ∃ k s T, decodeRow r = .stepG k s T) ∧
    (r &&& 0x60000000000 = 0x40000000000 ↔ ∃ k s T, decodeRow r = .stepH k s T) ∧
    (r &&& 0x60000000000 = 0x60000000000 ↔ ∃ k s T, decodeRow r = .stepI k s T)

/-- 30_encoding.md R73: the decoder is the test `(CMD AND mask) = match` of the six rows, and a word that matches none
spells no command. -/
def Obligations.DecoderIsTheMatchAndMaskTable : Prop :=
  ∀ w : CmdWord,
    (w &&& 0x1c000000000 = 0x00000000000 ↔ decodeCommand w = .ok .rds) ∧
    (w &&& 0x1c000000000 = 0x04000000000 ↔ decodeCommand w = .ok .init) ∧
    (w &&& 0x1c000000000 = 0x08000000000 ↔ ∃ j v, decodeCommand w = .ok (.wrb j v)) ∧
    (w &&& 0x1f000000000 = 0x0c000000000 ↔ ∃ k v, decodeCommand w = .ok (.wrw k v)) ∧
    (w &&& 0x1c000000000 = 0x10000000000 ↔ decodeCommand w = .ok .go) ∧
    (w &&& 0x1f000000000 = 0x14000000000 ↔ ∃ j, decodeCommand w = .ok (.rdb j)) ∧
    ((∃ e, decodeCommand w = .error e) ↔
      w &&& 0x1c000000000 ≠ 0x00000000000 ∧ w &&& 0x1c000000000 ≠ 0x04000000000 ∧
      w &&& 0x1c000000000 ≠ 0x08000000000 ∧ w &&& 0x1f000000000 ≠ 0x0c000000000 ∧
      w &&& 0x1c000000000 ≠ 0x10000000000 ∧ w &&& 0x1f000000000 ≠ 0x14000000000)

/-- 30_encoding.md R71: ignored bits "may have any value, have no effect and are not checked"; the operands are the
unsigned fields as they stand; the bits that must be zero make a word that spells no command. -/
def Obligations.IgnoredBitsHaveNoEffect : Prop :=
  ∀ (addr : BitVec 6) (data : Word),
    decodeCommand (commandWord 0 addr data) = .ok .rds ∧
    decodeCommand (commandWord 1 addr data) = .ok .init ∧
    decodeCommand (commandWord 4 addr data) = .ok .go ∧
    (∀ (high : BitVec 24) (v : Byte), decodeCommand (commandWord 2 addr (high ++ v)) = .ok (.wrb addr v)) ∧
    (∀ (zero : BitVec 2) (k : BitVec 4),
      (zero = 0 → decodeCommand (commandWord 3 (zero ++ k) data) = .ok (.wrw k data) ∧
        decodeCommand (commandWord 5 (zero ++ k) data) = .ok (.rdb k)) ∧
      (zero ≠ 0 → (∃ e, decodeCommand (commandWord 3 (zero ++ k) data) = .error e) ∧
        ∃ e, decodeCommand (commandWord 5 (zero ++ k) data) = .error e))

/-- 30_encoding.md R74: the response word, and "every accepted command is answered by exactly one response word": in a
step that is not a reset, the offered word either stays on the port, with no response, or leaves it and is answered,
with `err = 1` (and `rdata = 0`) exactly for a word that spells no command. -/
def Obligations.AcceptedCommandsAreAnsweredOnce : Prop :=
  (∀ (e : BitVec 1) (v : Word), (rspWord e v).toNat = e.toNat * 2 ^ 32 + v.toNat) ∧
  ∀ (s t : State) (w : CmdWord), step s = .next t → s.cmd = some w → (∀ es, s.events ≠ .reset :: es) →
    (t.cmd = some w ∧ t.rsp = s.rsp) ∨
    (t.cmd = none ∧ ∃ v : Word,
      (t.rsp = some (rspWord 0 v) ∧ ∃ i, decodeCommand w = .ok i) ∨
      (t.rsp = some (rspWord 1 0) ∧ ∃ e, decodeCommand w = .error e))

/-! ## Arithmetic -/

/-- 40_primitives.md R100: `ADD32(x, y) = (x + y) mod 2^32`. -/
def Obligations.AdderIsAdditionModuloTwoToThe32 : Prop :=
  ∀ x y : Word, (ADD32 x y).toNat = (x.toNat + y.toNat) % 2 ^ 32

/-- 40_primitives.md R101: the adder's order of terms does not matter. -/
def Obligations.AdderIsCommutativeAndAssociative : Prop :=
  ∀ x y z : Word, ADD32 x y = ADD32 y x ∧ ADD32 x (ADD32 y z) = ADD32 (ADD32 x y) z ∧
    (ADD32 x (ADD32 y z)).toNat = (x.toNat + y.toNat + z.toNat) % 2 ^ 32

/-- 40_primitives.md R102, on the amounts 1 to 31: the formula with logical shifts on integers, and bit by bit. Nothing
is said of the amount 0 (R103). -/
def Obligations.RotatorByFormulaAndByBit : Prop :=
  ∀ (x : Word) (n : BitVec 5), 1 ≤ n.toNat →
    (ROTL32 x n).toNat = (x.toNat * 2 ^ n.toNat ||| x.toNat / 2 ^ (32 - n.toNat)) % 2 ^ 32 ∧
    ∀ p < 32, (ROTL32 x n).getLsbD ((p + n.toNat) % 32) = x.getLsbD p

/-- 40_primitives.md R104: the rotation by `n` is undone by the rotation by `32 - n`, and rotation does not distribute
over addition. -/
def Obligations.RotationIsInvertibleAndDoesNotDistribute : Prop :=
  (∀ (x : Word) (n m : BitVec 5), 1 ≤ n.toNat → m.toNat = 32 - n.toNat → ROTL32 (ROTL32 x n) m = x) ∧
  ROTL32 (ADD32 0x80000000 0x80000000) 1 ≠ ADD32 (ROTL32 0x80000000 1) (ROTL32 0x80000000 1)

/-- 41_round_functions.md R110 to R113: the four functions by bit, and by the words of R110's and R111's corner cases. -/
def Obligations.RoundFunctionsBitByBit : Prop :=
  (∀ (x y z : Word) (p : Nat), p < 32 →
    (F x y z).getLsbD p = (if x.getLsbD p then y.getLsbD p else z.getLsbD p) ∧
    (G x y z).getLsbD p = (if z.getLsbD p then x.getLsbD p else y.getLsbD p) ∧
    (H x y z).getLsbD p = (x.getLsbD p ^^ y.getLsbD p ^^ z.getLsbD p) ∧
    (I x y z).getLsbD p = (if !x.getLsbD p && z.getLsbD p then y.getLsbD p else !y.getLsbD p)) ∧
  (∀ x y z : Word,
    F x y z = (x &&& y) ||| (~~~x &&& z) ∧ G x y z = (x &&& z) ||| (y &&& ~~~z) ∧
    H x y z = x ^^^ y ^^^ z ∧ I x y z = y ^^^ (x ||| ~~~z) ∧ G x y z = F z x y)

/-- 41_round_functions.md R114: the select 0, 1, 2, 3 gives `F`, `G`, `H`, `I`, and row `i` of the schedule selects
`i div 16`. -/
def Obligations.MultiplexerSelectsTheRoundsFunction : Prop :=
  (∀ x y z : Word, roundFn 0 x y z = F x y z ∧ roundFn 1 x y z = G x y z ∧ roundFn 2 x y z = H x y z ∧
    roundFn 3 x y z = I x y z) ∧
  ∀ i : Fin 64, (rowFn schedule[i]).toNat = i.val / 16

/-- 42_transform_step.md R126 and R127: the word indices and the rotate amounts of the 64 rows; in each round every word
is used exactly once, and every amount is from 4 to 23. -/
def Obligations.ScheduleIndicesAndAmounts : Prop :=
  (∀ i : Fin 64, (rowK schedule[i]).toNat =
    if i.val < 16 then i.val else if i.val < 32 then (5 * i.val + 1) % 16
    else if i.val < 48 then (3 * i.val + 5) % 16 else (7 * i.val) % 16) ∧
  (∀ (r : Fin 4) (k : BitVec 4), ∃ i : Fin 64, (i.val / 16 = r.val ∧ rowK schedule[i] = k) ∧
    ∀ j : Fin 64, j.val / 16 = r.val → rowK schedule[j] = k → j = i) ∧
  (∀ i : Fin 64, (rowS schedule[i]).toNat =
    (([[7, 12, 17, 22], [5, 9, 14, 20], [4, 11, 16, 23], [6, 10, 15, 21]] : List (List Nat)).getD
      (i.val / 16) []).getD (i.val % 4) 0) ∧
  (∀ i : Fin 64, 4 ≤ (rowS schedule[i]).toNat ∧ (rowS schedule[i]).toNat ≤ 23)

/-- 42_transform_step.md R128: the round constants are `floor(2^32 * |sin(i + 1)|)`, the argument in radians. -/
def Obligations.RoundConstantsAreScaledSines : Prop :=
  ∀ i : Fin 64, ((rowT schedule[i]).toNat : Int) = ⌊(2 : ℝ) ^ 32 * |Real.sin ((i.val : ℝ) + 1)|⌋

/-! ## The block buffer -/

/-- 20_memory.md R53: the word view is little-endian: `X[k]` as a sum, and byte `j` in word `j div 4` at bits
`8*(j mod 4)+7` down to `8*(j mod 4)`. -/
def Obligations.WordViewIsLittleEndian : Prop :=
  (∀ (s : State) (k : BitVec 4), (s.X k).toNat =
    (s.memByte (4 * k.toNat)).toNat + 2 ^ 8 * (s.memByte (4 * k.toNat + 1)).toNat +
    2 ^ 16 * (s.memByte (4 * k.toNat + 2)).toNat + 2 ^ 24 * (s.memByte (4 * k.toNat + 3)).toNat) ∧
  ∀ (s : State) (j : BitVec 6), s.memByte j.toNat = (s.X (j.extractLsb' 2 4)).extractLsb' (8 * (j.toNat % 4)) 8

/-- 20_memory.md R54: `WRW k, w` is exactly the four byte writes, least significant byte first. -/
def Obligations.WordWriteIsFourByteWrites : Prop :=
  ∀ (s : State) (k : BitVec 4) (w : Word), s.PH = .idle →
    ∃ t t0 t1 t2 : State, exec (.wrw k w) s = .next t ∧
      exec (.wrb (k ++ 0b00#2) (w.extractLsb' 0 8)) s = .next t0 ∧
      exec (.wrb (k ++ 0b01#2) (w.extractLsb' 8 8)) t0 = .next t1 ∧
      exec (.wrb (k ++ 0b10#2) (w.extractLsb' 16 8)) t1 = .next t2 ∧
      exec (.wrb (k ++ 0b11#2) (w.extractLsb' 24 8)) t2 = .next t

/-- The buffer's list behaves as a memory (the model's form of 20_memory.md R61): a read gives the last byte written
there; a write keeps the canonical form; canonical buffers that hold the same bytes are equal data. -/
def Obligations.BufferReadsTheLastWriteAndStaysCanonical : Prop :=
  (∀ (m : Memory) (p q : Nat) (v : Byte), (m.write p v).lookup q = if q = p then some v else m.lookup q) ∧
  (∀ (m : Memory) (p : Nat) (v : Byte), m.wf → p < 64 → (m.write p v).wf) ∧
  (∀ m n : Memory, m.wf → n.wf → (∀ q, m.lookup q = n.lookup q) → m = n)

/-! ## The host commands -/

/-- 45_host_commands.md R180, with 10_state.md R29 and R30: `RDS` answers `0x000000001` while a block is in progress and
`0x000000000` otherwise, in every phase and with any ignored bits, and changes nothing else. -/
def Obligations.RdsAnswersTheStatus : Prop :=
  (∀ w : CmdWord, decodeCommand w = .ok .rds ↔ cmdOp w = 0) ∧
  (∀ s : State, s.BUSY = (if s.PH = .idle then 0 else 1) ∧ s.STATUS.toNat = s.BUSY.toNat) ∧
  ∀ s : State, exec .rds s =
    .next { s with cmd := none, rsp := some (if s.PH = .idle then 0x000000000 else 0x000000001) }

/-- 45_host_commands.md R182: `INIT` loads the initial values and changes nothing else; held outside `IDLE`. -/
def Obligations.InitLoadsTheInitialValues : Prop :=
  (∀ w : CmdWord, decodeCommand w = .ok .init ↔ cmdOp w = 1) ∧
  ∀ s : State,
    (s.PH = .idle → exec .init s = .next
      { s with A := 0x67452301, B := 0xefcdab89, C := 0x98badcfe, D := 0x10325476, cmd := none,
               rsp := some 0x000000000 }) ∧
    (s.PH ≠ .idle → exec .init s = .next s)

/-- 45_host_commands.md R184: `WRB j, v` writes one byte; every other byte of the buffer and every register keeps its
value; held outside `IDLE`. -/
def Obligations.WrbWritesOneByte : Prop :=
  (∀ w : CmdWord, cmdOp w = 2 → decodeCommand w = .ok (.wrb (cmdAddr w) ((cmdData w).extractLsb' 0 8))) ∧
  ∀ (j : BitVec 6) (v : Byte) (s : State),
    (s.PH = .idle → ∃ t, exec (.wrb j v) s = .next t ∧
      t.memByte j.toNat = v ∧ (∀ p, p ≠ j.toNat → t.memByte p = s.memByte p) ∧
      (t.X (j.extractLsb' 2 4)).extractLsb' (8 * (j.toNat % 4)) 8 = v ∧
      t = { s with MB := t.MB, cmd := none, rsp := some 0x000000000 }) ∧
    (s.PH ≠ .idle → exec (.wrb j v) s = .next s)

/-- 45_host_commands.md R186: `WRW k, w` writes the bytes `4k` to `4k+3`, least significant first, so that `X[k] = w`;
every other byte and every register keeps its value; held outside `IDLE`; with `addr[5:4]` not 0 the word gets the
error response in any phase. -/
def Obligations.WrwWritesOneWord : Prop :=
  (∀ w : CmdWord, cmdOp w = 3 →
    ((cmdAddr w).extractLsb' 4 2 = 0 → decodeCommand w = .ok (.wrw ((cmdAddr w).extractLsb' 0 4) (cmdData w))) ∧
    ((cmdAddr w).extractLsb' 4 2 ≠ 0 → decodeCommand w = .error .wrwHighAddress ∧
      ∀ s : State, s.cmd = some w → portMove s = .next { s with cmd := none, rsp := some 0x100000000 })) ∧
  ∀ (k : BitVec 4) (w : Word) (s : State),
    (s.PH = .idle → ∃ t, exec (.wrw k w) s = .next t ∧
      t.memByte (4 * k.toNat) = w.extractLsb' 0 8 ∧ t.memByte (4 * k.toNat + 1) = w.extractLsb' 8 8 ∧
      t.memByte (4 * k.toNat + 2) = w.extractLsb' 16 8 ∧ t.memByte (4 * k.toNat + 3) = w.extractLsb' 24 8 ∧
      t.X k = w ∧ (∀ p, p < 4 * k.toNat ∨ 4 * k.toNat + 4 ≤ p → t.memByte p = s.memByte p) ∧
      t = { s with MB := t.MB, cmd := none, rsp := some 0x000000000 }) ∧
    (s.PH ≠ .idle → exec (.wrw k w) s = .next s)

/-- 45_host_commands.md R200: byte `j` of the window is byte `j mod 4`, least significant first, of register `j div 4`
in the order `A, B, C, D`. -/
def Obligations.SerializerIsLittleEndianInRegisterOrder : Prop :=
  ∀ (s : State) (j : BitVec 4), (s.digestWindow j).toNat =
    ([s.A, s.B, s.C, s.D].getD (j.toNat / 4) 0).toNat / 2 ^ (8 * (j.toNat % 4)) % 2 ^ 8

/-- 45_host_commands.md R190: `RDB j` answers the byte of the digest window in `rdata[7:0]`, `rdata[31:8] = 0`, and
changes nothing else; held outside `IDLE`; with `addr[5:4]` not 0 the word gets the error response in any phase. -/
def Obligations.RdbAnswersOneDigestByte : Prop :=
  (∀ w : CmdWord, cmdOp w = 5 →
    ((cmdAddr w).extractLsb' 4 2 = 0 → decodeCommand w = .ok (.rdb ((cmdAddr w).extractLsb' 0 4))) ∧
    ((cmdAddr w).extractLsb' 4 2 ≠ 0 → decodeCommand w = .error .rdbHighAddress ∧
      ∀ s : State, s.cmd = some w → portMove s = .next { s with cmd := none, rsp := some 0x100000000 })) ∧
  ∀ (j : BitVec 4) (s : State),
    (s.PH = .idle → ∃ r : RspWord, r.toNat = (s.digestWindow j).toNat ∧
      exec (.rdb j) s = .next { s with cmd := none, rsp := some r }) ∧
    (s.PH ≠ .idle → exec (.rdb j) s = .next s)

/-- 44_compression_core.md R161: `GO` copies the state registers to the accumulators, clears `STEP`, enters `RUN` (so
`BUSY` becomes 1) and changes nothing else; held outside `IDLE`. -/
def Obligations.GoStartsABlock : Prop :=
  (∀ w : CmdWord, decodeCommand w = .ok .go ↔ cmdOp w = 4) ∧
  ∀ s : State,
    (s.PH = .idle → ∃ t, exec .go s = .next t ∧ t.BUSY = 1 ∧
      t = { s with a := s.A, b := s.B, c := s.C, d := s.D, STEP := 0, PH := .run, cmd := none,
                   rsp := some 0x000000000 }) ∧
    (s.PH ≠ .idle → exec .go s = .next s)

/-- 60_exceptions.md R231 and 30_encoding.md R80: a word spells no command exactly in the four listed cases; it is
accepted in every phase, answered `0x100000000`, and no other state changes. -/
def Obligations.WordsThatSpellNoCommandGetCmdError : Prop :=
  (∀ w : CmdWord, (∃ e, decodeCommand w = .error e) ↔
    cmdOp w = 6 ∨ cmdOp w = 7 ∨ (cmdOp w = 3 ∨ cmdOp w = 5) ∧ (cmdAddr w).extractLsb' 4 2 ≠ 0) ∧
  ∀ (s : State) (w : CmdWord) (e : DecodeError), decodeCommand w = .error e → s.cmd = some w →
    s.accepts w = true ∧ portMove s = .next { s with cmd := none, rsp := some 0x100000000 }

/-- 10_state.md R33 with 45_host_commands.md R202: in `IDLE` every word is accepted; in `RUN` and `FOLD` only `RDS` and a
word that spells no command; the others are held: they have no effect and no response and stay offered. -/
def Obligations.CommandsAreHeldWhileBusy : Prop :=
  (∀ (s : State) (w : CmdWord), s.PH = .idle → s.accepts w = true) ∧
  (∀ (s : State) (w : CmdWord), s.PH ≠ .idle →
    (s.accepts w = true ↔ decodeCommand w = .ok .rds ∨ ∃ e, decodeCommand w = .error e)) ∧
  (∀ (s : State) (w : CmdWord), s.cmd = some w → s.accepts w = false → portMove s = .next s) ∧
  (∀ (s : State) (w : CmdWord), s.cmd = some w → s.accepts w = true →
    ∃ t r, portMove s = .next t ∧ t.cmd = none ∧ t.rsp = some r)

/-! ## The step operations and FOLD -/

/-- 42_transform_step.md R121 (with R120 and R129): `STEP.F`, its encoding, the steps that use it, its result. Two things are
the model's and not the rule's: that the meaning is the same in every phase, where the rule speaks of `PH = RUN` (log 10,
DEDUCED), and that with a rotate amount of 0, which no row has, it runs and the new `b` holds a free value (log 6, DESIGN
CHOICE). -/
def Obligations.StepFResult : Prop :=
  (∀ r : RowWord, rowFn r = 0 → decodeRow r = .stepF (rowK r) (rowS r) (rowT r)) ∧
  (∀ i : Fin 64, i.val < 16 → rowFn schedule[i] = 0) ∧
  ∀ (k : BitVec 4) (n : BitVec 5) (T : Word) (s : State), exec (.stepF k n T) s = .next
    { s with a := s.d, b := ADD32 (ROTL32 (ADD32 s.a (ADD32 (ADD32 ((s.b &&& s.c) ||| (~~~s.b &&& s.d)) (s.X k)) T)) n) s.b,
             c := s.b, d := s.c, PH := if s.STEP = 63 then .fold else s.PH,
             STEP := if s.STEP = 63 then 0 else s.STEP + 1 }

/-- 42_transform_step.md R122 (with R120 and R129): `STEP.G`, as for `STEP.F`. The model's own: the same meaning in every
phase (log 10, DEDUCED), and the free value for a rotate amount of 0 (log 6, DESIGN CHOICE). -/
def Obligations.StepGResult : Prop :=
  (∀ r : RowWord, rowFn r = 1 → decodeRow r = .stepG (rowK r) (rowS r) (rowT r)) ∧
  (∀ i : Fin 64, 16 ≤ i.val → i.val < 32 → rowFn schedule[i] = 1) ∧
  ∀ (k : BitVec 4) (n : BitVec 5) (T : Word) (s : State), exec (.stepG k n T) s = .next
    { s with a := s.d, b := ADD32 (ROTL32 (ADD32 s.a (ADD32 (ADD32 ((s.b &&& s.d) ||| (s.c &&& ~~~s.d)) (s.X k)) T)) n) s.b,
             c := s.b, d := s.c, PH := if s.STEP = 63 then .fold else s.PH,
             STEP := if s.STEP = 63 then 0 else s.STEP + 1 }

/-- 42_transform_step.md R123 (with R120 and R129): `STEP.H`, as for `STEP.F`. The model's own: the same meaning in every
phase (log 10, DEDUCED), and the free value for a rotate amount of 0 (log 6, DESIGN CHOICE). -/
def Obligations.StepHResult : Prop :=
  (∀ r : RowWord, rowFn r = 2 → decodeRow r = .stepH (rowK r) (rowS r) (rowT r)) ∧
  (∀ i : Fin 64, 32 ≤ i.val → i.val < 48 → rowFn schedule[i] = 2) ∧
  ∀ (k : BitVec 4) (n : BitVec 5) (T : Word) (s : State), exec (.stepH k n T) s = .next
    { s with a := s.d, b := ADD32 (ROTL32 (ADD32 s.a (ADD32 (ADD32 (s.b ^^^ s.c ^^^ s.d) (s.X k)) T)) n) s.b,
             c := s.b, d := s.c, PH := if s.STEP = 63 then .fold else s.PH,
             STEP := if s.STEP = 63 then 0 else s.STEP + 1 }

/-- 42_transform_step.md R124 (with R120 and R129): `STEP.I`, as for `STEP.F`. The model's own: the same meaning in every
phase (log 10, DEDUCED), and the free value for a rotate amount of 0 (log 6, DESIGN CHOICE). -/
def Obligations.StepIResult : Prop :=
  (∀ r : RowWord, rowFn r = 3 → decodeRow r = .stepI (rowK r) (rowS r) (rowT r)) ∧
  (∀ i : Fin 64, 48 ≤ i.val → rowFn schedule[i] = 3) ∧
  ∀ (k : BitVec 4) (n : BitVec 5) (T : Word) (s : State), exec (.stepI k n T) s = .next
    { s with a := s.d, b := ADD32 (ROTL32 (ADD32 s.a (ADD32 (ADD32 (s.c ^^^ (s.b ||| ~~~s.d)) (s.X k)) T)) n) s.b,
             c := s.b, d := s.c, PH := if s.STEP = 63 then .fold else s.PH,
             STEP := if s.STEP = 63 then 0 else s.STEP + 1 }

/-- 44_compression_core.md R166: the add-back: the four sums, `PH <- IDLE` (so `BUSY` becomes 0), nothing else. -/
def Obligations.FoldAddsBack : Prop :=
  ∀ s : State, s.PH = .fold → ∃ t, coreMove s = .next t ∧ t.BUSY = 0 ∧
    t = { s with A := ADD32 s.A s.a, B := ADD32 s.B s.b, C := ADD32 s.C s.c, D := ADD32 s.D s.d, PH := .idle }

/-! ## Steps, reset, and who moves -/

/-- A step runs the decoded instruction. The port's move is `exec` of the command its word decodes to (the model's event
lists, logs 1 and 2, say when the port moves); the core's move in `RUN` is `exec` of the decoded row `STEP`; in `FOLD`
it is the add-back. -/
def Obligations.StepRunsTheDecodedInstruction : Prop :=
  (∀ (s : State) (es : List Event) (w : CmdWord) (i : Instr), s.events = .port :: es → s.cmd = some w →
    decodeCommand w = .ok i → step s = exec i { s with events := es }) ∧
  (∀ (s : State) (w : CmdWord) (i : Instr), s.events = [] → s.cmd = some w → s.accepts w = true →
    decodeCommand w = .ok i → step s = exec i s) ∧
  (∀ (s : State) (es : List Event), s.events = .core :: es → s.PH = .run →
    step s = exec (decodeRow s.fetchRow) { s with events := es }) ∧
  (∀ s : State, s.events = [] → s.cmd = none → s.PH = .run → step s = exec (decodeRow s.fetchRow) s) ∧
  (∀ (s : State) (es : List Event), s.events = .core :: es → s.PH = .fold →
    step s = .next ({ s with events := es } : State).fold)

/-- The model's own form of the outside's doings (10_state.md R35, logs 1 and 2): an offer on a free port places the word and
takes the last response; on an occupied port it waits. A reset keeps what the outside does afterwards (log 16, DEDUCED). -/
def Obligations.OffersWaitForThePort : Prop :=
  (∀ (s : State) (w : CmdWord) (es : List Event), s.events = .offer w :: es → s.cmd = none →
    step s = .next { s with cmd := some w, rsp := none, events := es }) ∧
  (∀ (s t : State) (w w' : CmdWord) (es : List Event), s.events = .offer w :: es → s.cmd = some w' →
    step s = .next t → t.events = s.events ∧ (t.cmd = some w' ∨ t.cmd = none)) ∧
  (∀ (s : State) (es : List Event), s.events = .reset :: es → ∃ t, step s = .next t ∧ t.events = es)

/-- 70_reset_and_hazards.md R260: reset at any moment, in any phase: the initial values, `STEP = 0`, `IDLE`, `BUSY` and
`STATUS` 0, the offered command and the untaken response dropped, the schedule not touched. Nothing is said of the
accumulators and the buffer (R262). That reset fires is the first event of the model's list (log 1). -/
def Obligations.ResetLoadsTheResetValues : Prop :=
  ∀ (s : State) (es : List Event), s.events = .reset :: es → ∃ t, step s = .next t ∧
    t.A = 0x67452301 ∧ t.B = 0xefcdab89 ∧ t.C = 0x98badcfe ∧ t.D = 0x10325476 ∧ t.STEP = 0 ∧ t.PH = .idle ∧
    t.BUSY = 0 ∧ t.STATUS = 0 ∧ t.SCHED = s.SCHED ∧ t.cmd = none ∧ t.rsp = none ∧
    ∀ w, t.accepts w = true

/-- 10_state.md R36: the state after reset. Nothing is said of the values the spec leaves unspecified. -/
def Obligations.StateAfterReset : Prop :=
  State.reset.A = 0x67452301 ∧ State.reset.B = 0xefcdab89 ∧ State.reset.C = 0x98badcfe ∧ State.reset.D = 0x10325476 ∧
  State.reset.STEP = 0 ∧ State.reset.PH = .idle ∧ State.reset.BUSY = 0 ∧ State.reset.STATUS = 0x00000000 ∧
  State.reset.SCHED = schedule ∧ State.reset.cmd = none ∧ State.reset.rsp = none

/-- The invariant holds after reset. -/
def Obligations.InvariantHoldsAfterReset : Prop := State.reset.Inv

/-- Every step from a state with the invariant gives a state with it: the buffer's list stays canonical, the schedule
stays the table of R125, `STEP` is 0 outside `RUN`, at most one command is outstanding. -/
def Obligations.EveryStepKeepsTheInvariant : Prop :=
  ∀ s t : State, s.Inv → step s = .next t → t.Inv

/-- 60_exceptions.md R230: no fault state and no stuck state: every state has a next state, and every instruction in
every state. -/
def Obligations.NoStateIsStuck : Prop :=
  (∀ s : State, ∃ t, step s = .next t) ∧ (∀ (i : Instr) (s : State), ∃ t, exec i s = .next t)

/-- 10_state.md R21: the state registers are written by reset and by `INIT` (with `IV`) and by `FOLD` (with the sums), and
by nothing else. -/
def Obligations.StateRegistersHaveThreeWriters : Prop :=
  ∀ s t : State, step s = .next t →
    t.regs = s.regs ∨
    (t.regs = IV ∧ ((∃ es, s.events = .reset :: es) ∨
      (s.PH = .idle ∧ ∃ w, s.cmd = some w ∧ decodeCommand w = .ok .init))) ∨
    (s.PH = .fold ∧ t.PH = .idle ∧ t.regs = addQuad s.regs s.accs)

/-- 10_state.md R25: the accumulators are written by `GO` (the copy of the state registers), by a step, and by reset, and
by nothing else. -/
def Obligations.AccumulatorsHaveTheirWriters : Prop :=
  ∀ s t : State, step s = .next t →
    t.accs = s.accs ∨ (∃ es, s.events = .reset :: es) ∨
    (s.PH = .idle ∧ (∃ w, s.cmd = some w ∧ decodeCommand w = .ok .go) ∧ t.accs = s.regs) ∨
    (s.PH = .run ∧ t.accs =
      stepQuad (rowFn s.fetchRow) (s.X (rowK s.fetchRow)) (rowS s.fetchRow) (rowT s.fetchRow) s.accs)

/-- 20_memory.md R51 and R60: the buffer changes only by an accepted `WRB` or `WRW` in `IDLE`, or by reset; the core never
writes it, and while a block is in progress no byte of it changes. -/
def Obligations.BufferChangesOnlyByHostWritesInIdle : Prop :=
  ∀ s t : State, step s = .next t → (∀ es, s.events ≠ .reset :: es) →
    (∀ p, t.memByte p = s.memByte p) ∨
    (s.PH = .idle ∧ ∃ w, s.cmd = some w ∧
      ((∃ j v, decodeCommand w = .ok (.wrb j v)) ∨ ∃ k v, decodeCommand w = .ok (.wrw k v)))

/-- 20_memory.md R63: no transition writes the schedule table. -/
def Obligations.NoTransitionWritesTheSchedule : Prop :=
  ∀ s t : State, step s = .next t → t.SCHED = s.SCHED

/-- 10_state.md R26 and R28: every transition of `PH` and `STEP`: reset; `GO` from `IDLE`; in `RUN` a step counts up below
63 and at 63 enters `FOLD` with `STEP = 0`; `FOLD` to `IDLE`; nothing else writes either. -/
def Obligations.PhaseAndCounterTransitions : Prop :=
  ∀ s t : State, step s = .next t →
    (t.PH = s.PH ∧ t.STEP = s.STEP) ∨
    ((∃ es, s.events = .reset :: es) ∧ t.PH = .idle ∧ t.STEP = 0) ∨
    (s.PH = .idle ∧ (∃ w, s.cmd = some w ∧ decodeCommand w = .ok .go) ∧ t.PH = .run ∧ t.STEP = 0) ∨
    (s.PH = .run ∧ s.STEP.toNat < 63 ∧ t.PH = .run ∧ t.STEP.toNat = s.STEP.toNat + 1) ∨
    (s.PH = .run ∧ s.STEP = 63 ∧ t.PH = .fold ∧ t.STEP = 0) ∨
    (s.PH = .fold ∧ t.PH = .idle ∧ t.STEP = s.STEP)

/-- 44_compression_core.md R168: a block ends: `GO` leaves 65 core transitions, each core transition takes one off, and
none is left exactly in `IDLE`. -/
def Obligations.EveryBlockEndsAfter65CoreMoves : Prop :=
  (∀ s t : State, s.PH = .idle → exec .go s = .next t → coreMovesLeft t = 65) ∧
  (∀ s : State, coreMovesLeft s = 0 ↔ s.PH = .idle) ∧
  (∀ s : State, s.PH ≠ .idle → ∃ t, coreMove s = .next t ∧ coreMovesLeft t + 1 = coreMovesLeft s)

/-- 60_exceptions.md R234: while a block is in progress an accepted word changes nothing but the port; its order against
the core's transition does not matter, except that the add-back changes what `RDS` answers. -/
def Obligations.PollingCommutesWithTheCore : Prop :=
  ∀ (s : State) (w : CmdWord), s.PH ≠ .idle → s.cmd = some w → s.accepts w = true →
    ∃ r, portMove s = .next { s with cmd := none, rsp := some r } ∧
    ∃ t u v, coreMove { s with cmd := none, rsp := some r } = .next t ∧ coreMove s = .next u ∧ portMove u = .next v ∧
      t = { v with rsp := some r } ∧ (s.PH = .run → t = v)

/-- 10_state.md R25 and 70_reset_and_hazards.md R262: the draw of the accumulators is never observed: two idle states that
differ only in them go through the same steps until both are equal. -/
def Obligations.AccumulatorDrawIsNeverObserved : Prop :=
  ∀ (s t : State) (q : Quad), s.PH = .idle → step s = .next t →
    ∃ t', step (s.setAccs q) = .next t' ∧ (t' = t ∨ (t.PH = .idle ∧ t' = t.setAccs q))

/-- 20_memory.md R61 and 44_compression_core.md R163: to its host the block is one command after another. A step that
is no reset either changes nothing the host can find out later, or takes the offered word: a word that spells no command
changes nothing, a command has its whole effect, with the whole block of a `GO`, and its answer. -/
def Obligations.StepsActAsOneCommandAfterAnother : Prop :=
  ∀ s t : State, s.SCHED = schedule → step s = .next t → (∀ es, s.events ≠ .reset :: es) →
    (t.settled = s.settled ∧ t.memByte = s.memByte ∧ (t.cmd = s.cmd ∨ s.cmd = none)) ∨
    ∃ w r, s.cmd = some w ∧ t.cmd = none ∧ t.rsp = some r ∧
      ((t.settled = s.settled ∧ t.memByte = s.memByte ∧ r = 0x100000000 ∧ ∃ e, decodeCommand w = .error e) ∨
       ∃ i, decodeCommand w = .ok i ∧ (t.settled, t.memByte) = commandEffect i s.settled s.memByte ∧
         ∀ r', answerOf i s.settled = some r' → r = r')

/-- 45_host_commands.md R203: `(A, B, C, D)` is at all times `IV` or a value reached from `IV` by some sequence of
`Compress`, and so is what they will hold when the block in progress is done. -/
def Obligations.StateRegistersAreAlwaysChainedFromIV : Prop :=
  (Chained State.reset.regs ∧ Chained State.reset.settled) ∧
  ∀ s t : State, s.SCHED = schedule → Chained s.regs → Chained s.settled → step s = .next t →
    Chained t.regs ∧ Chained t.settled

/-! ## Blocks and messages -/

/-- 44_compression_core.md R164: if `GO` is accepted with `(A, B, C, D) = S` and `X[k] = M[k]`, then after exactly 65
core transitions, and not before, the phase is `IDLE`; then `(A, B, C, D) = Compress(S, M)` and the buffer is
unchanged. -/
def Obligations.ABlockComputesCompress : Prop :=
  ∀ (s : State) (w : CmdWord) (rest : List Event), s.SCHED = schedule → s.PH = .idle → s.cmd = some w →
    decodeCommand w = .ok .go → s.events = .port :: (List.replicate 65 .core ++ rest) →
    (∀ n, 1 ≤ n → n ≤ 65 → ∃ u, run n s = .next u ∧ u.PH ≠ .idle) ∧
    ∃ t, run 66 s = .next t ∧ t.PH = .idle ∧ t.regs = compress s.regs s.X ∧ t.MB = s.MB ∧ t.draw = s.draw ∧
      t.events = rest

/-- 43_padding.md R141 and R142: the padded string: the message, `0x80`, zeros, the eight bytes of the length in bits; the
number of zeros is the least that fits; the length is 64 bytes a block. -/
def Obligations.PaddedStringByItsRule : Prop :=
  ∀ msg : List Byte,
    (padBytes msg).length = 64 * numBlocks msg.length ∧
    (msg.length + 1 + padZeros msg.length) % 64 = 56 ∧
    (∀ z, (msg.length + 1 + z) % 64 = 56 → padZeros msg.length ≤ z) ∧
    (∀ t, t < msg.length → (padBytes msg)[t]? = msg[t]?) ∧
    (padBytes msg)[msg.length]? = some 0x80 ∧
    (∀ t, msg.length < t → t ≤ msg.length + padZeros msg.length → (padBytes msg)[t]? = some 0x00) ∧
    (∀ u, u < 8 → ∃ v : Byte, (padBytes msg)[msg.length + 1 + padZeros msg.length + u]? = some v ∧
      v.toNat = 8 * msg.length / 2 ^ (8 * u) % 2 ^ 8)

/-- 43_padding.md R143: messages up to `LMAX` are padded and longer ones refused; the last two words of the word array are
the low and the high word of the length in bits. -/
def Obligations.LengthWordsAndTheLongestMessage : Prop :=
  (∀ msg : List Byte, (pad msg).isSome = true ↔ msg.length ≤ 2 ^ 61 - 1) ∧
  (∀ (msg P : List Byte), pad msg = some P →
    (wordArray P).length = 16 * numBlocks msg.length ∧
    ((wordArray P).getD (16 * numBlocks msg.length - 2) 0).toNat = 8 * msg.length % 2 ^ 32 ∧
    ((wordArray P).getD (16 * numBlocks msg.length - 1) 0).toNat = 8 * msg.length / 2 ^ 32)

/-- 46_digest_and_driver.md R210: the digest string is 32 characters `0` to `9`, `a` to `f`; characters `2j` and `2j + 1`
are the digits of the high and the low nibble of `DigestByte(j)`. -/
def Obligations.DigestTextIs32LowercaseHexCharacters : Prop :=
  ∀ q : Quad, (hexDigest q).length = 32 ∧
    (∀ ch ∈ hexDigest q, ch ∈ "0123456789abcdef".toList) ∧
    ∀ j : BitVec 4,
      (hexDigest q)[2 * j.toNat]? = "0123456789abcdef".toList[(digestByte q j).toNat / 16]? ∧
      (hexDigest q)[2 * j.toNat + 1]? = "0123456789abcdef".toList[(digestByte q j).toNat % 16]?

/-- The three digests the source document prints (95_test_vectors.md section 1, S2 to S4). -/
def Obligations.KnownDigests : Prop :=
  digestText [] = some "d41d8cd98f00b204e9800998ecf8427e".toList ∧
  digestText [0x61, 0x62, 0x63] = some "900150983cd24fb0d6963f7d28e17f72".toList ∧
  digestText ("The quick brown fox jumps over the lazy dog".toList.map fun ch => BitVec.ofNat 8 ch.toNat) =
    some "9e107d9d372bb6826bd81d3542a419d6".toList

/-- 46_digest_and_driver.md R213 and R214: for every message up to `LMAX`, whatever the block is doing, whatever it and its
buffer hold, whatever was offered `earlier`, and with every liberty of 70_reset_and_hazards.md R270: any order of the host's
offers against the turns of port and core, no waiting, polls and early reads, words that spell no command anywhere, any
ignored bits, only the bytes that differ written, resets before. If the words taken spell a procedure that R212 allows for
the message, the run ends idle with every word answered in order: 0 to `INIT`, `WRB`, `WRW` and `GO`, the error response to a
word that spells no command, the digest byte to every `RDB` after the last `GO`. `(A, B, C, D)` is then the message's final
state, the buffer holds its last block, and the host has the digest, in bytes and as text, whatever it heard before. The
order of events is the model's (logs 1 to 3), and so is how the host keeps what it hears (log 17). -/
def Obligations.TheProcedureYieldsTheDigest : Prop :=
  ∀ (msg P : List Byte) (earlier program : List Instr) (s : State), pad msg = some P → s.SCHED = schedule →
    commandsOf s.pending = earlier ++ program → isProcedure P (effects earlier s.base.1 s.base.2).2 program →
    ∃ n t before since, run n s = .next t ∧ t.events = [] ∧ t.cmd = none ∧ t.PH = .idle ∧ t.BUSY = 0 ∧
      t.regs = messageState P ∧ t.X = blockOf (wordArray P) (numBlocks msg.length - 1) ∧
      heard n s = before ++ since ∧ since.map Heard.word = s.pending.map some ∧
      (∀ w r, Heard.answered w r ∈ since →
        ((∃ e, decodeCommand w = .error e) → r = 0x100000000) ∧
        (decodeCommand w = .ok .init ∨ decodeCommand w = .ok .go ∨ (∃ j v, decodeCommand w = .ok (.wrb j v)) ∨
          (∃ k v, decodeCommand w = .ok (.wrw k v)) → r = 0x000000000)) ∧
      (∀ xs w r ys j, since = xs ++ Heard.answered w r :: ys → decodeCommand w = .ok (.rdb j) →
        (∀ h ∈ ys, h.command ≠ some .go) → r = rspWord 0 ((digestByte (messageState P) j).setWidth 32)) ∧
      ∀ past, outcome (numBlocks msg.length) (past ++ heard n s) = some (digestBytes (messageState P)) ∧
        outcomeText (numBlocks msg.length) (past ++ heard n s) = digestText msg

/-- 46_digest_and_driver.md R212: the order it writes out, by words or (30_encoding.md R83, `BLOCKB`) by bytes, is one of
the procedures it allows, whatever the buffer holds; by words it has `1 + 17 * NB + 16` commands. -/
def Obligations.TheWrittenOrdersAreProcedures : Prop :=
  ∀ (msg P : List Byte) (m : Nat → Byte), pad msg = some P →
    (∃ program, messageProcedure msg = some program ∧ isProcedure P m program ∧
      program.length = 1 + 17 * numBlocks msg.length + 16) ∧
    isProcedure P m (.init :: (List.range (numBlocks msg.length)).flatMap
      (fun n => blockBytesProgram fun j => P.getD (64 * n + j.toNat) 0) ++ digestProgram)

/-- 46_digest_and_driver.md R217 and R218: files that agree in their first mebibyte have the same digest, which is that
of the truncated buffer; a file that cannot be read has no digest and issues no command, and the driver resolves to no string
for it whatever it heard from the block. -/
def Obligations.DriverTruncatesAndNeverInventsADigest : Prop :=
  (∀ file : List Byte, driverDigest (some file) = digestText (file.take 1048576)) ∧
  (∀ f g : List Byte, (∀ p, p < 1048576 → f[p]? = g[p]?) → driverDigest (some f) = driverDigest (some g)) ∧
  (∀ file : List Byte, ∃ program, driverProcedure (some file) = some program) ∧
  driverDigest none = none ∧ driverProcedure none = none ∧ ∀ trace, driverResult none trace = none

/-- 46_digest_and_driver.md R214: "A run in which the host stops earlier has no outcome": an outcome needs, after the last
`INIT` and with no reset since, as many `GO` as the message has blocks and then, before any other `GO`, an answer to each of
the sixteen `RDB`, whose bytes it is in index order. And the step in which the last of them is heard finds the block idle: the
bytes a host has received are at every moment those of `(A, B, C, D)`, so the outcome is what the serializer then shows.
How the host keeps what it hears is the model's (log 17). -/
def Obligations.AnOutcomeIsTheSixteenBytesOfAFinishedMessage : Prop :=
  (∀ (NB : Nat) (trace : List Heard) (bytes : List Byte), 1 ≤ NB → outcome NB trace = some bytes →
    bytes.length = 16 ∧ ∃ past begun sent last reads rest,
      trace = past ++ begun :: sent ++ last :: reads ++ rest ∧
      begun.command = some .init ∧ last.command = some .go ∧ (sent.filterMap Heard.command).count .go + 1 = NB ∧
      (∀ h ∈ sent ++ reads ++ rest, h ≠ .reset ∧ h.command ≠ some .init) ∧ (∀ h ∈ reads, h.command ≠ some .go) ∧
      ∀ j : BitVec 4, ∃ w r, Heard.answered w r ∈ reads ∧ decodeCommand w = .ok (.rdb j) ∧
        bytes[j.toNat]? = some (rspByte r)) ∧
  ∀ (NB : Nat) (h : Receiver) (s t : State), step s = .next t → h.Faithful s →
    (h.hearAll NB (heardIn s t)).Faithful t ∧
    (h.result = none → ∀ bytes, (h.hearAll NB (heardIn s t)).result = some bytes →
      bytes = digestBytes t.regs ∧ t.regs = s.regs ∧ t.memByte = s.memByte ∧ t.PH = .idle ∧ t.BUSY = 0)

/-- 46_digest_and_driver.md R214: the block has no halt: every endless run goes on (its form is the model's, log 18). Claims
about termination are about the core (44_compression_core.md R168): under any endless input, resets among it, that gives the
core its turn again and again (00_scope.md R19: weak fairness), the block in progress ends. "A run in which the host never
stops issuing `RDS` is legal and endless": it is answered without end, 0 or 1 each time, and has no outcome. -/
def Obligations.EndlessRunsGoOnAndTheirBlocksEnd : Prop :=
  (∀ (input : Nat → List Event) (n : Nat) (s : State), ∃ t, fed input n s = .next t) ∧
  (∀ (input : Nat → List Event) (s : State), againAndAgain (fun e => e = .core) input →
    ∃ n t, fed input n s = .next t ∧ t.PH = .idle) ∧
  ∀ (input : Nat → List Event) (s : State), (∀ e ∈ s.events, e.polls = true) → (∀ n, ∀ e ∈ input n, e.polls = true) →
    (∀ w, s.cmd = some w → decodeCommand w = .ok .rds) → againAndAgain (fun e => ∃ w, e = .offer w) input →
    (∀ N, ∃ n, N ≤ (heardFed input n s).length) ∧
    ∀ n, (∀ h ∈ heardFed input n s, ∃ w, decodeCommand w = .ok .rds ∧
        (h = .answered w 0x000000000 ∨ h = .answered w 0x000000001)) ∧
      ∀ NB, outcome NB (heardFed input n s) = none
end

