-- ==== Sys2Proof/Laws/Encoding.lean ====
section
/-! SUPPORT. The fields of assembled words, and what the decoder answers by opcode. -/

namespace Sys2Proof

/-! ## Fields of concatenations -/

theorem extract_append_high {m n : Nat} (x : BitVec m) (y : BitVec n) (start len : Nat) (h : n ≤ start) :
    (x ++ y).extractLsb' start len = x.extractLsb' (start - n) len := by
  ext i hi
  simp only [BitVec.getElem_extractLsb', BitVec.getLsbD_append]
  rw [if_neg (by omega)]
  congr 1; omega

theorem extract_append_low {m n : Nat} (x : BitVec m) (y : BitVec n) (start len : Nat) (h : start + len ≤ n) :
    (x ++ y).extractLsb' start len = y.extractLsb' start len := by
  ext i hi
  simp only [BitVec.getElem_extractLsb', BitVec.getLsbD_append]
  rw [if_pos (by omega)]

theorem extract_all {n : Nat} (x : BitVec n) : x.extractLsb' 0 n = x := by
  ext i hi; simp

section
variable (op : BitVec 3) (addr : BitVec 6) (data : Word)

@[simp] theorem cmdOp_commandWord : cmdOp (commandWord op addr data) = op := by
  unfold cmdOp commandWord
  rw [extract_append_high _ _ _ _ (by omega), extract_append_high _ _ _ _ (by omega)]; exact extract_all op

@[simp] theorem cmdAddr_commandWord : cmdAddr (commandWord op addr data) = addr := by
  unfold cmdAddr commandWord
  rw [extract_append_high _ _ _ _ (by omega), extract_append_low _ _ _ _ (by omega)]; exact extract_all addr

@[simp] theorem cmdData_commandWord : cmdData (commandWord op addr data) = data := by
  unfold cmdData commandWord
  rw [extract_append_low _ _ _ _ (by omega)]; exact extract_all data

end

section
variable (fn : BitVec 2) (k : BitVec 4) (s : BitVec 5) (T : Word)

@[simp] theorem rowFn_rowWord : rowFn (rowWord fn k s T) = fn := by
  unfold rowFn rowWord
  rw [extract_append_high _ _ _ _ (by omega), extract_append_high _ _ _ _ (by omega),
    extract_append_high _ _ _ _ (by omega)]
  exact extract_all fn

@[simp] theorem rowK_rowWord : rowK (rowWord fn k s T) = k := by
  unfold rowK rowWord
  rw [extract_append_high _ _ _ _ (by omega), extract_append_high _ _ _ _ (by omega),
    extract_append_low _ _ _ _ (by omega)]
  exact extract_all k

@[simp] theorem rowS_rowWord : rowS (rowWord fn k s T) = s := by
  unfold rowS rowWord
  rw [extract_append_high _ _ _ _ (by omega), extract_append_low _ _ _ _ (by omega)]
  exact extract_all s

@[simp] theorem rowT_rowWord : rowT (rowWord fn k s T) = T := by
  unfold rowT rowWord
  rw [extract_append_low _ _ _ _ (by omega)]
  exact extract_all T

end

/-! ## Operands put into a wider field and taken out again -/

@[simp] theorem dataByte_setWidth (v : Byte) : dataByte (v.setWidth 32) = v := by
  unfold dataByte; ext i hi; simp [hi]; intro _; omega

@[simp] theorem addrLow_setWidth (k : BitVec 4) : addrLow (k.setWidth 6) = k := by
  unfold addrLow; ext i hi; simp [hi]; intro _; omega

@[simp] theorem addrHigh_setWidth (k : BitVec 4) : addrHigh (k.setWidth 6) = 0 := by
  revert k; decide

/-! ## The decoder by opcode (30_encoding.md R72) -/

section
variable (w : CmdWord)

theorem decode_op0 (h : cmdOp w = 0) : decodeCommand w = .ok .rds := by
  unfold decodeCommand; rw [h]; rfl

theorem decode_op1 (h : cmdOp w = 1) : decodeCommand w = .ok .init := by
  unfold decodeCommand; rw [h]; rfl

theorem decode_op2 (h : cmdOp w = 2) : decodeCommand w = .ok (.wrb (cmdAddr w) (dataByte (cmdData w))) := by
  unfold decodeCommand; rw [h]; rfl

theorem decode_op3 (h : cmdOp w = 3) : decodeCommand w =
    if addrHigh (cmdAddr w) = 0 then .ok (.wrw (addrLow (cmdAddr w)) (cmdData w)) else .error .wrwHighAddress := by
  unfold decodeCommand; rw [h]; rfl

theorem decode_op4 (h : cmdOp w = 4) : decodeCommand w = .ok .go := by
  unfold decodeCommand; rw [h]; rfl

theorem decode_op5 (h : cmdOp w = 5) : decodeCommand w =
    if addrHigh (cmdAddr w) = 0 then .ok (.rdb (addrLow (cmdAddr w))) else .error .rdbHighAddress := by
  unfold decodeCommand; rw [h]; rfl

theorem decode_op6 (h : cmdOp w = 6) : decodeCommand w = .error .reservedOp := by
  unfold decodeCommand; rw [h]; rfl

theorem decode_op7 (h : cmdOp w = 7) : decodeCommand w = .error .reservedOp := by
  unfold decodeCommand; rw [h]; rfl

/-- The opcode map is complete: every value of `op` is one of the eight. -/
theorem op_cases (op : BitVec 3) :
    op = 0 ∨ op = 1 ∨ op = 2 ∨ op = 3 ∨ op = 4 ∨ op = 5 ∨ op = 6 ∨ op = 7 := by
  revert op; decide

end

/-- Two words are the same when their fields are. -/
theorem commandWord_eta (w : CmdWord) : commandWord (cmdOp w) (cmdAddr w) (cmdData w) = w := by
  unfold commandWord cmdOp cmdAddr cmdData
  ext i hi
  simp only [BitVec.getElem_append, BitVec.getElem_extractLsb']
  split
  · rw [← BitVec.getLsbD_eq_getElem]; congr 1; omega
  · split
    · rw [← BitVec.getLsbD_eq_getElem]; congr 1; omega
    · rw [← BitVec.getLsbD_eq_getElem]; congr 1; omega

theorem rowWord_eta (r : RowWord) : rowWord (rowFn r) (rowK r) (rowS r) (rowT r) = r := by
  unfold rowWord rowFn rowK rowS rowT
  ext i hi
  simp only [BitVec.getElem_append, BitVec.getElem_extractLsb']
  split
  · rw [← BitVec.getLsbD_eq_getElem]; congr 1; omega
  · split
    · rw [← BitVec.getLsbD_eq_getElem]; congr 1; omega
    · split
      · rw [← BitVec.getLsbD_eq_getElem]; congr 1; omega
      · rw [← BitVec.getLsbD_eq_getElem]; congr 1; omega

/-! ## Masks act field by field (30_encoding.md R73, R76) -/

theorem commandWord_and (op op' : BitVec 3) (addr addr' : BitVec 6) (data data' : Word) :
    commandWord op addr data &&& commandWord op' addr' data' =
      commandWord (op &&& op') (addr &&& addr') (data &&& data') := by
  unfold commandWord; rw [BitVec.and_append, BitVec.and_append]

theorem rowWord_and (fn fn' : BitVec 2) (k k' : BitVec 4) (s s' : BitVec 5) (T T' : Word) :
    rowWord fn k s T &&& rowWord fn' k' s' T' = rowWord (fn &&& fn') (k &&& k') (s &&& s') (T &&& T') := by
  unfold rowWord; rw [BitVec.and_append, BitVec.and_append, BitVec.and_append]

theorem commandWord_inj {op op' : BitVec 3} {addr addr' : BitVec 6} {data data' : Word} :
    commandWord op addr data = commandWord op' addr' data' ↔ op = op' ∧ addr = addr' ∧ data = data' := by
  refine ⟨fun h => ⟨?_, ?_, ?_⟩, fun ⟨h1, h2, h3⟩ => by rw [h1, h2, h3]⟩
  · simpa using congrArg cmdOp h
  · simpa using congrArg cmdAddr h
  · simpa using congrArg cmdData h

theorem rowWord_inj {fn fn' : BitVec 2} {k k' : BitVec 4} {s s' : BitVec 5} {T T' : Word} :
    rowWord fn k s T = rowWord fn' k' s' T' ↔ fn = fn' ∧ k = k' ∧ s = s' ∧ T = T' := by
  refine ⟨fun h => ⟨?_, ?_, ?_, ?_⟩, fun ⟨h1, h2, h3, h4⟩ => by rw [h1, h2, h3, h4]⟩
  · simpa using congrArg rowFn h
  · simpa using congrArg rowK h
  · simpa using congrArg rowS h
  · simpa using congrArg rowT h

/-- A mask over `op` alone tests `op`. -/
theorem op_mask (w : CmdWord) (c : BitVec 3) :
    w &&& commandWord 7 0 0 = commandWord c 0 0 ↔ cmdOp w = c := by
  conv_lhs => rw [← commandWord_eta w]
  rw [commandWord_and, commandWord_inj]
  rw [show cmdOp w &&& 7 = cmdOp w by generalize cmdOp w = o; revert o; decide]
  simp

/-- A mask over `op` and `addr[5:4]` tests both. -/
theorem op_addrHigh_mask (w : CmdWord) (c : BitVec 3) :
    w &&& commandWord 7 0x30 0 = commandWord c 0 0 ↔ cmdOp w = c ∧ addrHigh (cmdAddr w) = 0 := by
  conv_lhs => rw [← commandWord_eta w]
  rw [commandWord_and, commandWord_inj]
  rw [show cmdOp w &&& 7 = cmdOp w by generalize cmdOp w = o; revert o; decide,
    show (cmdAddr w &&& 0x30 = 0) ↔ addrHigh (cmdAddr w) = 0 by generalize cmdAddr w = a; revert a; decide]
  simp

/-- A mask over `fn` tests `fn`. -/
theorem fn_mask (r : RowWord) (c : BitVec 2) : r &&& rowWord 3 0 0 0 = rowWord c 0 0 0 ↔ rowFn r = c := by
  conv_lhs => rw [← rowWord_eta r]
  rw [rowWord_and, rowWord_inj]
  rw [show rowFn r &&& 3 = rowFn r by generalize rowFn r = o; revert o; decide]
  simp

theorem fn_cases (fn : BitVec 2) : fn = 0 ∨ fn = 1 ∨ fn = 2 ∨ fn = 3 := by revert fn; decide

/-! ## The row decoder by round function (30_encoding.md R76) -/

theorem decodeRow_rowWord0 (k : BitVec 4) (s : BitVec 5) (T : Word) : decodeRow (rowWord 0 k s T) = .stepF k s T := by
  unfold decodeRow; simp

theorem decodeRow_rowWord1 (k : BitVec 4) (s : BitVec 5) (T : Word) : decodeRow (rowWord 1 k s T) = .stepG k s T := by
  unfold decodeRow; simp

theorem decodeRow_rowWord2 (k : BitVec 4) (s : BitVec 5) (T : Word) : decodeRow (rowWord 2 k s T) = .stepH k s T := by
  unfold decodeRow; simp

theorem decodeRow_rowWord3 (k : BitVec 4) (s : BitVec 5) (T : Word) : decodeRow (rowWord 3 k s T) = .stepI k s T := by
  unfold decodeRow; simp

end Sys2Proof
end

