-- ==== Sys2Proof/Laws/State.lean ====
section
/-! SUPPORT. What each update of the state does to each field, so that no later proof unfolds an update. -/

namespace Sys2Proof.Machine

variable (s : State)

/-! ### setRegs -/

@[simp] theorem setRegs_A (q : Quad) : (s.setRegs q).A = q.S0 := rfl
@[simp] theorem setRegs_B (q : Quad) : (s.setRegs q).B = q.S1 := rfl
@[simp] theorem setRegs_C (q : Quad) : (s.setRegs q).C = q.S2 := rfl
@[simp] theorem setRegs_D (q : Quad) : (s.setRegs q).D = q.S3 := rfl
@[simp] theorem setRegs_a (q : Quad) : (s.setRegs q).a = s.a := rfl
@[simp] theorem setRegs_b (q : Quad) : (s.setRegs q).b = s.b := rfl
@[simp] theorem setRegs_c (q : Quad) : (s.setRegs q).c = s.c := rfl
@[simp] theorem setRegs_d (q : Quad) : (s.setRegs q).d = s.d := rfl
@[simp] theorem setRegs_STEP (q : Quad) : (s.setRegs q).STEP = s.STEP := rfl
@[simp] theorem setRegs_PH (q : Quad) : (s.setRegs q).PH = s.PH := rfl
@[simp] theorem setRegs_MB (q : Quad) : (s.setRegs q).MB = s.MB := rfl
@[simp] theorem setRegs_SCHED (q : Quad) : (s.setRegs q).SCHED = s.SCHED := rfl
@[simp] theorem setRegs_cmd (q : Quad) : (s.setRegs q).cmd = s.cmd := rfl
@[simp] theorem setRegs_rsp (q : Quad) : (s.setRegs q).rsp = s.rsp := rfl
@[simp] theorem setRegs_events (q : Quad) : (s.setRegs q).events = s.events := rfl
@[simp] theorem setRegs_draw (q : Quad) : (s.setRegs q).draw = s.draw := rfl

/-! ### setAccs -/

@[simp] theorem setAccs_A (q : Quad) : (s.setAccs q).A = s.A := rfl
@[simp] theorem setAccs_B (q : Quad) : (s.setAccs q).B = s.B := rfl
@[simp] theorem setAccs_C (q : Quad) : (s.setAccs q).C = s.C := rfl
@[simp] theorem setAccs_D (q : Quad) : (s.setAccs q).D = s.D := rfl
@[simp] theorem setAccs_a (q : Quad) : (s.setAccs q).a = q.S0 := rfl
@[simp] theorem setAccs_b (q : Quad) : (s.setAccs q).b = q.S1 := rfl
@[simp] theorem setAccs_c (q : Quad) : (s.setAccs q).c = q.S2 := rfl
@[simp] theorem setAccs_d (q : Quad) : (s.setAccs q).d = q.S3 := rfl
@[simp] theorem setAccs_STEP (q : Quad) : (s.setAccs q).STEP = s.STEP := rfl
@[simp] theorem setAccs_PH (q : Quad) : (s.setAccs q).PH = s.PH := rfl
@[simp] theorem setAccs_MB (q : Quad) : (s.setAccs q).MB = s.MB := rfl
@[simp] theorem setAccs_SCHED (q : Quad) : (s.setAccs q).SCHED = s.SCHED := rfl
@[simp] theorem setAccs_cmd (q : Quad) : (s.setAccs q).cmd = s.cmd := rfl
@[simp] theorem setAccs_rsp (q : Quad) : (s.setAccs q).rsp = s.rsp := rfl
@[simp] theorem setAccs_events (q : Quad) : (s.setAccs q).events = s.events := rfl
@[simp] theorem setAccs_draw (q : Quad) : (s.setAccs q).draw = s.draw := rfl

/-! ### setSeq -/

@[simp] theorem setSeq_A (ph : Phase) (n : BitVec 6) : (s.setSeq ph n).A = s.A := rfl
@[simp] theorem setSeq_B (ph : Phase) (n : BitVec 6) : (s.setSeq ph n).B = s.B := rfl
@[simp] theorem setSeq_C (ph : Phase) (n : BitVec 6) : (s.setSeq ph n).C = s.C := rfl
@[simp] theorem setSeq_D (ph : Phase) (n : BitVec 6) : (s.setSeq ph n).D = s.D := rfl
@[simp] theorem setSeq_a (ph : Phase) (n : BitVec 6) : (s.setSeq ph n).a = s.a := rfl
@[simp] theorem setSeq_b (ph : Phase) (n : BitVec 6) : (s.setSeq ph n).b = s.b := rfl
@[simp] theorem setSeq_c (ph : Phase) (n : BitVec 6) : (s.setSeq ph n).c = s.c := rfl
@[simp] theorem setSeq_d (ph : Phase) (n : BitVec 6) : (s.setSeq ph n).d = s.d := rfl
@[simp] theorem setSeq_STEP (ph : Phase) (n : BitVec 6) : (s.setSeq ph n).STEP = n := rfl
@[simp] theorem setSeq_PH (ph : Phase) (n : BitVec 6) : (s.setSeq ph n).PH = ph := rfl
@[simp] theorem setSeq_MB (ph : Phase) (n : BitVec 6) : (s.setSeq ph n).MB = s.MB := rfl
@[simp] theorem setSeq_SCHED (ph : Phase) (n : BitVec 6) : (s.setSeq ph n).SCHED = s.SCHED := rfl
@[simp] theorem setSeq_cmd (ph : Phase) (n : BitVec 6) : (s.setSeq ph n).cmd = s.cmd := rfl
@[simp] theorem setSeq_rsp (ph : Phase) (n : BitVec 6) : (s.setSeq ph n).rsp = s.rsp := rfl
@[simp] theorem setSeq_events (ph : Phase) (n : BitVec 6) : (s.setSeq ph n).events = s.events := rfl
@[simp] theorem setSeq_draw (ph : Phase) (n : BitVec 6) : (s.setSeq ph n).draw = s.draw := rfl

/-! ### memWrite1 -/

@[simp] theorem memWrite1_A (p : Nat) (v : Byte) : (s.memWrite1 p v).A = s.A := rfl
@[simp] theorem memWrite1_B (p : Nat) (v : Byte) : (s.memWrite1 p v).B = s.B := rfl
@[simp] theorem memWrite1_C (p : Nat) (v : Byte) : (s.memWrite1 p v).C = s.C := rfl
@[simp] theorem memWrite1_D (p : Nat) (v : Byte) : (s.memWrite1 p v).D = s.D := rfl
@[simp] theorem memWrite1_a (p : Nat) (v : Byte) : (s.memWrite1 p v).a = s.a := rfl
@[simp] theorem memWrite1_b (p : Nat) (v : Byte) : (s.memWrite1 p v).b = s.b := rfl
@[simp] theorem memWrite1_c (p : Nat) (v : Byte) : (s.memWrite1 p v).c = s.c := rfl
@[simp] theorem memWrite1_d (p : Nat) (v : Byte) : (s.memWrite1 p v).d = s.d := rfl
@[simp] theorem memWrite1_STEP (p : Nat) (v : Byte) : (s.memWrite1 p v).STEP = s.STEP := rfl
@[simp] theorem memWrite1_PH (p : Nat) (v : Byte) : (s.memWrite1 p v).PH = s.PH := rfl
@[simp] theorem memWrite1_MB (p : Nat) (v : Byte) : (s.memWrite1 p v).MB = s.MB.write p v := rfl
@[simp] theorem memWrite1_SCHED (p : Nat) (v : Byte) : (s.memWrite1 p v).SCHED = s.SCHED := rfl
@[simp] theorem memWrite1_cmd (p : Nat) (v : Byte) : (s.memWrite1 p v).cmd = s.cmd := rfl
@[simp] theorem memWrite1_rsp (p : Nat) (v : Byte) : (s.memWrite1 p v).rsp = s.rsp := rfl
@[simp] theorem memWrite1_events (p : Nat) (v : Byte) : (s.memWrite1 p v).events = s.events := rfl
@[simp] theorem memWrite1_draw (p : Nat) (v : Byte) : (s.memWrite1 p v).draw = s.draw := rfl

/-! ### respond -/

@[simp] theorem respond_A (e : BitVec 1) (r : Word) : (s.respond e r).A = s.A := rfl
@[simp] theorem respond_B (e : BitVec 1) (r : Word) : (s.respond e r).B = s.B := rfl
@[simp] theorem respond_C (e : BitVec 1) (r : Word) : (s.respond e r).C = s.C := rfl
@[simp] theorem respond_D (e : BitVec 1) (r : Word) : (s.respond e r).D = s.D := rfl
@[simp] theorem respond_a (e : BitVec 1) (r : Word) : (s.respond e r).a = s.a := rfl
@[simp] theorem respond_b (e : BitVec 1) (r : Word) : (s.respond e r).b = s.b := rfl
@[simp] theorem respond_c (e : BitVec 1) (r : Word) : (s.respond e r).c = s.c := rfl
@[simp] theorem respond_d (e : BitVec 1) (r : Word) : (s.respond e r).d = s.d := rfl
@[simp] theorem respond_STEP (e : BitVec 1) (r : Word) : (s.respond e r).STEP = s.STEP := rfl
@[simp] theorem respond_PH (e : BitVec 1) (r : Word) : (s.respond e r).PH = s.PH := rfl
@[simp] theorem respond_MB (e : BitVec 1) (r : Word) : (s.respond e r).MB = s.MB := rfl
@[simp] theorem respond_SCHED (e : BitVec 1) (r : Word) : (s.respond e r).SCHED = s.SCHED := rfl
@[simp] theorem respond_cmd (e : BitVec 1) (r : Word) : (s.respond e r).cmd = none := rfl
@[simp] theorem respond_rsp (e : BitVec 1) (r : Word) : (s.respond e r).rsp = some (rspWord e r) := rfl
@[simp] theorem respond_events (e : BitVec 1) (r : Word) : (s.respond e r).events = s.events := rfl
@[simp] theorem respond_draw (e : BitVec 1) (r : Word) : (s.respond e r).draw = s.draw := rfl

/-! ### place -/

@[simp] theorem place_A (w : CmdWord) : (s.place w).A = s.A := rfl
@[simp] theorem place_B (w : CmdWord) : (s.place w).B = s.B := rfl
@[simp] theorem place_C (w : CmdWord) : (s.place w).C = s.C := rfl
@[simp] theorem place_D (w : CmdWord) : (s.place w).D = s.D := rfl
@[simp] theorem place_a (w : CmdWord) : (s.place w).a = s.a := rfl
@[simp] theorem place_b (w : CmdWord) : (s.place w).b = s.b := rfl
@[simp] theorem place_c (w : CmdWord) : (s.place w).c = s.c := rfl
@[simp] theorem place_d (w : CmdWord) : (s.place w).d = s.d := rfl
@[simp] theorem place_STEP (w : CmdWord) : (s.place w).STEP = s.STEP := rfl
@[simp] theorem place_PH (w : CmdWord) : (s.place w).PH = s.PH := rfl
@[simp] theorem place_MB (w : CmdWord) : (s.place w).MB = s.MB := rfl
@[simp] theorem place_SCHED (w : CmdWord) : (s.place w).SCHED = s.SCHED := rfl
@[simp] theorem place_cmd (w : CmdWord) : (s.place w).cmd = some w := rfl
@[simp] theorem place_rsp (w : CmdWord) : (s.place w).rsp = none := rfl
@[simp] theorem place_events (w : CmdWord) : (s.place w).events = s.events := rfl
@[simp] theorem place_draw (w : CmdWord) : (s.place w).draw = s.draw := rfl

/-! ### setEvents -/

@[simp] theorem setEvents_A (es : List Event) : (s.setEvents es).A = s.A := rfl
@[simp] theorem setEvents_B (es : List Event) : (s.setEvents es).B = s.B := rfl
@[simp] theorem setEvents_C (es : List Event) : (s.setEvents es).C = s.C := rfl
@[simp] theorem setEvents_D (es : List Event) : (s.setEvents es).D = s.D := rfl
@[simp] theorem setEvents_a (es : List Event) : (s.setEvents es).a = s.a := rfl
@[simp] theorem setEvents_b (es : List Event) : (s.setEvents es).b = s.b := rfl
@[simp] theorem setEvents_c (es : List Event) : (s.setEvents es).c = s.c := rfl
@[simp] theorem setEvents_d (es : List Event) : (s.setEvents es).d = s.d := rfl
@[simp] theorem setEvents_STEP (es : List Event) : (s.setEvents es).STEP = s.STEP := rfl
@[simp] theorem setEvents_PH (es : List Event) : (s.setEvents es).PH = s.PH := rfl
@[simp] theorem setEvents_MB (es : List Event) : (s.setEvents es).MB = s.MB := rfl
@[simp] theorem setEvents_SCHED (es : List Event) : (s.setEvents es).SCHED = s.SCHED := rfl
@[simp] theorem setEvents_cmd (es : List Event) : (s.setEvents es).cmd = s.cmd := rfl
@[simp] theorem setEvents_rsp (es : List Event) : (s.setEvents es).rsp = s.rsp := rfl
@[simp] theorem setEvents_events (es : List Event) : (s.setEvents es).events = es := rfl
@[simp] theorem setEvents_draw (es : List Event) : (s.setEvents es).draw = s.draw := rfl

/-! ### resetNow -/

@[simp] theorem resetNow_A : s.resetNow.A = IV.S0 := rfl
@[simp] theorem resetNow_B : s.resetNow.B = IV.S1 := rfl
@[simp] theorem resetNow_C : s.resetNow.C = IV.S2 := rfl
@[simp] theorem resetNow_D : s.resetNow.D = IV.S3 := rfl
@[simp] theorem resetNow_a : s.resetNow.a = 0 := rfl
@[simp] theorem resetNow_b : s.resetNow.b = 0 := rfl
@[simp] theorem resetNow_c : s.resetNow.c = 0 := rfl
@[simp] theorem resetNow_d : s.resetNow.d = 0 := rfl
@[simp] theorem resetNow_STEP : s.resetNow.STEP = 0 := rfl
@[simp] theorem resetNow_PH : s.resetNow.PH = .idle := rfl
@[simp] theorem resetNow_MB : s.resetNow.MB = [] := rfl
@[simp] theorem resetNow_SCHED : s.resetNow.SCHED = s.SCHED := rfl
@[simp] theorem resetNow_cmd : s.resetNow.cmd = none := rfl
@[simp] theorem resetNow_rsp : s.resetNow.rsp = none := rfl
@[simp] theorem resetNow_events : s.resetNow.events = s.events := rfl
@[simp] theorem resetNow_draw : s.resetNow.draw = s.draw + 1 := rfl

/-! ### advance, memWrite4 -/

@[simp] theorem advance_A : s.advance.A = s.A := by unfold State.advance; split <;> rfl
@[simp] theorem advance_B : s.advance.B = s.B := by unfold State.advance; split <;> rfl
@[simp] theorem advance_C : s.advance.C = s.C := by unfold State.advance; split <;> rfl
@[simp] theorem advance_D : s.advance.D = s.D := by unfold State.advance; split <;> rfl
@[simp] theorem advance_a : s.advance.a = s.a := by unfold State.advance; split <;> rfl
@[simp] theorem advance_b : s.advance.b = s.b := by unfold State.advance; split <;> rfl
@[simp] theorem advance_c : s.advance.c = s.c := by unfold State.advance; split <;> rfl
@[simp] theorem advance_d : s.advance.d = s.d := by unfold State.advance; split <;> rfl
@[simp] theorem advance_MB : s.advance.MB = s.MB := by unfold State.advance; split <;> rfl
@[simp] theorem advance_SCHED : s.advance.SCHED = s.SCHED := by unfold State.advance; split <;> rfl
@[simp] theorem advance_cmd : s.advance.cmd = s.cmd := by unfold State.advance; split <;> rfl
@[simp] theorem advance_rsp : s.advance.rsp = s.rsp := by unfold State.advance; split <;> rfl
@[simp] theorem advance_events : s.advance.events = s.events := by unfold State.advance; split <;> rfl
@[simp] theorem advance_draw : s.advance.draw = s.draw := by unfold State.advance; split <;> rfl

@[simp] theorem advance_STEP : s.advance.STEP = if s.STEP = 63 then 0 else s.STEP + 1 := by
  unfold State.advance; split <;> rfl
@[simp] theorem advance_PH : s.advance.PH = if s.STEP = 63 then .fold else s.PH := by
  unfold State.advance; split <;> rfl

@[simp] theorem memWrite4_A (p : Nat) (w : Word) : (s.memWrite4 p w).A = s.A := rfl
@[simp] theorem memWrite4_B (p : Nat) (w : Word) : (s.memWrite4 p w).B = s.B := rfl
@[simp] theorem memWrite4_C (p : Nat) (w : Word) : (s.memWrite4 p w).C = s.C := rfl
@[simp] theorem memWrite4_D (p : Nat) (w : Word) : (s.memWrite4 p w).D = s.D := rfl
@[simp] theorem memWrite4_a (p : Nat) (w : Word) : (s.memWrite4 p w).a = s.a := rfl
@[simp] theorem memWrite4_b (p : Nat) (w : Word) : (s.memWrite4 p w).b = s.b := rfl
@[simp] theorem memWrite4_c (p : Nat) (w : Word) : (s.memWrite4 p w).c = s.c := rfl
@[simp] theorem memWrite4_d (p : Nat) (w : Word) : (s.memWrite4 p w).d = s.d := rfl
@[simp] theorem memWrite4_STEP (p : Nat) (w : Word) : (s.memWrite4 p w).STEP = s.STEP := rfl
@[simp] theorem memWrite4_PH (p : Nat) (w : Word) : (s.memWrite4 p w).PH = s.PH := rfl
@[simp] theorem memWrite4_SCHED (p : Nat) (w : Word) : (s.memWrite4 p w).SCHED = s.SCHED := rfl
@[simp] theorem memWrite4_cmd (p : Nat) (w : Word) : (s.memWrite4 p w).cmd = s.cmd := rfl
@[simp] theorem memWrite4_rsp (p : Nat) (w : Word) : (s.memWrite4 p w).rsp = s.rsp := rfl
@[simp] theorem memWrite4_events (p : Nat) (w : Word) : (s.memWrite4 p w).events = s.events := rfl
@[simp] theorem memWrite4_draw (p : Nat) (w : Word) : (s.memWrite4 p w).draw = s.draw := rfl

/-! ### the pairs of registers -/

@[simp] theorem regs_setRegs (q : Quad) : (s.setRegs q).regs = q := rfl
@[simp] theorem accs_setAccs (q : Quad) : (s.setAccs q).accs = q := rfl
@[simp] theorem regs_resetNow : s.resetNow.regs = IV := rfl
@[simp] theorem regs_setAccs (q : Quad) : (s.setAccs q).regs = s.regs := rfl
@[simp] theorem regs_setSeq (ph : Phase) (n : BitVec 6) : (s.setSeq ph n).regs = s.regs := rfl
@[simp] theorem regs_memWrite1 (p : Nat) (v : Byte) : (s.memWrite1 p v).regs = s.regs := rfl
@[simp] theorem regs_respond (e : BitVec 1) (r : Word) : (s.respond e r).regs = s.regs := rfl
@[simp] theorem regs_place (w : CmdWord) : (s.place w).regs = s.regs := rfl
@[simp] theorem regs_setEvents (es : List Event) : (s.setEvents es).regs = s.regs := rfl
@[simp] theorem accs_setRegs (q : Quad) : (s.setRegs q).accs = s.accs := rfl
@[simp] theorem accs_setSeq (ph : Phase) (n : BitVec 6) : (s.setSeq ph n).accs = s.accs := rfl
@[simp] theorem accs_memWrite1 (p : Nat) (v : Byte) : (s.memWrite1 p v).accs = s.accs := rfl
@[simp] theorem accs_respond (e : BitVec 1) (r : Word) : (s.respond e r).accs = s.accs := rfl
@[simp] theorem accs_place (w : CmdWord) : (s.place w).accs = s.accs := rfl
@[simp] theorem accs_setEvents (es : List Event) : (s.setEvents es).accs = s.accs := rfl
@[simp] theorem regs_advance : s.advance.regs = s.regs := by simp [State.regs]
@[simp] theorem accs_advance : s.advance.accs = s.accs := by simp [State.accs]
@[simp] theorem regs_memWrite4 (p : Nat) (w : Word) : (s.memWrite4 p w).regs = s.regs := rfl
@[simp] theorem accs_memWrite4 (p : Nat) (w : Word) : (s.memWrite4 p w).accs = s.accs := rfl

/-! ### the reads of the buffer, which depend on `MB` and `draw` alone -/

theorem memByte_congr {s t : State} (hm : s.MB = t.MB) (hd : s.draw = t.draw) : s.memByte = t.memByte := by
  funext p; simp [State.memByte, hm, hd]

theorem X_congr {s t : State} (hm : s.MB = t.MB) (hd : s.draw = t.draw) : s.X = t.X := by
  funext k; simp [State.X, State.memRead4, memByte_congr hm hd]

@[simp] theorem memByte_setRegs (q : Quad) : (s.setRegs q).memByte = s.memByte := rfl
@[simp] theorem X_setRegs (q : Quad) : (s.setRegs q).X = s.X := rfl
@[simp] theorem fetchRow_setRegs (q : Quad) : (s.setRegs q).fetchRow = s.fetchRow := rfl
@[simp] theorem memByte_setAccs (q : Quad) : (s.setAccs q).memByte = s.memByte := rfl
@[simp] theorem X_setAccs (q : Quad) : (s.setAccs q).X = s.X := rfl
@[simp] theorem fetchRow_setAccs (q : Quad) : (s.setAccs q).fetchRow = s.fetchRow := rfl
@[simp] theorem memByte_setSeq (ph : Phase) (n : BitVec 6) : (s.setSeq ph n).memByte = s.memByte := rfl
@[simp] theorem X_setSeq (ph : Phase) (n : BitVec 6) : (s.setSeq ph n).X = s.X := rfl
@[simp] theorem memByte_respond (e : BitVec 1) (r : Word) : (s.respond e r).memByte = s.memByte := rfl
@[simp] theorem X_respond (e : BitVec 1) (r : Word) : (s.respond e r).X = s.X := rfl
@[simp] theorem fetchRow_respond (e : BitVec 1) (r : Word) : (s.respond e r).fetchRow = s.fetchRow := rfl
@[simp] theorem memByte_place (w : CmdWord) : (s.place w).memByte = s.memByte := rfl
@[simp] theorem X_place (w : CmdWord) : (s.place w).X = s.X := rfl
@[simp] theorem fetchRow_place (w : CmdWord) : (s.place w).fetchRow = s.fetchRow := rfl
@[simp] theorem memByte_setEvents (es : List Event) : (s.setEvents es).memByte = s.memByte := rfl
@[simp] theorem X_setEvents (es : List Event) : (s.setEvents es).X = s.X := rfl
@[simp] theorem fetchRow_setEvents (es : List Event) : (s.setEvents es).fetchRow = s.fetchRow := rfl
@[simp] theorem memByte_advance : s.advance.memByte = s.memByte := memByte_congr (by simp) (by simp)
@[simp] theorem X_advance : s.advance.X = s.X := X_congr (by simp) (by simp)

/-- 10_state.md R26 as one update. -/
theorem advance_eq : s.advance =
    { s with PH := if s.STEP = 63 then .fold else s.PH, STEP := if s.STEP = 63 then 0 else s.STEP + 1 } := by
  unfold State.advance State.setSeq; split <;> simp_all

/-! ### fold -/

@[simp] theorem fold_A : s.fold.A = ADD32 s.A s.a := rfl
@[simp] theorem fold_B : s.fold.B = ADD32 s.B s.b := rfl
@[simp] theorem fold_C : s.fold.C = ADD32 s.C s.c := rfl
@[simp] theorem fold_D : s.fold.D = ADD32 s.D s.d := rfl
@[simp] theorem fold_a : s.fold.a = s.a := rfl
@[simp] theorem fold_b : s.fold.b = s.b := rfl
@[simp] theorem fold_c : s.fold.c = s.c := rfl
@[simp] theorem fold_d : s.fold.d = s.d := rfl
@[simp] theorem fold_STEP : s.fold.STEP = s.STEP := rfl
@[simp] theorem fold_PH : s.fold.PH = .idle := rfl
@[simp] theorem fold_MB : s.fold.MB = s.MB := rfl
@[simp] theorem fold_SCHED : s.fold.SCHED = s.SCHED := rfl
@[simp] theorem fold_cmd : s.fold.cmd = s.cmd := rfl
@[simp] theorem fold_rsp : s.fold.rsp = s.rsp := rfl
@[simp] theorem fold_events : s.fold.events = s.events := rfl
@[simp] theorem fold_draw : s.fold.draw = s.draw := rfl

/-! ### transform -/

section
variable (fn : BitVec 2) (k : BitVec 4) (n : BitVec 5) (T : Word)

/-- 42_transform_step.md R120 as one update, with the data path of one step still folded. -/
theorem transform_eq : s.transform fn k n T =
    { s with a := s.d, b := (stepQuad fn (s.X k) n T s.accs).S1, c := s.b, d := s.c,
             PH := if s.STEP = 63 then .fold else s.PH, STEP := if s.STEP = 63 then 0 else s.STEP + 1 } := by
  unfold State.transform; rw [advance_eq]; rfl

@[simp] theorem transform_A : (s.transform fn k n T).A = s.A := by rw [transform_eq]
@[simp] theorem transform_B : (s.transform fn k n T).B = s.B := by rw [transform_eq]
@[simp] theorem transform_C : (s.transform fn k n T).C = s.C := by rw [transform_eq]
@[simp] theorem transform_D : (s.transform fn k n T).D = s.D := by rw [transform_eq]
@[simp] theorem transform_a : (s.transform fn k n T).a = s.d := by rw [transform_eq]
@[simp] theorem transform_b : (s.transform fn k n T).b = (stepQuad fn (s.X k) n T s.accs).S1 := by rw [transform_eq]
@[simp] theorem transform_c : (s.transform fn k n T).c = s.b := by rw [transform_eq]
@[simp] theorem transform_d : (s.transform fn k n T).d = s.c := by rw [transform_eq]
@[simp] theorem transform_STEP : (s.transform fn k n T).STEP = if s.STEP = 63 then 0 else s.STEP + 1 := by rw [transform_eq]
@[simp] theorem transform_PH : (s.transform fn k n T).PH = if s.STEP = 63 then .fold else s.PH := by rw [transform_eq]
@[simp] theorem transform_MB : (s.transform fn k n T).MB = s.MB := by rw [transform_eq]
@[simp] theorem transform_SCHED : (s.transform fn k n T).SCHED = s.SCHED := by rw [transform_eq]
@[simp] theorem transform_cmd : (s.transform fn k n T).cmd = s.cmd := by rw [transform_eq]
@[simp] theorem transform_rsp : (s.transform fn k n T).rsp = s.rsp := by rw [transform_eq]
@[simp] theorem transform_events : (s.transform fn k n T).events = s.events := by rw [transform_eq]
@[simp] theorem transform_draw : (s.transform fn k n T).draw = s.draw := by rw [transform_eq]

@[simp] theorem transform_regs : (s.transform fn k n T).regs = s.regs := by rw [transform_eq]; rfl
@[simp] theorem transform_accs : (s.transform fn k n T).accs = stepQuad fn (s.X k) n T s.accs := by
  rw [transform_eq]; rfl
@[simp] theorem transform_X : (s.transform fn k n T).X = s.X := X_congr (by simp) (by simp)

end

/-- 42_transform_step.md R120 on the sequencer, at the last row and before it. -/
theorem transform_last (h : s.STEP = 63) (fn : BitVec 2) (k : BitVec 4) (n : BitVec 5) (T : Word) :
    (s.transform fn k n T).PH = .fold ∧ (s.transform fn k n T).STEP = 0 := by
  rw [transform_PH, transform_STEP, if_pos h, if_pos h]; exact ⟨rfl, rfl⟩

theorem transform_before_last (h : s.STEP ≠ 63) (fn : BitVec 2) (k : BitVec 4) (n : BitVec 5) (T : Word) :
    (s.transform fn k n T).PH = s.PH ∧ (s.transform fn k n T).STEP = s.STEP + 1 := by
  rw [transform_PH, transform_STEP, if_neg h, if_neg h]; exact ⟨rfl, rfl⟩

/-- 10_state.md R26: below 63 the counter counts up. -/
theorem toNat_succ_of_ne {n : BitVec 6} (h : n ≠ 63) : (n + 1).toNat = n.toNat + 1 := by revert h; revert n; decide

/-! ### the answer on the port -/

theorem respond_memWrite1 (e : BitVec 1) (r : Word) (p : Nat) (v : Byte) :
    (s.respond e r).memWrite1 p v = (s.memWrite1 p v).respond e r := rfl

theorem respond_respond (e e' : BitVec 1) (r r' : Word) : (s.respond e r).respond e' r' = s.respond e' r' := rfl

theorem memWrite4_eq (p : Nat) (w : Word) : s.memWrite4 p w =
    (((s.memWrite1 p (w.extractLsb' 0 8)).memWrite1 (p + 1) (w.extractLsb' 8 8)).memWrite1 (p + 2)
      (w.extractLsb' 16 8)).memWrite1 (p + 3) (w.extractLsb' 24 8) := rfl

/-- 30_encoding.md R74: `RSP = err * 2^32 + rdata`. -/
theorem toNat_rspWord (e : BitVec 1) (r : Word) : (rspWord e r).toNat = e.toNat * 2 ^ 32 + r.toNat := by
  unfold rspWord
  rw [BitVec.toNat_append, ← Nat.shiftLeft_add_eq_or_of_lt r.isLt, Nat.shiftLeft_eq]

/-! ### BUSY and STATUS -/

theorem BUSY_eq : s.BUSY = if s.PH = .idle then 0 else 1 := by
  unfold State.BUSY; cases s.PH <;> rfl

theorem STATUS_eq : s.STATUS = if s.PH = .idle then 0 else 1 := by
  unfold State.STATUS; rw [BUSY_eq]; split <;> rfl

end Sys2Proof.Machine
end

