-- ==== Sys2Proof/Laws/Memory.lean ====
section
/-! SUPPORT. The laws of the block buffer: a read after a write, and the canonical form. -/

namespace Sys2Proof.Machine

theorem lookup_write (m : Memory) (p : Nat) (v : Byte) (q : Nat) :
    (m.write p v).lookup q = if q = p then some v else m.lookup q := by
  induction m with
  | nil => simp [Memory.write, Memory.lookup, eq_comm]
  | cons e m ih =>
    obtain ⟨r, u⟩ := e
    unfold Memory.write
    split
    · simp [Memory.lookup, eq_comm]
    · split
      · subst p; by_cases h : q = r <;> simp [Memory.lookup, h, eq_comm]
      · rename_i h1 h2
        by_cases h : r = q
        · subst h; simp [Memory.lookup, Ne.symm h2]
        · simp [Memory.lookup, h, ih]

@[simp] theorem memByte_memWrite1 (s : State) (p : Nat) (v : Byte) (q : Nat) :
    (s.memWrite1 p v).memByte q = if q = p then v else s.memByte q := by
  unfold State.memByte
  rw [memWrite1_MB, lookup_write, memWrite1_draw]
  by_cases h : q = p <;> simp [h]

/-- The four bytes that `MemWrite(addr, 4, w)` writes, and every other byte as before (20_memory.md R54). -/
theorem memByte_memWrite4 (s : State) (p : Nat) (w : Word) (q : Nat) :
    (s.memWrite4 p w).memByte q =
      if p ≤ q ∧ q < p + 4 then w.extractLsb' (8 * (q - p)) 8 else s.memByte q := by
  simp only [State.memWrite4, memByte_memWrite1]
  split
  · subst q; simp
  · split
    · subst q; simp
    · split
      · subst q; simp
      · split
        · subst q; simp
        · rw [if_neg (by omega)]

/-! ## Words and their bytes -/

theorem extract_byte0 (b3 b2 b1 b0 : Byte) : (b3 ++ b2 ++ b1 ++ b0).extractLsb' 0 8 = b0 := by
  rw [extract_append_low _ _ _ _ (by omega), extract_all]

theorem extract_byte1 (b3 b2 b1 b0 : Byte) : (b3 ++ b2 ++ b1 ++ b0).extractLsb' 8 8 = b1 := by
  rw [extract_append_high _ _ _ _ (by omega), extract_append_low _ _ _ _ (by omega)]; exact extract_all b1

theorem extract_byte2 (b3 b2 b1 b0 : Byte) : (b3 ++ b2 ++ b1 ++ b0).extractLsb' 16 8 = b2 := by
  rw [extract_append_high _ _ _ _ (by omega), extract_append_high _ _ _ _ (by omega),
    extract_append_low _ _ _ _ (by omega)]
  exact extract_all b2

theorem extract_byte3 (b3 b2 b1 b0 : Byte) : (b3 ++ b2 ++ b1 ++ b0).extractLsb' 24 8 = b3 := by
  rw [extract_append_high _ _ _ _ (by omega), extract_append_high _ _ _ _ (by omega),
    extract_append_high _ _ _ _ (by omega)]
  exact extract_all b3

/-- A word is its four bytes put together again. -/
theorem bytes_of_word (w : Word) :
    w.extractLsb' 24 8 ++ w.extractLsb' 16 8 ++ w.extractLsb' 8 8 ++ w.extractLsb' 0 8 = w := by
  rw [BitVec.extractLsb'_append_extractLsb'_eq_extractLsb' (by rfl),
    BitVec.extractLsb'_append_extractLsb'_eq_extractLsb' (by rfl),
    BitVec.extractLsb'_append_extractLsb'_eq_extractLsb' (by rfl)]
  exact extract_all w

theorem wordAddress_lt (k : BitVec 4) : wordAddress k + 3 < 64 := by
  unfold wordAddress; have := k.isLt; omega

/-- 45_host_commands.md R186: "afterwards `X[k] = w`", and the other words are as before. -/
theorem X_memWrite4 (s : State) (k : BitVec 4) (w : Word) (q : BitVec 4) :
    (s.memWrite4 (wordAddress k) w).X q = if q = k then w else s.X q := by
  unfold State.X State.memRead4
  simp only [memByte_memWrite4, wordAddress]
  by_cases h : q = k
  · subst h
    simp only [Nat.le_refl, true_and, Nat.le_add_right, Nat.add_lt_add_iff_left, Nat.reduceLT, if_true,
      Nat.add_sub_cancel_left, Nat.sub_self, Nat.mul_zero, Nat.reduceMul, Nat.lt_add_right_iff_pos, Nat.zero_lt_succ]
    exact bytes_of_word w
  · have hne : q.toNat ≠ k.toNat := fun hq => h (BitVec.eq_of_toNat_eq hq)
    rw [if_neg h, if_neg (by omega), if_neg (by omega), if_neg (by omega), if_neg (by omega)]

/-- 20_memory.md R53: byte `j` of the buffer is in word `j div 4` at bits `8*(j mod 4)+7` down to `8*(j mod 4)`. -/
theorem byte_of_X (s : State) (j : BitVec 6) :
    (s.X (j.extractLsb' 2 4)).extractLsb' (8 * (j.toNat % 4)) 8 = s.memByte j.toNat := by
  have hj : j.toNat = 4 * (j.extractLsb' 2 4).toNat + j.toNat % 4 := by revert j; decide
  have hm : j.toNat % 4 = 0 ∨ j.toNat % 4 = 1 ∨ j.toNat % 4 = 2 ∨ j.toNat % 4 = 3 := by omega
  unfold State.X State.memRead4 wordAddress
  conv_rhs => rw [hj]
  rcases hm with h | h | h | h <;> rw [h]
  · exact extract_byte0 ..
  · exact extract_byte1 ..
  · exact extract_byte2 ..
  · exact extract_byte3 ..

theorem addresses_write (m : Memory) (p : Nat) (v : Byte) (q : Nat) :
    q ∈ (m.write p v).map Prod.fst ↔ q = p ∨ q ∈ m.map Prod.fst := by
  induction m with
  | nil => simp [Memory.write]
  | cons e m ih =>
    obtain ⟨r, u⟩ := e
    unfold Memory.write
    split
    · simp
    · split
      · subst p; simp
      · simp only [List.map_cons, List.mem_cons, ih]; tauto

/-- A write keeps the canonical form. -/
theorem wf_write (m : Memory) (p : Nat) (v : Byte) (h : m.wf) (hp : p < 64) : (m.write p v).wf := by
  refine ⟨?_, ?_⟩
  · have h := h.1
    induction m with
    | nil => simp [Memory.write]
    | cons e m ih =>
      obtain ⟨r, u⟩ := e
      rw [List.map_cons, List.pairwise_cons] at h
      unfold Memory.write
      split
      · rename_i hlt
        simp only [List.map_cons, List.pairwise_cons, List.mem_cons]
        refine ⟨?_, h.1, h.2⟩
        rintro q (rfl | hq)
        · exact hlt
        · exact lt_trans hlt (h.1 q hq)
      · split
        · exact List.pairwise_cons.2 h
        · rename_i h1 h2
          rw [List.map_cons, List.pairwise_cons]
          refine ⟨?_, ih ⟨h.2, fun q hq => ?_⟩ h.2⟩
          · intro q hq
            rcases (addresses_write m p v q).1 hq with rfl | hq
            · omega
            · exact h.1 q hq
          · exact ‹Memory.wf ((r, u) :: m)›.2 q (by simp at hq ⊢; exact Or.inr hq)
  · intro q hq
    rcases (addresses_write m p v q).1 hq with rfl | hq
    · exact hp
    · exact h.2 q hq

theorem wf_memWrite1 (s : State) (p : Nat) (v : Byte) (h : s.MB.wf) (hp : p < 64) : (s.memWrite1 p v).MB.wf :=
  wf_write s.MB p v h hp

theorem wf_memWrite4 (s : State) (p : Nat) (w : Word) (h : s.MB.wf) (hp : p + 3 < 64) : (s.memWrite4 p w).MB.wf :=
  wf_memWrite1 _ _ _ (wf_memWrite1 _ _ _ (wf_memWrite1 _ _ _ (wf_memWrite1 _ _ _ h (by omega)) (by omega))
    (by omega)) hp

theorem wf_nil : Memory.wf [] := by simp [Memory.wf]

theorem lookup_none_of_lt (m : Memory) (q : Nat) (h : ∀ p ∈ m.map Prod.fst, q < p) : m.lookup q = none := by
  induction m with
  | nil => rfl
  | cons e m ih =>
    obtain ⟨r, u⟩ := e
    have hr : q < r := h r (by simp)
    rw [Memory.lookup, if_neg (by omega)]
    exact ih fun p hp => h p (by simp at hp ⊢; exact Or.inr hp)

theorem rising_ext (m n : Memory) (hm : (m.map Prod.fst).Pairwise (· < ·)) (hn : (n.map Prod.fst).Pairwise (· < ·))
    (h : ∀ q, m.lookup q = n.lookup q) : m = n := by
  induction m generalizing n with
  | nil =>
    cases n with
    | nil => rfl
    | cons e n => have := h e.1; simp [Memory.lookup] at this
  | cons e m ih =>
    obtain ⟨r, u⟩ := e
    cases n with
    | nil => have := h r; simp [Memory.lookup] at this
    | cons e' n =>
      obtain ⟨r', u'⟩ := e'
      simp only [List.map_cons, List.pairwise_cons] at hm hn
      have first_le (x y : Nat) (vx vy : Byte) (l k : Memory) (hk : ∀ p ∈ k.map Prod.fst, y < p)
          (hl : Memory.lookup ((x, vx) :: l) x = Memory.lookup ((y, vy) :: k) x) : y ≤ x := by
        by_contra hlt
        rw [lookup_none_of_lt ((y, vy) :: k) x] at hl
        · simp [Memory.lookup] at hl
        · intro p hp
          simp only [List.map_cons, List.mem_cons] at hp
          rcases hp with rfl | hp
          · omega
          · have := hk p hp; omega
      have hrr : r = r' := le_antisymm (first_le r' r u' u n m hm.1 (h r').symm) (first_le r r' u u' m n hn.1 (h r))
      subst hrr
      have hu : u = u' := by simpa [Memory.lookup] using h r
      subst hu
      rw [ih n hm.2 hn.2 fun q => ?_]
      by_cases hq : r = q
      · subst hq; rw [lookup_none_of_lt m r hm.1, lookup_none_of_lt n r hn.1]
      · simpa [Memory.lookup, hq] using h q

/-- Canonical memories that hold the same bytes are equal data. -/
theorem memory_ext (m n : Memory) (hm : m.wf) (hn : n.wf) (h : ∀ q, m.lookup q = n.lookup q) : m = n :=
  rising_ext m n hm.1 hn.1 h

end Sys2Proof.Machine
end

