-- ==== Sys2Proof/Laws/Step.lean ====
section
/-! SUPPORT. What one step can do, said once: the moves of the port and of the core, and the transitions of the block. -/

namespace Sys2Proof.Machine

open Sys2Proof

/-! ## Holding -/

theorem whenIdle_idle {s : State} (h : s.PH = .idle) (f : State → State) : whenIdle s f = .next (f s) := by
  unfold whenIdle; rw [h]

theorem whenIdle_busy {s : State} (h : s.PH ≠ .idle) (f : State → State) : whenIdle s f = .next s := by
  unfold whenIdle; cases hp : s.PH <;> simp_all

theorem next_inj {s t : State} (h : (.next s : Host.Outcome State Fault Refusal) = .next t) : s = t := by
  injection h

/-! ## The meanings, one lemma each -/

theorem exec_rds (s : State) : exec .rds s = .next (s.respond 0 s.STATUS) := rfl

theorem exec_init {s : State} (h : s.PH = .idle) : exec .init s = .next ((s.setRegs IV).respond 0 0) := by
  unfold exec execInit; exact whenIdle_idle h _

theorem exec_wrb {s : State} (h : s.PH = .idle) (j : BitVec 6) (v : Byte) :
    exec (.wrb j v) s = .next ((s.memWrite1 j.toNat v).respond 0 0) := by
  unfold exec execWrb; exact whenIdle_idle h _

theorem exec_wrw {s : State} (h : s.PH = .idle) (k : BitVec 4) (w : Word) :
    exec (.wrw k w) s = .next ((s.memWrite4 (wordAddress k) w).respond 0 0) := by
  unfold exec execWrw; exact whenIdle_idle h _

theorem exec_go {s : State} (h : s.PH = .idle) :
    exec .go s = .next (((s.setAccs s.regs).setSeq .run 0).respond 0 0) := by
  unfold exec execGo; exact whenIdle_idle h _

theorem exec_rdb {s : State} (h : s.PH = .idle) (j : BitVec 4) :
    exec (.rdb j) s = .next (s.respond 0 ((s.digestWindow j).setWidth 32)) := by
  unfold exec execRdb; exact whenIdle_idle h _

theorem exec_stepF (k : BitVec 4) (n : BitVec 5) (T : Word) (s : State) :
    exec (.stepF k n T) s = .next (s.transform 0 k n T) := rfl

theorem exec_stepG (k : BitVec 4) (n : BitVec 5) (T : Word) (s : State) :
    exec (.stepG k n T) s = .next (s.transform 1 k n T) := rfl

theorem exec_stepH (k : BitVec 4) (n : BitVec 5) (T : Word) (s : State) :
    exec (.stepH k n T) s = .next (s.transform 2 k n T) := rfl

theorem exec_stepI (k : BitVec 4) (n : BitVec 5) (T : Word) (s : State) :
    exec (.stepI k n T) s = .next (s.transform 3 k n T) := rfl

/-- 10_state.md R33: a held command changes nothing and stays offered. -/
theorem exec_held {i : Instr} {s : State} (hi : isHeldCommand i = true) (h : s.PH ≠ .idle) : exec i s = .next s := by
  cases i with
  | init => unfold exec execInit; exact whenIdle_busy h _
  | wrb j v => unfold exec execWrb; exact whenIdle_busy h _
  | wrw k w => unfold exec execWrw; exact whenIdle_busy h _
  | go => unfold exec execGo; exact whenIdle_busy h _
  | rdb j => unfold exec execRdb; exact whenIdle_busy h _
  | rds | stepF | stepG | stepH | stepI => simp [isHeldCommand] at hi

/-! ## The moves of the port and of the core -/

/-- What the port or the core can do in the state `u`, and the state after it. -/
inductive Move (u : State) : State → Prop where
  /-- nothing to do, or a held command (10_state.md R33) -/
  | quiet : Move u u
  /-- 60_exceptions.md R231 -/
  | cmdError (w : CmdWord) (e : DecodeError) (hc : u.cmd = some w) (hd : decodeCommand w = .error e) :
      Move u (u.respond 1 0)
  /-- 45_host_commands.md R180 -/
  | rds (w : CmdWord) (hc : u.cmd = some w) (hd : decodeCommand w = .ok .rds) : Move u (u.respond 0 u.STATUS)
  /-- 45_host_commands.md R182 -/
  | init (w : CmdWord) (hc : u.cmd = some w) (hd : decodeCommand w = .ok .init) (hp : u.PH = .idle) :
      Move u ((u.setRegs IV).respond 0 0)
  /-- 45_host_commands.md R184 -/
  | wrb (w : CmdWord) (j : BitVec 6) (v : Byte) (hc : u.cmd = some w) (hd : decodeCommand w = .ok (.wrb j v))
      (hp : u.PH = .idle) : Move u ((u.memWrite1 j.toNat v).respond 0 0)
  /-- 45_host_commands.md R186 -/
  | wrw (w : CmdWord) (k : BitVec 4) (v : Word) (hc : u.cmd = some w) (hd : decodeCommand w = .ok (.wrw k v))
      (hp : u.PH = .idle) : Move u ((u.memWrite4 (wordAddress k) v).respond 0 0)
  /-- 44_compression_core.md R161 -/
  | go (w : CmdWord) (hc : u.cmd = some w) (hd : decodeCommand w = .ok .go) (hp : u.PH = .idle) :
      Move u (((u.setAccs u.regs).setSeq .run 0).respond 0 0)
  /-- 45_host_commands.md R190 -/
  | rdb (w : CmdWord) (j : BitVec 4) (hc : u.cmd = some w) (hd : decodeCommand w = .ok (.rdb j)) (hp : u.PH = .idle) :
      Move u (u.respond 0 ((u.digestWindow j).setWidth 32))
  /-- 42_transform_step.md R120 -/
  | row (hp : u.PH = .run) :
      Move u (u.transform (rowFn u.fetchRow) (rowK u.fetchRow) (rowS u.fetchRow) (rowT u.fetchRow))
  /-- 44_compression_core.md R166 -/
  | fold (hp : u.PH = .fold) : Move u u.fold

/-- The decoder gives host commands only. -/
theorem decodeCommand_not_step {w : CmdWord} {i : Instr} (h : decodeCommand w = .ok i) :
    i = .rds ∨ i = .init ∨ (∃ j v, i = .wrb j v) ∨ (∃ k v, i = .wrw k v) ∨ i = .go ∨ ∃ j, i = .rdb j := by
  rcases op_cases (cmdOp w) with ho | ho | ho | ho | ho | ho | ho | ho
  · rw [decode_op0 w ho] at h; cases h; simp
  · rw [decode_op1 w ho] at h; cases h; simp
  · rw [decode_op2 w ho] at h; cases h; simp
  · rw [decode_op3 w ho] at h; split at h <;> cases h; simp
  · rw [decode_op4 w ho] at h; cases h; simp
  · rw [decode_op5 w ho] at h; split at h <;> cases h; simp
  · rw [decode_op6 w ho] at h; cases h
  · rw [decode_op7 w ho] at h; cases h

theorem portMove_move (u : State) : ∃ t, portMove u = .next t ∧ Move u t := by
  unfold portMove
  split
  · exact ⟨u, rfl, .quiet⟩
  · rename_i w hc
    split
    · rename_i i hd
      rcases decodeCommand_not_step hd with rfl | rfl | ⟨j, v, rfl⟩ | ⟨k, v, rfl⟩ | rfl | ⟨j, rfl⟩
      · exact ⟨_, exec_rds u, .rds w hc hd⟩
      all_goals by_cases hp : u.PH = .idle
      · exact ⟨_, exec_init hp, .init w hc hd hp⟩
      · exact ⟨_, exec_held rfl hp, .quiet⟩
      · exact ⟨_, exec_wrb hp j v, .wrb w j v hc hd hp⟩
      · exact ⟨_, exec_held rfl hp, .quiet⟩
      · exact ⟨_, exec_wrw hp k v, .wrw w k v hc hd hp⟩
      · exact ⟨_, exec_held rfl hp, .quiet⟩
      · exact ⟨_, exec_go hp, .go w hc hd hp⟩
      · exact ⟨_, exec_held rfl hp, .quiet⟩
      · exact ⟨_, exec_rdb hp j, .rdb w j hc hd hp⟩
      · exact ⟨_, exec_held rfl hp, .quiet⟩
    · rename_i e hd
      exact ⟨_, rfl, .cmdError w e hc hd⟩

theorem portMove_ok {s : State} {w : CmdWord} {i : Instr} (hc : s.cmd = some w) (hd : decodeCommand w = .ok i) :
    portMove s = exec i s := by
  unfold portMove; simp only [hc, hd]

theorem portMove_error {s : State} {w : CmdWord} {e : DecodeError} (hc : s.cmd = some w)
    (hd : decodeCommand w = .error e) : portMove s = .next (s.respond 1 0) := by
  unfold portMove; simp only [hc, hd]; rfl

/-- 42_transform_step.md R120: running a decoded row is the one step with the row's fields. -/
theorem exec_decodeRow (r : RowWord) (u : State) :
    exec (decodeRow r) u = .next (u.transform (rowFn r) (rowK r) (rowS r) (rowT r)) := by
  unfold decodeRow
  rcases fn_cases (rowFn r) with h | h | h | h <;> rw [h] <;> rfl

theorem coreMove_move (u : State) : ∃ t, coreMove u = .next t ∧ Move u t := by
  unfold coreMove
  split
  · exact ⟨u, rfl, .quiet⟩
  · rename_i hp; exact ⟨_, exec_decodeRow _ u, .row hp⟩
  · rename_i hp; exact ⟨_, rfl, .fold hp⟩

theorem coreMove_idle {u : State} (h : u.PH = .idle) : coreMove u = .next u := by
  unfold coreMove; rw [h]

theorem coreMove_run {u : State} (h : u.PH = .run) : coreMove u =
    .next (u.transform (rowFn u.fetchRow) (rowK u.fetchRow) (rowS u.fetchRow) (rowT u.fetchRow)) := by
  unfold coreMove; rw [h]; exact exec_decodeRow _ u

theorem coreMove_fold {u : State} (h : u.PH = .fold) : coreMove u = .next u.fold := by
  unfold coreMove; rw [h]

theorem defaultMove_accepts {s : State} {w : CmdWord} (hc : s.cmd = some w) (ha : s.accepts w = true) :
    defaultMove s = portMove s := by
  unfold defaultMove State.cmdReady; simp [hc, ha]

theorem defaultMove_held {s : State} {w : CmdWord} (hc : s.cmd = some w) (ha : s.accepts w = false) :
    defaultMove s = coreMove s := by
  unfold defaultMove State.cmdReady; simp [hc, ha]

theorem defaultMove_free {s : State} (hc : s.cmd = none) : defaultMove s = coreMove s := by
  unfold defaultMove State.cmdReady; simp [hc]

theorem accepts_idle {s : State} (h : s.PH = .idle) (w : CmdWord) : s.accepts w = true := by
  unfold State.accepts; split <;> simp [h]

theorem accepts_busy {s : State} {w : CmdWord} {i : Instr} (h : s.PH ≠ .idle) (hd : decodeCommand w = .ok i)
    (hi : i ≠ .rds) : s.accepts w = false := by
  unfold State.accepts; rw [hd]; cases i <;> simp_all

theorem defaultMove_move (u : State) : ∃ t, defaultMove u = .next t ∧ Move u t := by
  unfold defaultMove; split
  · exact portMove_move u
  · exact coreMove_move u

/-! ## The transitions of the block -/

/-- Every transition of the model: reset, an offer on a free port, or a move of the port or of the core. The events
left are the old ones, or the old ones less a first `port` or `core`. -/
inductive Transition (s : State) : State → Prop where
  | reset (es : List Event) (he : s.events = .reset :: es) : Transition s (s.setEvents es).resetNow
  | offer (w : CmdWord) (es : List Event) (he : s.events = .offer w :: es) (hc : s.cmd = none) :
      Transition s ((s.setEvents es).place w)
  | move (es : List Event) (t : State)
      (he : es = s.events ∧ (∀ es', s.events ≠ .reset :: es') ∨ s.events = .port :: es ∨ s.events = .core :: es)
      (hm : Move (s.setEvents es) t) : Transition s t

/-- Every state has a next state, and the step to it is a transition (60_exceptions.md R230: no fault state, no stuck
state). -/
theorem step_transition (s : State) : ∃ t, step s = .next t ∧ Transition s t := by
  unfold step nextMove
  split
  · rename_i he
    obtain ⟨t, ht, hm⟩ := defaultMove_move s
    exact ⟨t, ht, .move s.events t (.inl ⟨rfl, by simp [he]⟩) hm⟩
  · rename_i es he; exact ⟨_, rfl, .reset es he⟩
  · rename_i es he
    obtain ⟨t, ht, hm⟩ := portMove_move (s.setEvents es)
    exact ⟨t, ht, .move es t (.inr (.inl he)) hm⟩
  · rename_i es he
    obtain ⟨t, ht, hm⟩ := coreMove_move (s.setEvents es)
    exact ⟨t, ht, .move es t (.inr (.inr he)) hm⟩
  · rename_i w es he
    split
    · rename_i hc; exact ⟨_, rfl, .offer w es he hc⟩
    · obtain ⟨t, ht, hm⟩ := defaultMove_move s
      exact ⟨t, ht, .move s.events t (.inl ⟨rfl, by simp [he]⟩) hm⟩

/-- The inversion lemma of `step`: later proofs about a step are case splits on `Transition`. -/
theorem transition_of_step {s t : State} (h : step s = .next t) : Transition s t := by
  obtain ⟨t', ht, hm⟩ := step_transition s
  rw [ht] at h; cases h; exact hm

/-! ## One step, by the first event -/

theorem step_reset {s : State} {es : List Event} (h : s.events = .reset :: es) :
    step s = .next (s.setEvents es).resetNow := by
  unfold step nextMove; rw [h]

theorem step_port {s : State} {es : List Event} (h : s.events = .port :: es) : step s = portMove (s.setEvents es) := by
  unfold step nextMove; rw [h]

theorem step_core {s : State} {es : List Event} (h : s.events = .core :: es) : step s = coreMove (s.setEvents es) := by
  unfold step nextMove; rw [h]

theorem step_offer {s : State} {w : CmdWord} {es : List Event} (h : s.events = .offer w :: es) (hc : s.cmd = none) :
    step s = .next ((s.setEvents es).place w) := by
  unfold step nextMove; rw [h]; simp [hc]

theorem step_waiting {s : State} {w w' : CmdWord} {es : List Event} (h : s.events = .offer w :: es)
    (hc : s.cmd = some w') : step s = defaultMove s := by
  unfold step nextMove; rw [h]; simp [hc]

theorem step_default {s : State} (h : s.events = []) : step s = defaultMove s := by
  unfold step nextMove; rw [h]

end Sys2Proof.Machine
end

