-- ==== Sys2Proof/Laws/Compress.lean ====
section
/-! SUPPORT. Runs, and what the core's 65 transitions of a block compute (44_compression_core.md R160, R164). -/

namespace Sys2Proof.Machine

open Sys2Proof

/-! ## Runs -/

@[simp] theorem run_zero (s : State) : run 0 s = .next s := rfl

theorem run_succ {s t : State} (h : step s = .next t) (n : Nat) : run (n + 1) s = run n t := by
  have general : ∀ (M : Host.Core) (s t : M.State), M.step s = .next t → M.run (n + 1) s = M.run n t := by
    intro M s t h; rw [Host.Core.run, h]
  exact general Sys2Proof.core s t h

theorem run_add {s t : State} {m : Nat} (h : run m s = .next t) (n : Nat) : run (m + n) s = run n t := by
  induction m generalizing s with
  | zero => cases next_inj h; rw [Nat.zero_add]
  | succ m ih =>
    obtain ⟨u, hu, -⟩ := step_transition s
    rw [run_succ hu] at h
    rw [Nat.succ_add, run_succ hu, ih h]

theorem heard_succ {s t : State} (h : step s = .next t) (n : Nat) :
    heard (n + 1) s = heardIn s t ++ heard n t := by
  rw [heard, h]

theorem heard_add {s t : State} {m : Nat} (h : run m s = .next t) (n : Nat) :
    heard (m + n) s = heard m s ++ heard n t := by
  induction m generalizing s with
  | zero => cases next_inj h; rw [Nat.zero_add]; rfl
  | succ m ih =>
    obtain ⟨u, hu, -⟩ := step_transition s
    rw [run_succ hu] at h
    rw [Nat.succ_add, heard_succ hu, heard_succ hu, ih h, List.append_assoc]

/-! ## The core on its own -/

/-- The state after the core's transition (44_compression_core.md R160). -/
def coreNext (s : State) : State :=
  match s.PH with
  | .idle => s
  | .run => s.transform (rowFn s.fetchRow) (rowK s.fetchRow) (rowS s.fetchRow) (rowT s.fetchRow)
  | .fold => s.fold

theorem coreMove_eq (s : State) : coreMove s = .next (coreNext s) := by
  unfold coreNext
  cases h : s.PH with
  | idle => exact coreMove_idle h
  | run => exact coreMove_run h
  | fold => exact coreMove_fold h

/-- The state after `n` transitions of the core. Irreducible, so that no check unrolls 65 of them. -/
@[irreducible] def coreNexts : Nat → State → State
  | 0, s => s
  | n + 1, s => coreNexts n (coreNext s)

theorem coreNexts_zero (s : State) : coreNexts 0 s = s := by rw [coreNexts]

theorem coreNexts_cons (n : Nat) (s : State) : coreNexts (n + 1) s = coreNexts n (coreNext s) := by rw [coreNexts]

theorem coreNexts_succ (n : Nat) (s : State) : coreNexts (n + 1) s = coreNext (coreNexts n s) := by
  induction n generalizing s with
  | zero => rw [coreNexts_cons, coreNexts_zero, coreNexts_zero]
  | succ n ih => rw [coreNexts_cons, ih, ← coreNexts_cons]

/-- What the core never touches. -/
theorem coreNext_frame (s : State) : (coreNext s).MB = s.MB ∧ (coreNext s).SCHED = s.SCHED ∧
    (coreNext s).cmd = s.cmd ∧ (coreNext s).rsp = s.rsp ∧ (coreNext s).events = s.events ∧
    (coreNext s).draw = s.draw := by
  unfold coreNext; split <;> simp

theorem coreNext_setEvents (s : State) (es : List Event) :
    coreNext (s.setEvents es) = (coreNext s).setEvents es := by
  unfold coreNext
  cases h : s.PH with
  | idle => simp [h]
  | run => simp only [setEvents_PH, h]; rw [transform_eq, transform_eq]; rfl
  | fold => simp only [setEvents_PH, h]; rfl

theorem coreNexts_setEvents (n : Nat) (s : State) (es : List Event) :
    coreNexts n (s.setEvents es) = (coreNexts n s).setEvents es := by
  induction n generalizing s with
  | zero => rw [coreNexts_zero, coreNexts_zero]
  | succ n ih => rw [coreNexts_cons, coreNexts_cons, coreNext_setEvents, ih]

/-- `n` events `core` are `n` transitions of the core. -/
theorem run_cores (n : Nat) {s : State} {rest : List Event} (h : s.events = List.replicate n .core ++ rest) :
    run n s = .next ((coreNexts n s).setEvents rest) := by
  induction n generalizing s with
  | zero => rw [run_zero, coreNexts_zero]; congr 1; cases s; simp at h; simp [State.setEvents, h]
  | succ n ih =>
    rw [List.replicate_succ, List.cons_append] at h
    have h1 : step s = .next ((coreNext s).setEvents (List.replicate n .core ++ rest)) := by
      rw [step_core h, coreMove_eq, coreNext_setEvents]
    rw [run_succ h1, ih (by simp), coreNexts_setEvents, coreNexts_cons]; rfl

/-! ## The rows of a block -/

theorem scheduleRows_length : scheduleRows.length = 64 := rfl

theorem fetchRow_eq {s : State} (h : s.SCHED = schedule) :
    s.fetchRow = scheduleRows[s.STEP.toNat]'(by rw [scheduleRows_length]; exact s.STEP.isLt) := by
  unfold State.fetchRow; simp only [h]; rfl

theorem afterRows_zero (S : Quad) (M : BitVec 4 → Word) : afterRows 0 S M = S := rfl

theorem afterRows_succ {n : Nat} (h : n < 64) (S : Quad) (M : BitVec 4 → Word) :
    afterRows (n + 1) S M = pureStep M (afterRows n S M) (scheduleRows[n]'h) := by
  unfold afterRows
  rw [List.take_add_one, List.getElem?_eq_getElem (by exact h), Option.toList_some, List.foldl_append]
  rfl

/-- A block in progress: `u` is `s` (where `GO` has just been accepted) after the first `n` rows. -/
structure AfterRows (s : State) (n : Nat) (u : State) : Prop where
  regs : u.regs = s.regs
  accs : u.accs = afterRows n s.regs s.X
  X : u.X = s.X
  table : u.SCHED = schedule
  phase : u.PH = if n = 64 then .fold else .run
  counter : u.STEP.toNat = n % 64

theorem afterRows_step {s u : State} {n : Nat} (hn : n < 64) (h : AfterRows s n u) : AfterRows s (n + 1) (coreNext u) := by
  have hp : u.PH = .run := by rw [h.phase, if_neg (by omega)]
  have hs : u.STEP.toNat = n := by rw [h.counter, Nat.mod_eq_of_lt hn]
  have hr : u.fetchRow = scheduleRows[n] := by rw [fetchRow_eq h.table]; congr 1
  have hnext : coreNext u =
      u.transform (rowFn u.fetchRow) (rowK u.fetchRow) (rowS u.fetchRow) (rowT u.fetchRow) := by
    unfold coreNext; rw [hp]
  rw [hnext]
  refine ⟨by rw [transform_regs, h.regs], ?_, by rw [transform_X, h.X], by rw [transform_SCHED, h.table], ?_, ?_⟩
  · rw [transform_accs, h.accs, h.X, hr, afterRows_succ hn]; rfl
  · by_cases hl : u.STEP = 63
    · have : n = 63 := by rw [← hs, hl]; rfl
      rw [(transform_last u hl _ _ _ _).1, if_pos (by omega)]
    · have : n ≠ 63 := fun h' => hl (BitVec.eq_of_toNat_eq (hs.trans h'))
      rw [(transform_before_last u hl _ _ _ _).1, hp, if_neg (by omega)]
  · by_cases hl : u.STEP = 63
    · have : n = 63 := by rw [← hs, hl]; rfl
      rw [(transform_last u hl _ _ _ _).2, this]; rfl
    · have : n ≠ 63 := fun h' => hl (BitVec.eq_of_toNat_eq (hs.trans h'))
      rw [(transform_before_last u hl _ _ _ _).2, toNat_succ_of_ne hl, hs, Nat.mod_eq_of_lt (by omega)]

/-- 44_compression_core.md R164: the accumulators follow the recurrence, row by row. -/
theorem afterRows_coreNexts {s : State} (ht : s.SCHED = schedule) (hp : s.PH = .run) (hs : s.STEP = 0)
    (ha : s.accs = s.regs) : ∀ n ≤ 64, AfterRows s n (coreNexts n s) := by
  intro n
  induction n with
  | zero => intro _; rw [coreNexts_zero]; exact ⟨rfl, ha, rfl, ht, hp, by rw [hs]; rfl⟩
  | succ n ih => intro hn; rw [coreNexts_succ]; exact afterRows_step (by omega) (ih (by omega))

/-- 44_compression_core.md R164, R168: not before 65 transitions is the phase `IDLE` again. -/
theorem busy_coreNexts {s : State} (ht : s.SCHED = schedule) (hp : s.PH = .run) (hs : s.STEP = 0)
    (ha : s.accs = s.regs) {n : Nat} (hn : n ≤ 64) : (coreNexts n s).PH ≠ .idle := by
  rw [(afterRows_coreNexts ht hp hs ha n hn).phase]; split <;> simp

/-- 44_compression_core.md R164: after 65 transitions the state registers hold `Compress(S, M)`. -/
theorem compress_coreNexts {s : State} (ht : s.SCHED = schedule) (hp : s.PH = .run) (hs : s.STEP = 0)
    (ha : s.accs = s.regs) :
    (coreNexts 65 s).PH = .idle ∧ (coreNexts 65 s).STEP = 0 ∧ (coreNexts 65 s).regs = compress s.regs s.X := by
  have h := afterRows_coreNexts ht hp hs ha 64 (Nat.le_refl _)
  have hf : (coreNexts 64 s).PH = .fold := h.phase
  have hn : coreNexts 65 s = (coreNexts 64 s).fold := by rw [coreNexts_succ]; unfold coreNext; rw [hf]
  rw [hn]
  refine ⟨rfl, ?_, ?_⟩
  · rw [fold_STEP]; exact BitVec.eq_of_toNat_eq h.counter
  · show addQuad (coreNexts 64 s).regs (coreNexts 64 s).accs = _
    rw [h.regs, h.accs]; rfl

theorem coreNexts_frame (n : Nat) (s : State) : (coreNexts n s).MB = s.MB ∧ (coreNexts n s).SCHED = s.SCHED ∧
    (coreNexts n s).cmd = s.cmd ∧ (coreNexts n s).rsp = s.rsp ∧ (coreNexts n s).events = s.events ∧
    (coreNexts n s).draw = s.draw := by
  induction n with
  | zero => rw [coreNexts_zero]; exact ⟨rfl, rfl, rfl, rfl, rfl, rfl⟩
  | succ n ih =>
    rw [coreNexts_succ]
    obtain ⟨h1, h2, h3, h4, h5, h6⟩ := coreNext_frame (coreNexts n s)
    obtain ⟨g1, g2, g3, g4, g5, g6⟩ := ih
    exact ⟨h1.trans g1, h2.trans g2, h3.trans g3, h4.trans g4, h5.trans g5, h6.trans g6⟩

/-! ## A whole block -/

/-- The state right after `GO` is accepted in the state `s` (44_compression_core.md R161). -/
def started (s : State) : State := ((s.setAccs s.regs).setSeq .run 0).respond 0 0

theorem portMove_go {s : State} {w : CmdWord} (hp : s.PH = .idle) (hc : s.cmd = some w)
    (hd : decodeCommand w = .ok .go) : portMove s = .next (started s) := by
  rw [portMove_ok hc hd, exec_go hp]; rfl

theorem busy_after_go {s : State} (ht : s.SCHED = schedule) {n : Nat} (hn : n ≤ 64) :
    (coreNexts n (started s)).PH ≠ .idle :=
  busy_coreNexts (s := started s) ht rfl rfl rfl hn

/-- 44_compression_core.md R164 and R166, from the acceptance of `GO` to the end of the block. -/
theorem after_block {s : State} (ht : s.SCHED = schedule) :
    (coreNexts 65 (started s)).PH = .idle ∧ (coreNexts 65 (started s)).STEP = 0 ∧
    (coreNexts 65 (started s)).regs = compress s.regs s.X ∧ (coreNexts 65 (started s)).MB = s.MB ∧
    (coreNexts 65 (started s)).draw = s.draw ∧ (coreNexts 65 (started s)).SCHED = schedule := by
  obtain ⟨h1, h2, h3⟩ := compress_coreNexts (s := started s) ht rfl rfl rfl
  obtain ⟨f1, f2, -, -, -, f6⟩ := coreNexts_frame 65 (started s)
  exact ⟨h1, h2, h3, f1, f6, f2.trans ht⟩

end Sys2Proof.Machine
end

