-- ==== Sys2Proof/Laws/Padding.lean ====
section
/-! SUPPORT. The padded string and the word array, index by index (43_padding.md). -/

namespace Sys2Proof.Machine

open Sys2Proof

theorem padZeros_spec (L : Nat) : padZeros L < 64 ∧ (L + 1 + padZeros L) % 64 = 56 := by
  unfold padZeros; omega

theorem lengthField_length (L : Nat) : (lengthField L).length = 8 := rfl

theorem padBytes_length (msg : List Byte) : (padBytes msg).length = msg.length + 1 + padZeros msg.length + 8 := by
  simp [padBytes, lengthField_length]; omega

/-- 43_padding.md R142: "the padded length is a multiple of 64", `64 * N_BLOCKS(L)`. -/
theorem padBytes_blocks (msg : List Byte) : (padBytes msg).length = 64 * numBlocks msg.length := by
  have := padZeros_spec msg.length
  rw [padBytes_length]; unfold numBlocks; omega

theorem padBytes_message (msg : List Byte) {t : Nat} (h : t < msg.length) : (padBytes msg)[t]? = msg[t]? := by
  unfold padBytes; rw [List.append_assoc, List.getElem?_append_left h]

theorem padBytes_marker (msg : List Byte) : (padBytes msg)[msg.length]? = some 0x80 := by
  unfold padBytes; simp

theorem padBytes_zeros (msg : List Byte) {t : Nat} (h1 : msg.length < t) (h2 : t ≤ msg.length + padZeros msg.length) :
    (padBytes msg)[t]? = some 0x00 := by
  obtain ⟨u, rfl⟩ : ∃ u, t = msg.length + (u + 1) := ⟨t - msg.length - 1, by omega⟩
  unfold padBytes
  rw [List.append_assoc, List.getElem?_append_right (by omega), Nat.add_sub_cancel_left, List.cons_append,
    List.getElem?_cons_succ, List.getElem?_append_left (by simp; omega), List.getElem?_replicate, if_pos (by omega)]; rfl

theorem padBytes_lengthField (msg : List Byte) {u : Nat} (hu : u < 8) :
    (padBytes msg)[msg.length + 1 + padZeros msg.length + u]? = some (BitVec.ofNat 8 (8 * msg.length / 2 ^ (8 * u))) := by
  have e : (msg ++ 0x80#8 :: List.replicate (padZeros msg.length) 0#8).length = msg.length + 1 + padZeros msg.length := by
    simp; omega
  unfold padBytes
  rw [List.getElem?_append_right (by omega), e, Nat.add_sub_cancel_left]
  unfold lengthField
  rw [List.getElem?_map, List.getElem?_range hu]; rfl

theorem wordArray_length (P : List Byte) : (wordArray P).length = P.length / 4 := by
  unfold wordArray; simp

theorem wordArray_getD (P : List Byte) {t : Nat} (h : t < P.length / 4) : (wordArray P).getD t 0 = wordAt P t := by
  unfold wordArray; simp [h]

theorem blocksOf_length (P : List Byte) : (blocksOf P).length = P.length / 64 := by
  unfold blocksOf; simp

/-- A word as the sum of its bytes. -/
theorem toNat_word (b3 b2 b1 b0 : Byte) : (b3 ++ b2 ++ b1 ++ b0).toNat =
    b0.toNat + 2 ^ 8 * b1.toNat + 2 ^ 16 * b2.toNat + 2 ^ 24 * b3.toNat := by
  rw [BitVec.toNat_append, BitVec.toNat_append, BitVec.toNat_append,
    ← Nat.shiftLeft_add_eq_or_of_lt b0.isLt, ← Nat.shiftLeft_add_eq_or_of_lt b1.isLt,
    ← Nat.shiftLeft_add_eq_or_of_lt b2.isLt]
  simp only [Nat.shiftLeft_eq]; omega

/-- 43_padding.md R144: a word of the array as the sum of its four bytes. -/
theorem toNat_wordAt (P : List Byte) (t : Nat) : (wordAt P t).toNat =
    (P.getD (4 * t) 0).toNat + 2 ^ 8 * (P.getD (4 * t + 1) 0).toNat + 2 ^ 16 * (P.getD (4 * t + 2) 0).toNat +
    2 ^ 24 * (P.getD (4 * t + 3) 0).toNat := by
  unfold wordAt; exact toNat_word ..

theorem pad_eq_some {msg P : List Byte} (h : pad msg = some P) : P = padBytes msg ∧ msg.length ≤ Config.lmax := by
  unfold pad at h; split at h
  · cases h; exact ⟨rfl, ‹_›⟩
  · cases h

end Sys2Proof.Machine
end

