-- ==== Sys2Proof/Laws/PerInstr.lean ====
section
/-! SUPPORT. Statements about every instruction as syntax, one lemma per constructor. -/

namespace Sys2Proof.Laws.RoundTrip

open Sys2Proof

/-- Decoding the encoded instruction gives it back. -/
def Statement (i : Instr) : Prop := decode (encode i) = .ok i

theorem rds : Statement .rds := by simp [Statement, decode, encode, decode_op0]

theorem init : Statement .init := by simp [Statement, decode, encode, decode_op1]

theorem wrb (j : BitVec 6) (v : Byte) : Statement (.wrb j v) := by
  simp [Statement, decode, encode, decode_op2]

theorem wrw (k : BitVec 4) (w : Word) : Statement (.wrw k w) := by
  simp [Statement, decode, encode, decode_op3]

theorem go : Statement .go := by simp [Statement, decode, encode, decode_op4]

theorem rdb (j : BitVec 4) : Statement (.rdb j) := by
  simp [Statement, decode, encode, decode_op5]

theorem stepF (k : BitVec 4) (s : BitVec 5) (T : Word) : Statement (.stepF k s T) := by
  simp [Statement, decode, encode, decodeRow]

theorem stepG (k : BitVec 4) (s : BitVec 5) (T : Word) : Statement (.stepG k s T) := by
  simp [Statement, decode, encode, decodeRow]

theorem stepH (k : BitVec 4) (s : BitVec 5) (T : Word) : Statement (.stepH k s T) := by
  simp [Statement, decode, encode, decodeRow]

theorem stepI (k : BitVec 4) (s : BitVec 5) (T : Word) : Statement (.stepI k s T) := by
  simp [Statement, decode, encode, decodeRow]

end Sys2Proof.Laws.RoundTrip
end

