-- ==== Sys2Proof/Laws/Sequential.lean ====
section
/-! SUPPORT. The block seen as one command after another (20_memory.md R61), whatever the order against the core; that the
offered commands are all taken in the end (00_scope.md R19); and what a list of commands computes. -/

namespace Sys2Proof.Machine

open Sys2Proof

/-! ## The settled state -/

theorem X_eq_wordsOf (s : State) : s.X = wordsOf s.memByte := rfl

theorem settled_idle {s : State} (h : s.PH = .idle) : s.settled = s.regs := by unfold State.settled; rw [h]

theorem settled_run {s : State} (h : s.PH = .run) : s.settled =
    addQuad s.regs ((s.SCHED.toList.drop s.STEP.toNat).foldl (pureStep s.X) s.accs) := by
  unfold State.settled; rw [h]

theorem settled_fold {s : State} (h : s.PH = .fold) : s.settled = addQuad s.regs s.accs := by
  unfold State.settled; rw [h]

theorem drop_rows (s : State) :
    s.SCHED.toList.drop s.STEP.toNat = s.fetchRow :: s.SCHED.toList.drop (s.STEP.toNat + 1) := by
  have h : s.STEP.toNat < s.SCHED.toList.length := by rw [Vector.length_toList]; exact s.STEP.isLt
  rw [List.drop_eq_getElem_cons h]; rfl

/-- A transition of the core does not change what the block will hold when it is done. -/
theorem settled_coreNext (s : State) : (coreNext s).settled = s.settled := by
  unfold coreNext
  cases hp : s.PH with
  | idle => rfl
  | fold => rw [settled_fold hp, settled_idle (fold_PH s)]; rfl
  | run =>
    show State.settled (s.transform (rowFn s.fetchRow) (rowK s.fetchRow) (rowS s.fetchRow) (rowT s.fetchRow)) = _
    rw [settled_run hp, drop_rows, List.foldl_cons]
    by_cases h : s.STEP = 63
    · rw [settled_fold (transform_last s h _ _ _ _).1, transform_regs, transform_accs,
        List.drop_eq_nil_of_le (by rw [Vector.length_toList, h]; decide)]
      rfl
    · obtain ⟨h1, h2⟩ := transform_before_last s h (rowFn s.fetchRow) (rowK s.fetchRow) (rowS s.fetchRow) (rowT s.fetchRow)
      rw [settled_run (h1.trans hp), transform_regs, transform_accs, transform_X, transform_SCHED, h2,
        toNat_succ_of_ne h]
      rfl

/-- Right after `GO` the block will hold `Compress` of what it held (44_compression_core.md R164). -/
theorem settled_started {s : State} (ht : s.SCHED = schedule) : (started s).settled = compress s.regs s.X := by
  rw [settled_run (s := started s) rfl, show (started s).SCHED = schedule from ht]; rfl

theorem coreNext_memByte (s : State) : (coreNext s).memByte = s.memByte :=
  memByte_congr (coreNext_frame s).1 (coreNext_frame s).2.2.2.2.2

/-! ## One move as one command, or as nothing -/

/-- What a move of the port or of the core is to the host: nothing, or one command taken and answered. -/
inductive Seen (u t : State) : Prop where
  | nothing (hs : t.settled = u.settled) (hm : t.memByte = u.memByte) (hc : t.cmd = u.cmd) (hr : t.rsp = u.rsp)
  | refused (w : CmdWord) (e : DecodeError) (hc : u.cmd = some w) (hd : decodeCommand w = .error e)
      (hs : t.settled = u.settled) (hm : t.memByte = u.memByte) (ht : t.cmd = none) (hr : t.rsp = some (rspWord 1 0))
  | taken (w : CmdWord) (i : Instr) (r : RspWord) (hc : u.cmd = some w) (hd : decodeCommand w = .ok i)
      (hs : t.settled = (commandEffect i u.settled u.memByte).1) (hm : t.memByte = (commandEffect i u.settled u.memByte).2)
      (ht : t.cmd = none) (hr : t.rsp = some r) (ha : ∀ r', answerOf i u.settled = some r' → r = r')

theorem writeAt_wrb (p : Nat) (j : BitVec 6) (v : Byte) :
    writeAt p (.wrb j v) = if p = j.toNat then some v else none := rfl

theorem writeAt_wrw (p : Nat) (k : BitVec 4) (w : Word) : writeAt p (.wrw k w) =
    if wordAddress k ≤ p ∧ p < wordAddress k + 4 then some (w.extractLsb' (8 * (p - wordAddress k)) 8) else none := rfl

theorem memByte_wrb (s : State) (j : BitVec 6) (v : Byte) :
    (s.memWrite1 j.toNat v).memByte = fun p => (writeAt p (.wrb j v)).getD (s.memByte p) := by
  funext p; rw [memByte_memWrite1, writeAt_wrb]; split <;> rfl

theorem memByte_wrw (s : State) (k : BitVec 4) (w : Word) :
    (s.memWrite4 (wordAddress k) w).memByte = fun p => (writeAt p (.wrw k w)).getD (s.memByte p) := by
  funext p; rw [memByte_memWrite4, writeAt_wrw]; split <;> rfl

theorem settled_congr {s t : State} (h1 : t.PH = s.PH) (h2 : t.regs = s.regs) (h3 : t.accs = s.accs)
    (h4 : t.SCHED = s.SCHED) (h5 : t.STEP = s.STEP) (h6 : t.X = s.X) : t.settled = s.settled := by
  unfold State.settled; rw [h1, h2, h3, h4, h5, h6]

theorem settled_respond (s : State) (e : BitVec 1) (r : Word) : (s.respond e r).settled = s.settled :=
  settled_congr rfl rfl rfl rfl rfl rfl

theorem settled_setEvents (s : State) (es : List Event) : (s.setEvents es).settled = s.settled :=
  settled_congr rfl rfl rfl rfl rfl rfl

theorem settled_place (s : State) (w : CmdWord) : (s.place w).settled = s.settled :=
  settled_congr rfl rfl rfl rfl rfl rfl

theorem seen_of_move {u t : State} (ht : u.SCHED = schedule) (hm : Move u t) : Seen u t := by
  cases hm with
  | quiet => exact .nothing rfl rfl rfl rfl
  | cmdError w e hc hd => exact .refused w e hc hd (settled_respond ..) rfl rfl rfl
  | rds w hc hd => exact .taken w .rds _ hc hd (settled_respond ..) rfl rfl rfl (fun _ h => nomatch h)
  | init w hc hd hp =>
    exact .taken w .init _ hc hd (settled_idle (s := (u.setRegs IV).respond 0 0) hp) rfl rfl rfl
      (fun _ h => Option.some.inj h)
  | wrb w j v hc hd hp =>
    refine .taken w (.wrb j v) _ hc hd ?_ (memByte_wrb u j v) rfl rfl (fun _ h => Option.some.inj h)
    rw [settled_idle (s := (u.memWrite1 j.toNat v).respond 0 0) hp]; exact (settled_idle hp).symm
  | wrw w k v hc hd hp =>
    refine .taken w (.wrw k v) _ hc hd ?_ (memByte_wrw u k v) rfl rfl (fun _ h => Option.some.inj h)
    rw [settled_idle (s := (u.memWrite4 (wordAddress k) v).respond 0 0) (by simpa using hp)]
    refine Eq.trans ?_ (settled_idle hp).symm
    simp [State.regs]
  | go w hc hd hp =>
    refine .taken w .go _ hc hd ?_ rfl rfl rfl (fun _ h => Option.some.inj h)
    rw [settled_idle hp]; exact settled_started ht
  | rdb w j hc hd hp =>
    refine .taken w (.rdb j) _ hc hd (settled_respond ..) rfl rfl rfl (fun r h => ?_)
    rw [settled_idle hp] at h; exact Option.some.inj h
  | row hp =>
    have h : coreNext u = u.transform (rowFn u.fetchRow) (rowK u.fetchRow) (rowS u.fetchRow) (rowT u.fetchRow) := by
      unfold coreNext; rw [hp]
    rw [← h]
    obtain ⟨-, -, hc, hr, -, -⟩ := coreNext_frame u
    exact .nothing (settled_coreNext u) (coreNext_memByte u) hc hr
  | fold hp =>
    have h : coreNext u = u.fold := by unfold coreNext; rw [hp]
    rw [← h]
    obtain ⟨-, -, hc, hr, -, -⟩ := coreNext_frame u
    exact .nothing (settled_coreNext u) (coreNext_memByte u) hc hr

/-! ## Progress (00_scope.md R19) -/

/-- How far the host is from having all its commands answered: each step makes it smaller. -/
def work (s : State) : Nat := 140 * s.events.length + (if s.cmd = none then 0 else 70) + coreMovesLeft s

theorem coreMovesLeft_le (s : State) : coreMovesLeft s ≤ 65 := by
  unfold coreMovesLeft; split <;> omega

theorem coreMovesLeft_setEvents (s : State) (es : List Event) : coreMovesLeft (s.setEvents es) = coreMovesLeft s := rfl

theorem coreMovesLeft_coreNext {s : State} (h : s.PH ≠ .idle) : coreMovesLeft (coreNext s) < coreMovesLeft s := by
  unfold coreNext
  cases hp : s.PH with
  | idle => exact absurd hp h
  | fold => unfold coreMovesLeft; rw [hp]; simp
  | run =>
    have := s.STEP.isLt
    show coreMovesLeft (s.transform (rowFn s.fetchRow) (rowK s.fetchRow) (rowS s.fetchRow) (rowT s.fetchRow)) < _
    by_cases hl : s.STEP = 63
    · unfold coreMovesLeft; rw [(transform_last s hl _ _ _ _).1, hp, hl]; show 1 < 65 - (63 : BitVec 6).toNat; decide
    · obtain ⟨h1, h2⟩ := transform_before_last s hl (rowFn s.fetchRow) (rowK s.fetchRow) (rowS s.fetchRow) (rowT s.fetchRow)
      unfold coreMovesLeft; rw [h1, hp, h2, toNat_succ_of_ne hl]; dsimp only; omega

/-- The port empties or stays; it never fills in a move. -/
theorem move_frame {u t : State} (hm : Move u t) :
    (t.cmd = u.cmd ∨ t.cmd = none) ∧ t.events = u.events ∧ t.SCHED = u.SCHED := by
  cases hm <;> simp

theorem move_draw {u t : State} (hm : Move u t) : t.draw = u.draw := by
  cases hm <;> simp

/-- One step of a host that does not reset: it takes the next offer, or it is a move on the events left. -/
inductive Quiet (s : State) : State → Prop where
  | offered (w : CmdWord) (es : List Event) (he : s.events = .offer w :: es) (hc : s.cmd = none) :
      Quiet s ((s.setEvents es).place w)
  | moved (es : List Event) (t : State) (hm : Move (s.setEvents es) t)
      (hw : ∀ port, wordsTaken port s.events = wordsTaken port es) (hr : s.events.count .reset = es.count .reset)
      (hl : work t < work s) : Quiet s t

/-- The events, the port and the core are all empty: nothing is left to do. -/
def Done (s : State) : Prop := s.events = [] ∧ s.cmd = none ∧ s.PH = .idle

theorem work_default {s t : State} (h : defaultMove s = .next t) (hd : s.cmd ≠ none ∨ s.PH ≠ .idle) : work t < work s := by
  have hw : work s = 140 * s.events.length + (if s.cmd = none then 0 else 70) + coreMovesLeft s := rfl
  have hwt : work t = 140 * t.events.length + (if t.cmd = none then 0 else 70) + coreMovesLeft t := rfl
  have core : s.PH ≠ .idle → coreMove s = .next t → work t < work s := by
    intro hp hc
    rw [coreMove_eq] at hc
    have := coreMovesLeft_coreNext hp
    obtain ⟨-, -, f3, -, f5, -⟩ := coreNext_frame s
    rw [hw, hwt, ← next_inj hc, f3, f5]; omega
  cases hc : s.cmd with
  | none => exact core (hd.resolve_left fun h => h hc) (by rw [← defaultMove_free hc]; exact h)
  | some w =>
    cases ha : s.accepts w with
    | false =>
      have hp : s.PH ≠ .idle := fun hp => by rw [accepts_idle hp w] at ha; cases ha
      exact core hp (by rw [← defaultMove_held hc ha]; exact h)
    | true =>
      rw [defaultMove_accepts hc ha] at h
      have hn : t.cmd = none ∧ t.events = s.events := by
        cases hd : decodeCommand w with
        | error e => rw [portMove_error hc hd] at h; rw [← next_inj h]; exact ⟨rfl, rfl⟩
        | ok i =>
          rw [portMove_ok hc hd] at h
          by_cases hp : s.PH = .idle
          · rcases decodeCommand_not_step hd with rfl | rfl | ⟨j, v, rfl⟩ | ⟨k, v, rfl⟩ | rfl | ⟨j, rfl⟩
            · rw [exec_rds] at h; rw [← next_inj h]; exact ⟨rfl, rfl⟩
            · rw [exec_init hp] at h; rw [← next_inj h]; exact ⟨rfl, rfl⟩
            · rw [exec_wrb hp] at h; rw [← next_inj h]; exact ⟨rfl, rfl⟩
            · rw [exec_wrw hp] at h; rw [← next_inj h]; exact ⟨rfl, by simp⟩
            · rw [exec_go hp] at h; rw [← next_inj h]; exact ⟨rfl, rfl⟩
            · rw [exec_rdb hp] at h; rw [← next_inj h]; exact ⟨rfl, rfl⟩
          · have hi : i = .rds := by
              by_contra hi; rw [accepts_busy hp hd hi] at ha; cases ha
            rw [hi, exec_rds] at h; rw [← next_inj h]; exact ⟨rfl, rfl⟩
      have := coreMovesLeft_le t
      rw [hw, hwt, hn.1, hn.2, hc, if_pos rfl, if_neg (by simp)]; omega

theorem work_shorter {s t : State} {e : Event} {es : List Event} (he : s.events = e :: es)
    (hm : Move (s.setEvents es) t) : work t < work s := by
  obtain ⟨h1, h2, -⟩ := move_frame hm
  rw [setEvents_cmd] at h1
  rw [setEvents_events] at h2
  have := coreMovesLeft_le t
  unfold work; rw [h2, he, List.length_cons]
  rcases h1 with h1 | h1 <;> rw [h1] <;> split <;> simp <;> omega

/-- A step that is no reset, in a state that is not done. -/
theorem quiet_of_step {s t : State} (h : step s = .next t) (hr : ∀ es, s.events ≠ .reset :: es) (hd : ¬ Done s) :
    Quiet s t := by
  have self : s.setEvents s.events = s := rfl
  cases he : s.events with
  | nil =>
    rw [step_default he] at h
    obtain ⟨t', ht, hm⟩ := defaultMove_move s
    rw [ht] at h
    obtain rfl := next_inj h
    refine .moved s.events t' (by rw [self]; exact hm) (fun _ => rfl) rfl (work_default ht ?_)
    by_contra hn
    push Not at hn
    exact hd ⟨he, hn.1, hn.2⟩
  | cons e es =>
    cases e with
    | reset => exact absurd he (hr es)
    | port =>
      rw [step_port he] at h
      obtain ⟨t', ht, hm⟩ := portMove_move (s.setEvents es)
      rw [ht] at h
      obtain rfl := next_inj h
      exact .moved es t' hm (fun _ => by rw [he, wordsTaken]) (by rw [he]; rfl) (work_shorter he hm)
    | core =>
      rw [step_core he] at h
      obtain ⟨t', ht, hm⟩ := coreMove_move (s.setEvents es)
      rw [ht] at h
      obtain rfl := next_inj h
      exact .moved es t' hm (fun _ => by rw [he, wordsTaken]) (by rw [he]; rfl) (work_shorter he hm)
    | offer w =>
      cases hc : s.cmd with
      | none => rw [step_offer he hc] at h; obtain rfl := next_inj h; exact .offered w es he hc
      | some w' =>
        rw [step_waiting he hc] at h
        obtain ⟨t', ht, hm⟩ := defaultMove_move s
        rw [ht] at h
        obtain rfl := next_inj h
        exact .moved s.events t' (by rw [self]; exact hm) (fun _ => rfl) rfl (work_default ht (.inl (by rw [hc]; simp)))

/-! ## Lists of commands -/

theorem effects_cons (i : Instr) (program : List Instr) (q : Quad) (m : Nat → Byte) :
    effects (i :: program) q m = effects program (commandEffect i q m).1 (commandEffect i q m).2 := rfl

theorem effects_append (p p' : List Instr) (q : Quad) (m : Nat → Byte) :
    effects (p ++ p') q m = effects p' (effects p q m).1 (effects p q m).2 := by
  unfold effects; rw [List.foldl_append]

theorem commandsOf_ok {w : CmdWord} {i : Instr} (h : decodeCommand w = .ok i) (words : List CmdWord) :
    commandsOf (w :: words) = i :: commandsOf words := by
  unfold commandsOf; rw [List.filterMap_cons, h]; rfl

theorem commandsOf_error {w : CmdWord} {e : DecodeError} (h : decodeCommand w = .error e) (words : List CmdWord) :
    commandsOf (w :: words) = commandsOf words := by
  unfold commandsOf; rw [List.filterMap_cons, h]; rfl

theorem commandsOf_append (words words' : List CmdWord) :
    commandsOf (words ++ words') = commandsOf words ++ commandsOf words' := by
  unfold commandsOf; rw [List.filterMap_append]

/-- Words are taken and answered one after the other, from the registers `q` and the bytes `m` on. -/
inductive Exchanged : List CmdWord → Quad → (Nat → Byte) → List Heard → Prop where
  | nil (q : Quad) (m : Nat → Byte) : Exchanged [] q m []
  | refused {w : CmdWord} {e : DecodeError} {words : List CmdWord} {q : Quad} {m : Nat → Byte} {trace : List Heard}
      (hd : decodeCommand w = .error e) (h : Exchanged words q m trace) :
      Exchanged (w :: words) q m (.answered w (rspWord 1 0) :: trace)
  | taken {w : CmdWord} {i : Instr} {r : RspWord} {words : List CmdWord} {q : Quad} {m : Nat → Byte} {trace : List Heard}
      (hd : decodeCommand w = .ok i) (ha : ∀ r', answerOf i q = some r' → r = r')
      (h : Exchanged words (commandEffect i q m).1 (commandEffect i q m).2 trace) :
      Exchanged (w :: words) q m (.answered w r :: trace)

/-- Every word is answered, in order. -/
theorem Exchanged.words {words : List CmdWord} {q : Quad} {m : Nat → Byte} {trace : List Heard}
    (h : Exchanged words q m trace) : trace.map Heard.word = words.map some := by
  induction h with
  | nil => rfl
  | refused _ _ ih => rw [List.map_cons, List.map_cons, ih]; rfl
  | taken _ _ _ ih => rw [List.map_cons, List.map_cons, ih]; rfl

/-- The answer at a place of the trace is that of its word in the state the commands before it leave. -/
theorem Exchanged.split {words : List CmdWord} {q : Quad} {m : Nat → Byte} {xs ys : List Heard} {h : Heard}
    (hx : Exchanged words q m (xs ++ h :: ys)) : ∃ w r before rest, h = .answered w r ∧ words = before ++ w :: rest ∧
      Exchanged before q m xs ∧ ys.map Heard.word = rest.map some ∧
      ((r = rspWord 1 0 ∧ ∃ e, decodeCommand w = .error e) ∨
        ∃ i, decodeCommand w = .ok i ∧ ∀ r', answerOf i (effects (commandsOf before) q m).1 = some r' → r = r') := by
  induction xs generalizing words q m with
  | nil =>
    cases hx with
    | refused hd hx => exact ⟨_, _, [], _, rfl, rfl, .nil q m, hx.words, .inl ⟨rfl, _, hd⟩⟩
    | taken hd ha hx => exact ⟨_, _, [], _, rfl, rfl, .nil q m, hx.words, .inr ⟨_, hd, ha⟩⟩
  | cons x xs ih =>
    cases hx with
    | refused hd hx =>
      obtain ⟨w, r, before, rest, h1, h2, h3, h4, h5⟩ := ih hx
      exact ⟨w, r, _ :: before, rest, h1, by rw [h2]; rfl, .refused hd h3, h4, by rwa [commandsOf_error hd]⟩
    | taken hd ha hx =>
      obtain ⟨w, r, before, rest, h1, h2, h3, h4, h5⟩ := ih hx
      exact ⟨w, r, _ :: before, rest, h1, by rw [h2]; rfl, .taken hd ha h3, h4, by
        rwa [commandsOf_ok hd, effects_cons]⟩

/-! ## The words still to be taken -/

theorem wordsTaken_append (port : List CmdWord) (ws : List CmdWord) (es : List Event) (h : es.count .reset = 0) :
    wordsTaken (port ++ ws) es = port ++ wordsTaken ws es := by
  induction es generalizing ws with
  | nil => rfl
  | cons e es ih =>
    cases e with
    | reset => simp at h
    | offer w => rw [wordsTaken, wordsTaken, List.append_assoc]; exact ih _ (by simpa using h)
    | port => rw [wordsTaken, wordsTaken]; exact ih _ (by simpa using h)
    | core => rw [wordsTaken, wordsTaken]; exact ih _ (by simpa using h)

/-- A reset to come drops what is on the port. -/
theorem wordsTaken_reset (port port' : List CmdWord) (es : List Event) (h : es.count .reset ≠ 0) :
    wordsTaken port es = wordsTaken port' es := by
  induction es generalizing port port' with
  | nil => exact absurd rfl h
  | cons e es ih =>
    cases e with
    | reset => rfl
    | offer w => rw [wordsTaken, wordsTaken]; exact ih _ _ (by simpa using h)
    | port => rw [wordsTaken, wordsTaken]; exact ih _ _ (by simpa using h)
    | core => rw [wordsTaken, wordsTaken]; exact ih _ _ (by simpa using h)

/-- The word on the port is the first of those to be taken, when no reset is to come. -/
theorem pending_taken {s t : State} {w : CmdWord} (ht : t.pending = wordsTaken t.cmd.toList s.events)
    (hc : s.cmd = some w) (hn : t.cmd = none) (h0 : s.resetsLeft = 0) : s.pending = w :: t.pending := by
  rw [ht, hn]; unfold State.pending; rw [hc]; exact wordsTaken_append [w] [] s.events h0

theorem base_eq {s t : State} (hr : t.resetsLeft = s.resetsLeft) (hd : t.draw = s.draw)
    (h : s.resetsLeft = 0 → t.settled = s.settled ∧ t.memByte = s.memByte) : t.base = s.base := by
  unfold State.base
  rw [hr, hd]
  split
  · rename_i h0; rw [(h h0).1, (h h0).2]
  · rfl

theorem base_reset {s : State} {es : List Event} (he : s.events = .reset :: es) :
    ((s.setEvents es).resetNow).base = s.base := by
  have h1 : s.resetsLeft = es.count .reset + 1 := by unfold State.resetsLeft; rw [he]; simp
  have h2 : ((s.setEvents es).resetNow).resetsLeft = es.count .reset := rfl
  have h3 : ((s.setEvents es).resetNow).draw = s.draw + 1 := rfl
  unfold State.base
  rw [h1, h2, h3, if_neg (Nat.succ_ne_zero _)]
  split
  · rename_i h0; rw [h0]; rfl
  · rw [Nat.add_assoc, Nat.add_comm 1]

/-! ## What the host hears in one step -/

theorem heardIn_reset {s t : State} {es : List Event} (h : s.events = .reset :: es) : heardIn s t = [.reset] := by
  unfold heardIn; rw [h]; rfl

theorem heardIn_none {s t : State} (h : ∀ es, s.events ≠ .reset :: es) (hc : t.cmd = s.cmd ∨ s.cmd = none) :
    heardIn s t = [] := by
  unfold heardIn
  rw [if_neg (by cases he : s.events with | nil => simp | cons e es => rintro h'; exact h es (by rw [he]; simpa using h'))]
  split
  · rename_i ht
    have : s.cmd = none := by rcases hc with hc | hc; exacts [by rw [← hc, ht], hc]
    rw [this]; rfl
  · rfl

theorem heardIn_answer {s t : State} {w : CmdWord} {r : RspWord} (h : ∀ es, s.events ≠ .reset :: es) (hc : s.cmd = some w)
    (ht : t.cmd = none) (hr : t.rsp = some r) : heardIn s t = [.answered w r] := by
  unfold heardIn
  rw [if_neg (by cases he : s.events with | nil => simp | cons e es => rintro h'; exact h es (by rw [he]; simpa using h')),
    if_pos ht, hc, hr]
  rfl

/-! ## Runs of a host that comes to its end -/

/-- 20_memory.md R61 with 00_scope.md R19: whatever the order against the core, the offered words are all taken, in order,
each with its whole effect and its answer; of the words before a reset nothing is left. -/
theorem run_commands (N : Nat) : ∀ s : State, work s ≤ N → s.SCHED = schedule →
    ∃ n t before since, run n s = .next t ∧ Done t ∧ t.draw = s.draw + s.resetsLeft ∧
      (t.regs, t.memByte) = effects (commandsOf s.pending) s.base.1 s.base.2 ∧
      heard n s = before ++ since ∧ (s.resetsLeft = 0 → before = []) ∧ Exchanged s.pending s.base.1 s.base.2 since := by
  have done : ∀ s : State, Done s → ∃ n t before since, run n s = .next t ∧ Done t ∧ t.draw = s.draw + s.resetsLeft ∧
      (t.regs, t.memByte) = effects (commandsOf s.pending) s.base.1 s.base.2 ∧
      heard n s = before ++ since ∧ (s.resetsLeft = 0 → before = []) ∧ Exchanged s.pending s.base.1 s.base.2 since := by
    intro s hd
    have hp : s.pending = [] := by unfold State.pending; rw [hd.1, hd.2.1]; rfl
    have hl : s.resetsLeft = 0 := by unfold State.resetsLeft; rw [hd.1]; rfl
    have hb : s.base = (s.regs, s.memByte) := by
      unfold State.base; rw [if_pos hl, settled_idle hd.2.2]
    refine ⟨0, s, [], [], rfl, hd, by rw [hl]; rfl, ?_, rfl, fun _ => rfl, ?_⟩
    · rw [hp, hb]; rfl
    · rw [hp]; exact .nil ..
  induction N with
  | zero =>
    intro s hN _
    have hw : 140 * s.events.length + (if s.cmd = none then 0 else 70) + coreMovesLeft s ≤ 0 := hN
    refine done s ⟨List.length_eq_zero_iff.1 (by omega), ?_, ?_⟩
    · by_contra hc; rw [if_neg hc] at hw; omega
    · by_contra hi; have := coreMovesLeft_coreNext hi; omega
  | succ N ih =>
    intro s hN ht
    by_cases hd : Done s
    · exact done s hd
    obtain ⟨t, hs, -⟩ := step_transition s
    by_cases hres : ∃ es, s.events = .reset :: es
    · obtain ⟨es, he⟩ := hres
      rw [step_reset he] at hs
      obtain rfl := next_inj hs
      have hw : work ((s.setEvents es).resetNow) ≤ N := by
        have h1 : work s = 140 * s.events.length + (if s.cmd = none then 0 else 70) + coreMovesLeft s := rfl
        have h2 : work ((s.setEvents es).resetNow) = 140 * es.length + 0 + 0 := rfl
        rw [he, List.length_cons] at h1; omega
      have hp : ((s.setEvents es).resetNow).pending = s.pending := by
        unfold State.pending; rw [he]; rfl
      obtain ⟨n, u, before, since, hu, h1, h2, h3, h4, hbef, h5⟩ := ih _ hw ht
      rw [hp, base_reset he] at h3 h5
      have e3 : s.resetsLeft = es.count .reset + 1 := by unfold State.resetsLeft; rw [he]; simp
      refine ⟨n + 1, u, .reset :: before, since, by rw [run_succ (step_reset he), hu], h1, ?_, h3, ?_,
        fun h => by omega, h5⟩
      · have e1 : ((s.setEvents es).resetNow).draw = s.draw + 1 := rfl
        have e2 : ((s.setEvents es).resetNow).resetsLeft = es.count .reset := rfl
        rw [h2, e1, e2, e3]; omega
      · rw [heard_succ (step_reset he), heardIn_reset he, h4]; rfl
    have hr : ∀ es, s.events ≠ .reset :: es := fun es he => hres ⟨es, he⟩
    cases quiet_of_step hs hr hd with
    | offered w es he hc =>
      have hw : work ((s.setEvents es).place w) ≤ N := by
        have h1 : work s = 140 * s.events.length + (if s.cmd = none then 0 else 70) + coreMovesLeft s := rfl
        have h2 : work ((s.setEvents es).place w) = 140 * es.length + 70 + coreMovesLeft s := rfl
        rw [hc, if_pos rfl, he, List.length_cons] at h1; omega
      have hp : ((s.setEvents es).place w).pending = s.pending := by
        unfold State.pending; rw [hc, he]; rfl
      have hl : ((s.setEvents es).place w).resetsLeft = s.resetsLeft := by
        unfold State.resetsLeft; rw [he]; simp
      have hb : ((s.setEvents es).place w).base = s.base := base_eq hl rfl fun _ => ⟨rfl, rfl⟩
      obtain ⟨n, u, before, since, hu, h1, h2, h3, h4, hbef, h5⟩ := ih _ hw ht
      rw [hp, hb] at h3 h5
      refine ⟨n + 1, u, before, since, by rw [run_succ hs, hu], h1, by rw [h2, hl]; rfl, h3, ?_, by rwa [hl] at hbef, h5⟩
      rw [heard_succ hs, heardIn_none hr (.inr hc), h4]; rfl
    | moved es t hm he hcount hlt =>
      obtain ⟨-, f2, f3⟩ := move_frame hm
      rw [setEvents_events] at f2
      have hdraw : t.draw = s.draw := (move_draw hm).trans rfl
      have hl : t.resetsLeft = s.resetsLeft := by unfold State.resetsLeft; rw [f2, hcount]
      obtain ⟨n, u, before, since, hu, h1, h2, h3, h4, hbef, h5⟩ := ih t (by omega) (f3.trans ht)
      rw [hl] at hbef
      refine ⟨n + 1, u, ?_⟩
      have hrun : run (n + 1) s = .next u := by rw [run_succ hs, hu]
      have hdr : u.draw = s.draw + s.resetsLeft := by rw [h2, hl, hdraw]
      have hpt : t.pending = wordsTaken t.cmd.toList s.events := by unfold State.pending; rw [f2, he]
      cases seen_of_move (u := s.setEvents es) ht hm with
      | nothing g1 g2 g3 g4 =>
        have hp : t.pending = s.pending := by rw [hpt, g3]; rfl
        have hb : t.base = s.base := base_eq hl hdraw fun _ => ⟨g1, g2⟩
        rw [hp, hb] at h3 h5
        refine ⟨before, since, hrun, h1, hdr, h3, ?_, hbef, h5⟩
        rw [heard_succ hs, heardIn_none hr (.inl g3), h4]; rfl
      | refused w e hc hdec g1 g2 g3 g4 =>
        rw [setEvents_cmd] at hc
        have hb : t.base = s.base := base_eq hl hdraw fun _ => ⟨g1, g2⟩
        have hh : heard (n + 1) s = .answered w (rspWord 1 0) :: (before ++ since) := by
          rw [heard_succ hs, heardIn_answer hr hc g3 g4, h4]; rfl
        rw [hb] at h3 h5
        by_cases h0 : s.resetsLeft = 0
        · rw [pending_taken hpt hc g3 h0]
          refine ⟨[], _, hrun, h1, hdr, ?_, by rw [hh, hbef h0]; rfl, fun _ => rfl, .refused hdec h5⟩
          rw [h3, commandsOf_error hdec]
        · have hp : t.pending = s.pending := by rw [hpt]; exact wordsTaken_reset _ _ _ h0
          rw [hp] at h3 h5
          exact ⟨_ :: before, since, hrun, h1, hdr, h3, hh, fun h => absurd h h0, h5⟩
      | taken w i r hc hdec g1 g2 g3 g4 g5 =>
        rw [setEvents_cmd] at hc
        rw [settled_setEvents] at g1 g2 g5
        have hh : heard (n + 1) s = .answered w r :: (before ++ since) := by
          rw [heard_succ hs, heardIn_answer hr hc g3 g4, h4]; rfl
        by_cases h0 : s.resetsLeft = 0
        · have hbs : s.base = (s.settled, s.memByte) := if_pos h0
          have hbt : t.base = commandEffect i s.settled s.memByte := by
            unfold State.base; rw [if_pos (hl.trans h0), g1, g2]; rfl
          rw [hbt] at h3 h5
          rw [pending_taken hpt hc g3 h0, hbs]
          refine ⟨[], _, hrun, h1, hdr, ?_, by rw [hh, hbef h0]; rfl, fun _ => rfl, .taken hdec g5 h5⟩
          rw [h3, commandsOf_ok hdec, effects_cons]
        · have hp : t.pending = s.pending := by rw [hpt]; exact wordsTaken_reset _ _ _ h0
          have hb : t.base = s.base := base_eq hl hdraw fun h => absurd h h0
          rw [hp, hb] at h3 h5
          exact ⟨_ :: before, since, hrun, h1, hdr, h3, hh, fun h => absurd h h0, h5⟩

end Sys2Proof.Machine
end

