-- ==== Sys2Proof/Laws/Endless.lean ====
section
/-! SUPPORT. Runs fed by a world that never stops (46_digest_and_driver.md R214), and what one event does to a block in
progress. -/

namespace Sys2Proof.Machine

open Sys2Proof

theorem fed_succ {input : Nat → List Event} {s t : State} (h : step (s.feed (input 0)) = .next t) (n : Nat) :
    fed input (n + 1) s = fed (fun k => input (k + 1)) n t := by rw [fed, h]

theorem heardFed_succ {input : Nat → List Event} {s t : State} (h : step (s.feed (input 0)) = .next t) (n : Nat) :
    heardFed input (n + 1) s = heardIn (s.feed (input 0)) t ++ heardFed (fun k => input (k + 1)) n t := by
  rw [heardFed, h]

/-- A fed run goes on from any state it has reached, with the rest of its input. -/
theorem fed_add {input : Nat → List Event} {m : Nat} {s t : State} (h : fed input m s = .next t) (n : Nat) :
    fed input (m + n) s = fed (fun k => input (k + m)) n t ∧
      heardFed input (m + n) s = heardFed input m s ++ heardFed (fun k => input (k + m)) n t := by
  induction m generalizing input s with
  | zero => cases h; rw [Nat.zero_add]; exact ⟨rfl, rfl⟩
  | succ m ih =>
    obtain ⟨u, hu, -⟩ := step_transition (s.feed (input 0))
    rw [fed_succ hu] at h
    obtain ⟨h1, h2⟩ := ih h
    rw [Nat.succ_add, fed_succ hu, heardFed_succ hu, heardFed_succ hu, h1, h2]
    exact ⟨rfl, by rw [List.append_assoc]; rfl⟩

theorem againAndAgain_later {p : Event → Prop} {input : Nat → List Event} (h : againAndAgain p input) (m : Nat) :
    againAndAgain p fun k => input (k + m) := by
  intro n
  obtain ⟨k, hk, e, he, hp⟩ := h (n + m)
  refine ⟨k - m, by omega, e, ?_, hp⟩
  show e ∈ input (k - m + m)
  rw [show k - m + m = k by omega]; exact he

/-- The move of the port while a block is in progress: an acceptable word leaves it, and nothing else changes. -/
theorem portMove_busy {u t : State} (hu : u.PH ≠ .idle) (ht : portMove u = .next t) :
    t.PH = u.PH ∧ coreMovesLeft t = coreMovesLeft u ∧ t.events = u.events ∧ (u.cmdReady = true → t.cmd = none) := by
  unfold portMove at ht
  split at ht
  · rename_i hc
    cases ht
    exact ⟨rfl, rfl, rfl, fun _ => hc⟩
  · rename_i w hc
    split at ht
    · rename_i i hd
      by_cases hi : i = .rds
      · subst hi; rw [exec_rds] at ht; cases ht; exact ⟨rfl, rfl, rfl, fun _ => rfl⟩
      · have held : isHeldCommand i = true := by
          rcases decodeCommand_not_step hd with rfl | rfl | ⟨j, v, rfl⟩ | ⟨k, v, rfl⟩ | rfl | ⟨j, rfl⟩
          · exact absurd rfl hi
          all_goals rfl
        rw [exec_held held hu] at ht
        cases ht
        refine ⟨rfl, rfl, rfl, fun h => ?_⟩
        unfold State.cmdReady at h
        rw [hc] at h
        exact absurd h (by simp [accepts_busy hu hd hi])
    · cases ht; exact ⟨rfl, rfl, rfl, fun _ => rfl⟩

/-- One step of a block in progress with the event `e` first: the block ends (by a reset or its add-back), or the core moves,
or the event is used up, or an offer waits while the word on the port is taken. -/
theorem busy_step {u : State} {e : Event} {rest : List Event} (he : u.events = e :: rest) (hp : u.PH ≠ .idle) :
    ∃ t, step u = .next t ∧ (t.PH = .idle ∨ coreMovesLeft t < coreMovesLeft u ∨
      (e ≠ .core ∧ t.PH = u.PH ∧ coreMovesLeft t = coreMovesLeft u ∧
        (t.events = rest ∨ t.events = e :: rest ∧ u.cmd ≠ none ∧ t.cmd = none))) := by
  cases e with
  | reset => exact ⟨_, step_reset he, .inl rfl⟩
  | core =>
    exact ⟨_, by rw [step_core he, coreMove_eq], .inr (.inl (coreMovesLeft_coreNext (s := u.setEvents rest) hp))⟩
  | port =>
    obtain ⟨t, ht, -⟩ := portMove_move (u.setEvents rest)
    obtain ⟨h1, h2, h3, -⟩ := portMove_busy (u := u.setEvents rest) hp ht
    exact ⟨t, by rw [step_port he, ht], .inr (.inr ⟨by simp, h1, h2, .inl h3⟩)⟩
  | offer w =>
    cases hc : u.cmd with
    | none => exact ⟨_, step_offer he hc, .inr (.inr ⟨by simp, rfl, rfl, .inl rfl⟩)⟩
    | some w' =>
      rw [step_waiting he hc]
      unfold defaultMove
      split
      · rename_i hr
        obtain ⟨t, ht, -⟩ := portMove_move u
        obtain ⟨h1, h2, h3, h4⟩ := portMove_busy hp ht
        exact ⟨t, ht, .inr (.inr ⟨by simp, h1, h2, .inr ⟨by rw [h3, he], by simp, h4 hr⟩⟩)⟩
      · exact ⟨_, coreMove_eq u, .inr (.inl (coreMovesLeft_coreNext hp))⟩

end Sys2Proof.Machine
end

