-- ==== Sys2Proof/Laws/Procedure.lean ====
section
/-! SUPPORT. What the procedure for one message computes (46_digest_and_driver.md R212), in all its orders and mixtures. -/

namespace Sys2Proof.Machine

open Sys2Proof

/-! ## The words of a procedure -/

/-- The words of host commands, as the assembler writes them, spell those commands. -/
theorem commandsOf_encoded (program : List Instr) (h : ∀ i ∈ program, ∃ w, encode i = .command w) :
    commandsOf (program.filterMap commandOf) = program := by
  induction program with
  | nil => rfl
  | cons i program ih =>
    obtain ⟨w, he⟩ := h i (List.mem_cons_self ..)
    have hc : commandOf i = some w := by unfold commandOf; rw [he]
    have hd : decodeCommand w = .ok i := by
      have hrt : Laws.RoundTrip.Statement i := by
        cases i with
        | rds => exact Laws.RoundTrip.rds
        | init => exact Laws.RoundTrip.init
        | wrb j v => exact Laws.RoundTrip.wrb j v
        | wrw k v => exact Laws.RoundTrip.wrw k v
        | go => exact Laws.RoundTrip.go
        | rdb j => exact Laws.RoundTrip.rdb j
        | stepF | stepG | stepH | stepI => cases he
      unfold Laws.RoundTrip.Statement at hrt; rw [he] at hrt; exact hrt
    rw [List.filterMap_cons_some hc, commandsOf_ok hd, ih fun j hj => h j (List.mem_cons_of_mem _ hj)]

/-! ## The bytes of a block -/

/-- The byte that commands leave at an address, when those that write there all write the same byte and one does. -/
theorem lastWrite_eq {p : Nat} {v : Byte} {program : List Instr}
    (h : ∀ i ∈ program, ∀ u, writeAt p i = some u → u = v) (hw : ∃ i ∈ program, writeAt p i = some v) :
    lastWrite p program = some v := by
  have key : ∀ (program : List Instr) (o : Option Byte), (∀ i ∈ program, ∀ u, writeAt p i = some u → u = v) →
      (o = some v ∨ ∃ i ∈ program, writeAt p i = some v) →
      program.foldl (fun o i => (writeAt p i).or o) o = some v := by
    intro program
    induction program with
    | nil => intro o _ h; exact h.resolve_right fun ⟨i, hi, _⟩ => by cases hi
    | cons i program ih =>
      intro o h ho
      rw [List.foldl_cons]
      refine ih _ (fun j hj => h j (List.mem_cons_of_mem _ hj)) ?_
      cases hi : writeAt p i with
      | some u => rw [h i (List.mem_cons_self ..) u hi]; exact .inl rfl
      | none =>
        rcases ho with ho | ⟨j, hj, hv⟩
        · exact .inl (by rw [ho]; rfl)
        · rcases List.mem_cons.1 hj with rfl | hj
          · rw [hi] at hv; cases hv
          · exact .inr ⟨j, hj, hv⟩
  exact key program none h (.inr hw)

theorem lastWrite_append (p : Nat) (program program' : List Instr) :
    lastWrite p (program ++ program') = (lastWrite p program').or (lastWrite p program) := by
  have key : ∀ (program : List Instr) (o : Option Byte),
      program.foldl (fun v i => (writeAt p i).or v) o = (program.foldl (fun v i => (writeAt p i).or v) none).or o := by
    intro program
    induction program with
    | nil => intro o; rfl
    | cons i program ih =>
      intro o
      rw [List.foldl_cons, List.foldl_cons, ih, ih ((writeAt p i).or none)]
      cases writeAt p i <;> simp
  unfold lastWrite; rw [List.foldl_append]; exact key program' _

theorem written_append (program program' : List Instr) (m : Nat → Byte) :
    written (program ++ program') m = written program' (written program m) := by
  funext p
  unfold written; rw [lastWrite_append]
  cases lastWrite p program' <;> rfl

theorem written_nil (m : Nat → Byte) : written [] m = m := rfl

theorem commandEffect_keeps {i : Instr} (h : keepsRegisters i = true) (q : Quad) (m : Nat → Byte) :
    commandEffect i q m = (q, written [i] m) := by
  cases i with
  | rds => rfl
  | wrb j v => unfold written lastWrite; simp [commandEffect]
  | wrw k w => unfold written lastWrite; simp [commandEffect]
  | rdb j => rfl
  | init | go | stepF | stepG | stepH | stepI => cases h

/-- Writes, reads and polls leave the registers alone and leave at each address the last byte written there. -/
theorem effects_keeps (part : List Instr) (h : ∀ i ∈ part, keepsRegisters i = true) (q : Quad) (m : Nat → Byte) :
    effects part q m = (q, written part m) := by
  induction part generalizing m with
  | nil => rfl
  | cons i part ih =>
    rw [effects_cons, commandEffect_keeps (h i (List.mem_cons_self ..)), ih fun j hj => h j (List.mem_cons_of_mem _ hj)]
    exact congrArg (Prod.mk q) (written_append [i] part m).symm

/-- The words of a buffer that holds the bytes of block `n` are the words of block `n` (43_padding.md R144). -/
theorem wordsOf_block {P : List Byte} {n : Nat} {m : Nat → Byte} (hP : 64 * n + 64 ≤ P.length)
    (hm : ∀ p, p < 64 → P[64 * n + p]? = some (m p)) : wordsOf m = blockOf (wordArray P) n := by
  funext k
  have hk := k.isLt
  have byte : ∀ c, c < 4 → m (4 * k.toNat + c) = P.getD (4 * (16 * n + k.toNat) + c) 0 := by
    intro c hc
    rw [List.getD_eq_getElem?_getD, show 4 * (16 * n + k.toNat) + c = 64 * n + (4 * k.toNat + c) by omega,
      hm _ (by omega)]
    rfl
  unfold blockOf
  rw [wordArray_getD _ (by omega)]
  unfold wordsOf wordAt wordAddress
  rw [byte 3 (by omega), byte 2 (by omega), byte 1 (by omega)]
  have := byte 0 (by omega)
  rw [Nat.add_zero, Nat.add_zero] at this
  rw [this]

/-- A part that writes all 64 bytes of its block delivers it, whatever the buffer held and was written before. -/
theorem deliversBlock_of_all {P : List Byte} {m : Nat → Byte} {n : Nat} {parts : List (List Instr)} {part : List Instr}
    (hn : parts[n]? = some part) (hP : 64 * n + 64 ≤ P.length) (h : ∀ p, p < 64 → lastWrite p part = P[64 * n + p]?) :
    deliversBlock P m n (parts.take (n + 1)).flatten := by
  intro p hp
  have hin : 64 * n + p < P.length := by omega
  rw [List.take_add_one, hn, Option.toList_some, List.flatten_append, List.flatten_cons, List.flatten_nil, List.append_nil,
    written_append]
  unfold written
  rw [h p hp, List.getElem?_eq_getElem hin]; rfl

/-- One block of the procedure. -/
theorem effects_block {P : List Byte} {m₀ : Nat → Byte} {n : Nat} {sent part : List Instr} (hP : 64 * n + 64 ≤ P.length)
    (hk : ∀ i ∈ part, keepsRegisters i = true) (h : deliversBlock P m₀ n (sent ++ part)) (q : Quad) :
    effects (part ++ [.go]) q (written sent m₀) =
        (compress q (blockOf (wordArray P) n), written (sent ++ part) m₀) ∧
      wordsOf (written (sent ++ part) m₀) = blockOf (wordArray P) n := by
  have hw := wordsOf_block hP h
  refine ⟨?_, hw⟩
  rw [effects_append, effects_keeps part hk, ← written_append, ← hw]; rfl

/-- All blocks of the procedure, after those that the commands `sent` have delivered (44_compression_core.md R167). -/
theorem effects_blocks {P : List Byte} {m₀ : Nat → Byte} (parts : List (List Instr)) : ∀ (n : Nat) (sent : List Instr)
    (q : Quad), 64 * (n + parts.length) ≤ P.length → (∀ part ∈ parts, ∀ i ∈ part, keepsRegisters i = true) →
    (∀ d, d < parts.length → deliversBlock P m₀ (n + d) (sent ++ (parts.take (d + 1)).flatten)) →
    effects (parts.flatMap fun part => part ++ [.go]) q (written sent m₀) =
        (((List.range' n parts.length).map (blockOf (wordArray P))).foldl compress q, written (sent ++ parts.flatten) m₀) ∧
      (parts ≠ [] → wordsOf (written (sent ++ parts.flatten) m₀) = blockOf (wordArray P) (n + parts.length - 1)) := by
  induction parts with
  | nil => intro n sent q _ _ _; exact ⟨by simp [effects], fun h => absurd rfl h⟩
  | cons part parts ih =>
    intro n sent q hP hk h
    rw [List.length_cons] at hP
    have h0 := h 0 (by simp)
    rw [Nat.add_zero, List.take_succ_cons, List.take_zero, List.flatten_cons, List.flatten_nil, List.append_nil] at h0
    obtain ⟨h1, h2⟩ := effects_block (by omega) (hk part (List.mem_cons_self ..)) h0 q
    obtain ⟨h3, h4⟩ := ih (n + 1) (sent ++ part) (compress q (blockOf (wordArray P) n)) (by omega)
      (fun p hp => hk p (List.mem_cons_of_mem _ hp)) fun d hd => by
        have := h (d + 1) (by rw [List.length_cons]; omega)
        rwa [List.take_succ_cons, List.flatten_cons, ← List.append_assoc, show n + (d + 1) = n + 1 + d by omega] at this
    rw [List.flatten_cons, ← List.append_assoc]
    refine ⟨?_, fun _ => ?_⟩
    · rw [List.flatMap_cons, effects_append, h1, h3, List.length_cons, List.range'_succ, List.map_cons, List.foldl_cons]
    · rw [List.length_cons]
      cases parts with
      | nil => rw [List.flatten_nil, List.append_nil, h2]; rfl
      | cons p ps => rw [h4 (by simp)]; congr 1; omega

/-- Reads and polls change nothing. -/
theorem effects_reads (reads : List Instr) (h : ∀ i ∈ reads, readsOrPolls i = true) (q : Quad) (m : Nat → Byte) :
    effects reads q m = (q, m) := by
  induction reads with
  | nil => rfl
  | cons i reads ih =>
    have hi : commandEffect i q m = (q, m) := by
      have := h i (List.mem_cons_self ..)
      cases i with
      | rds => rfl
      | rdb j => rfl
      | init | go | wrb | wrw | stepF | stepG | stepH | stepI => cases this
    rw [effects_cons, hi]; exact ih fun j hj => h j (List.mem_cons_of_mem _ hj)

theorem padBytes_ge (msg : List Byte) : 64 ≤ (padBytes msg).length := by
  rw [padBytes_blocks]; unfold numBlocks; omega

/-- What the commands of a procedure leave: the final state of the message, and the last block in the buffer; and there is
a block. -/
theorem effects_procedure {msg P : List Byte} {m : Nat → Byte} {program : List Instr} (hP : pad msg = some P)
    (h : isProcedure P m program) (q : Quad) : ∃ m', effects program q m = (messageState P, m') ∧
      wordsOf m' = blockOf (wordArray P) (numBlocks msg.length - 1) := by
  obtain ⟨rfl, -⟩ := pad_eq_some hP
  obtain ⟨parts, reads, hl, hk, hd, hr, -, rfl⟩ := h
  have hge := padBytes_ge msg
  have hn : (padBytes msg).length / 64 = numBlocks msg.length := by rw [padBytes_blocks]; omega
  obtain ⟨h1, h2⟩ := effects_blocks (P := padBytes msg) (m₀ := m) parts 0 [] IV (by omega) hk fun d hd' => by
    rw [Nat.zero_add, List.nil_append]; exact hd d hd'
  rw [written_nil, List.nil_append] at h1
  rw [List.nil_append] at h2
  refine ⟨written parts.flatten m, ?_, ?_⟩
  · rw [List.cons_append, effects_cons, effects_append]
    show effects reads (effects _ IV m).1 (effects _ IV m).2 = _
    rw [h1, effects_reads reads hr, hl]
    unfold messageState compressAll blocksOf
    rw [List.range_eq_range']
  · rw [h2 (by rintro rfl; simp at hl; omega), hl, hn, Nat.zero_add]

end Sys2Proof.Machine
end

