-- ==== Sys2Proof/Laws/Exchange.lean ====
section
/-! SUPPORT. What the host makes of the answers it hears (46_digest_and_driver.md R212 step 4, R214). -/

namespace Sys2Proof.Machine

open Sys2Proof

/-! ## All values of a list -/

theorem allOf_eq_some {l : List (Option Byte)} {bytes : List Byte} : allOf l = some bytes ↔ l = bytes.map some := by
  induction l generalizing bytes with
  | nil => cases bytes <;> simp [allOf]
  | cons v l ih =>
    cases v with
    | none => cases bytes <;> simp [allOf]
    | some v =>
      cases bytes with
      | nil => simp [allOf]
      | cons u bytes => rw [allOf, List.map_cons]; simp [Option.map_eq_some_iff, ih, and_comm]

theorem allOf_eq_none {l : List (Option Byte)} : allOf l = none ↔ none ∈ l := by
  induction l with
  | nil => simp [allOf]
  | cons v l ih => cases v <;> simp [allOf, ih]

/-! ## The receiver -/

/-- The bytes are complete exactly when every place has its byte. -/
theorem result_eq_some {h : Receiver} {bytes : List Byte} :
    h.result = some bytes ↔ bytes.length = 16 ∧ ∀ j : BitVec 4, bytes[j.toNat]? = h.bytes[j.toNat]'j.isLt := by
  unfold Receiver.result
  rw [allOf_eq_some]
  constructor
  · intro e
    have hl := congrArg List.length e
    rw [Vector.length_toList, List.length_map] at hl
    refine ⟨hl.symm, fun j => ?_⟩
    have hj : j.toNat < bytes.length := by have := j.isLt; omega
    have : h.bytes.toList[j.toNat]? = (bytes.map some)[j.toNat]? := by rw [e]
    rw [List.getElem?_map, List.getElem?_eq_getElem (by rw [Vector.length_toList]; exact j.isLt),
      List.getElem?_eq_getElem hj, Option.map_some, Option.some_inj, Vector.getElem_toList] at this
    rw [List.getElem?_eq_getElem hj, this]
  · rintro ⟨hl, hb⟩
    refine List.ext_getElem (by rw [Vector.length_toList, List.length_map, hl]) fun n h1 h2 => ?_
    have hn : n < 16 := by rw [Vector.length_toList] at h1; exact h1
    have := hb (BitVec.ofNat 4 n)
    simp only [BitVec.toNat_ofNat, Nat.mod_eq_of_lt hn, show (2 : Nat) ^ 4 = 16 from rfl] at this
    rw [Vector.getElem_toList, List.getElem_map, ← this, List.getElem?_eq_getElem (by omega)]

theorem result_eq_none {h : Receiver} : h.result = none ↔ ∃ j : BitVec 4, h.bytes[j.toNat]'j.isLt = none := by
  unfold Receiver.result
  rw [allOf_eq_none, List.mem_iff_getElem]
  constructor
  · rintro ⟨n, hn, e⟩
    rw [Vector.length_toList] at hn
    refine ⟨BitVec.ofNat 4 n, ?_⟩
    simp only [BitVec.toNat_ofNat, Nat.mod_eq_of_lt hn, show (2 : Nat) ^ 4 = 16 from rfl]
    rw [← Vector.getElem_toList]; exact e
  · rintro ⟨j, e⟩
    exact ⟨j.toNat, by rw [Vector.length_toList]; exact j.isLt, by rw [Vector.getElem_toList]; exact e⟩

@[simp] theorem start_bytes (j : BitVec 4) : Receiver.start.bytes[j.toNat]'j.isLt = none := by
  simp [Receiver.start]

@[simp] theorem blank_result (n : Option Nat) : Receiver.result { Receiver.start with blocks := n } = none := by
  rw [result_eq_none]; exact ⟨0, start_bytes 0⟩

@[simp] theorem start_result : Receiver.start.result = none := blank_result none

theorem hearAll_nil (NB : Nat) (h : Receiver) : h.hearAll NB [] = h := rfl

theorem hearAll_cons (NB : Nat) (h : Receiver) (e : Heard) (trace : List Heard) :
    h.hearAll NB (e :: trace) = (h.hear NB e).hearAll NB trace := rfl

theorem hearAll_append (NB : Nat) (h : Receiver) (xs ys : List Heard) :
    h.hearAll NB (xs ++ ys) = (h.hearAll NB xs).hearAll NB ys := by
  unfold Receiver.hearAll; rw [List.foldl_append]

theorem hear_reset (NB : Nat) (h : Receiver) : h.hear NB .reset = Receiver.start := rfl

theorem hear_ok {w : CmdWord} {i : Instr} (hd : decodeCommand w = .ok i) (NB : Nat) (h : Receiver) (r : RspWord) :
    h.hear NB (.answered w r) = h.command NB i r := by unfold Receiver.hear; simp only [hd]

theorem hear_error {w : CmdWord} {e : DecodeError} (hd : decodeCommand w = .error e) (NB : Nat) (h : Receiver) (r : RspWord) :
    h.hear NB (.answered w r) = h := by unfold Receiver.hear; simp only [hd]

theorem command_go {h : Receiver} (hn : h.result = none) (NB : Nat) (r : RspWord) :
    h.command NB .go r = { Receiver.start with blocks := h.blocks.map (· + 1) } := if_pos hn

theorem command_go_ended {h : Receiver} (hn : h.result ≠ none) (NB : Nat) (r : RspWord) : h.command NB .go r = h := if_neg hn

theorem command_rdb {h : Receiver} {NB : Nat} (hb : h.blocks = some NB) (hn : h.result = none) (j : BitVec 4) (r : RspWord) :
    h.command NB (.rdb j) r = { h with bytes := h.bytes.set j.toNat (some (rspByte r)) j.isLt } := if_pos ⟨hb, hn⟩

theorem command_rdb_early {h : Receiver} {NB : Nat} (hb : h.blocks ≠ some NB) (j : BitVec 4) (r : RspWord) :
    h.command NB (.rdb j) r = h := if_neg fun hh => hb hh.1

theorem command_rdb_ended {h : Receiver} (hn : h.result ≠ none) (NB : Nat) (j : BitVec 4) (r : RspWord) :
    h.command NB (.rdb j) r = h := if_neg fun hh => hn hh.2

/-- A byte received stands at its place and moves no other. -/
theorem set_bytes (h : Receiver) (j k : BitVec 4) (v : Option Byte) :
    (h.bytes.set j.toNat v j.isLt)[k.toNat]'k.isLt = if j = k then v else h.bytes[k.toNat]'k.isLt := by
  rw [Vector.getElem_set]
  by_cases hjk : j = k
  · rw [if_pos (by rw [hjk]), if_pos hjk]
  · rw [if_neg (fun e => hjk (BitVec.eq_of_toNat_eq e)), if_neg hjk]

/-- The byte of the answer to an `RDB` (45_host_commands.md R190). -/
theorem rspByte_rdb (v : Byte) : rspByte (rspWord 0 (v.setWidth 32)) = v := by
  unfold rspByte rspWord
  apply BitVec.eq_of_toNat_eq
  have := v.isLt
  rw [BitVec.extractLsb'_toNat, BitVec.toNat_append, BitVec.toNat_setWidth]
  simp; omega

theorem digestBytes_length (q : Quad) : (digestBytes q).length = 16 := by
  unfold digestBytes; rw [List.length_map, List.length_range]

theorem digestBytes_getElem? (q : Quad) (j : BitVec 4) : (digestBytes q)[j.toNat]? = some (digestByte q j) := by
  have := j.isLt
  unfold digestBytes
  rw [List.getElem?_map, List.getElem?_range (by omega), Option.map_some, BitVec.ofNat_toNat, BitVec.setWidth_eq]

/-! ## The receiver along an exchange -/

/-- An exchange is cut where its commands are. -/
theorem Exchanged.cut {words : List CmdWord} {q : Quad} {m : Nat → Byte} {trace : List Heard}
    (hx : Exchanged words q m trace) : ∀ {c₁ c₂ : List Instr}, commandsOf words = c₁ ++ c₂ →
      ∃ w₁ w₂ t₁ t₂, words = w₁ ++ w₂ ∧ trace = t₁ ++ t₂ ∧ commandsOf w₁ = c₁ ∧ commandsOf w₂ = c₂ ∧
        Exchanged w₁ q m t₁ ∧ Exchanged w₂ (effects c₁ q m).1 (effects c₁ q m).2 t₂ := by
  induction hx with
  | nil q m =>
    intro c₁ c₂ h
    obtain ⟨rfl, rfl⟩ := List.append_eq_nil_iff.1 (show c₁ ++ c₂ = [] from h.symm)
    exact ⟨[], [], [], [], rfl, rfl, rfl, rfl, .nil .., .nil ..⟩
  | @refused w e words q m trace hd _ ih =>
    intro c₁ c₂ h
    rw [commandsOf_error hd] at h
    obtain ⟨w₁, w₂, t₁, t₂, h1, h2, h3, h4, h5, h6⟩ := ih h
    exact ⟨w :: w₁, w₂, _ :: t₁, t₂, by rw [h1]; rfl, by rw [h2]; rfl, by rw [commandsOf_error hd]; exact h3, h4,
      .refused hd h5, h6⟩
  | @taken w i r words q m trace hd ha hx ih =>
    intro c₁ c₂ h
    cases c₁ with
    | nil => exact ⟨[], w :: words, [], _, rfl, rfl, rfl, h, .nil .., .taken hd ha hx⟩
    | cons i' c₁ =>
      rw [commandsOf_ok hd, List.cons_append] at h
      obtain ⟨rfl, htail⟩ := List.cons.inj h
      obtain ⟨w₁, w₂, t₁, t₂, h1, h2, h3, h4, h5, h6⟩ := ih htail
      exact ⟨w :: w₁, w₂, _ :: t₁, t₂, by rw [h1]; rfl, by rw [h2]; rfl, by rw [commandsOf_ok hd, h3], h4,
        .taken hd ha h5, h6⟩

/-- What every command heard keeps, the exchange keeps. -/
theorem Exchanged.hear_keeps {words : List CmdWord} {q : Quad} {m : Nat → Byte} {trace : List Heard}
    (hx : Exchanged words q m trace) {NB : Nat} {I : Receiver → Prop}
    (hI : ∀ i ∈ commandsOf words, ∀ h r, I h → I (h.command NB i r)) {h : Receiver} (h0 : I h) : I (h.hearAll NB trace) := by
  induction hx generalizing h with
  | nil => exact h0
  | refused hd _ ih => rw [hearAll_cons, hear_error hd]; exact ih (by rw [commandsOf_error hd] at hI; exact hI) h0
  | taken hd _ _ ih =>
    rw [commandsOf_ok hd] at hI
    rw [hearAll_cons, hear_ok hd]
    exact ih (fun i hi => hI i (List.mem_cons_of_mem _ hi)) (hI _ (List.mem_cons_self ..) h _ h0)

/-- The exchange of one command, with words that spell none around it. -/
theorem Exchanged.hear_one {words : List CmdWord} {q : Quad} {m : Nat → Byte} {trace : List Heard} {i : Instr}
    (hx : Exchanged words q m trace) (hc : commandsOf words = [i]) (NB : Nat) (h : Receiver) :
    ∃ r, (∀ r', answerOf i q = some r' → r = r') ∧ h.hearAll NB trace = h.command NB i r := by
  induction hx with
  | nil => cases hc
  | refused hd _ ih =>
    rw [commandsOf_error hd] at hc
    obtain ⟨r, h1, h2⟩ := ih hc
    exact ⟨r, h1, by rw [hearAll_cons, hear_error hd, h2]⟩
  | taken hd ha hx _ =>
    rw [commandsOf_ok hd] at hc
    obtain ⟨rfl, hc'⟩ := List.cons.inj hc
    refine ⟨_, ha, ?_⟩
    rw [hearAll_cons, hear_ok hd]
    exact hx.hear_keeps (I := fun x => x = h.command NB _ _) (fun i hi => by rw [hc'] at hi; cases hi) rfl

/-- Before the last block an `RDB` tells the host nothing of the digest. -/
theorem command_keeps {i : Instr} (hk : keepsRegisters i = true) {NB : Nat} {h : Receiver} (hb : h.blocks ≠ some NB)
    (r : RspWord) : h.command NB i r = h := by
  cases i with
  | rds => rfl
  | wrb => rfl
  | wrw => rfl
  | rdb j => exact command_rdb_early hb j r
  | init | go | stepF | stepG | stepH | stepI => cases hk

end Sys2Proof.Machine
end

