-- ==== Sys2Proof/Laws/Sine.lean ====
section
/-! SUPPORT. The sines of 1 to 64 on integers, with a bound on the error: what the round constants are checked against
(42_transform_step.md R128). -/

namespace Sys2Proof.Machine

open Sys2Proof

/-- The exponential series at the imaginary unit, real and imaginary part. -/
theorem exp_sum (n : ℕ) : (∑ m ∈ Finset.range (2 * n), Complex.I ^ m / (m.factorial : ℂ)) =
    ((∑ k ∈ Finset.range n, (-1 : ℝ) ^ k / ((2 * k).factorial : ℝ) : ℝ) : ℂ) +
      ((∑ k ∈ Finset.range n, (-1 : ℝ) ^ k / ((2 * k + 1).factorial : ℝ) : ℝ) : ℂ) * Complex.I := by
  induction n with
  | zero => simp
  | succ n ih =>
    rw [show 2 * (n + 1) = 2 * n + 1 + 1 by ring, Finset.sum_range_succ, Finset.sum_range_succ, ih,
      Finset.sum_range_succ, Finset.sum_range_succ]
    have h1 : Complex.I ^ (2 * n) = ((-1 : ℝ) ^ n : ℝ) := by rw [pow_mul, Complex.I_sq]; push_cast; rfl
    rw [pow_succ, h1]
    push_cast; ring

/-- The real and the imaginary distance are at most the distance. -/
theorem abs_le_norm (a b p q : ℝ) : |a - p| ≤ ‖((a : ℂ) + b * Complex.I) - (p + q * Complex.I)‖ ∧
    |b - q| ≤ ‖((a : ℂ) + b * Complex.I) - (p + q * Complex.I)‖ := by
  refine ⟨le_trans (le_of_eq ?_) (Complex.abs_re_le_norm _), le_trans (le_of_eq ?_) (Complex.abs_im_le_norm _)⟩ <;> simp

/-- Cosine and sine of 1 by their first twenty terms. -/
theorem cos_sin_one : |Real.cos 1 - ∑ k ∈ Finset.range 20, (-1 : ℝ) ^ k / ((2 * k).factorial : ℝ)| ≤ 1 / 2 ^ 140 ∧
    |Real.sin 1 - ∑ k ∈ Finset.range 20, (-1 : ℝ) ^ k / ((2 * k + 1).factorial : ℝ)| ≤ 1 / 2 ^ 140 := by
  have h := Complex.exp_bound (x := Complex.I) (by simp) (n := 40) (by norm_num)
  rw [show (40 : ℕ) = 2 * 20 by rfl, exp_sum, Complex.norm_I, one_pow, one_mul] at h
  have hb : ((2 * 20 : ℕ).succ : ℝ) * (((2 * 20 : ℕ).factorial : ℝ) * ((2 * 20 : ℕ) : ℝ))⁻¹ ≤ 1 / 2 ^ 140 := by
    norm_num [Nat.factorial]
  have he : Complex.exp Complex.I = (Real.cos 1 : ℂ) + (Real.sin 1 : ℂ) * Complex.I := by
    have := Complex.exp_mul_I 1
    rw [one_mul] at this; rw [this]; push_cast; rfl
  rw [he] at h
  exact ⟨(abs_le_norm _ _ _ _).1.trans (h.trans hb), (abs_le_norm _ _ _ _).2.trans (h.trans hb)⟩

/-- `2^128` times the sine of 1, rounded down. -/
def sineOne : Int := 0xd76aa47848677020c6e9e909c50f3c32

/-- `2^128` times the cosine of 1, rounded down. -/
def cosineOne : Int := 0x8a51407da8345c91c2466d976871bd29

theorem sineOne_near : |2 ^ 128 * Real.sin 1 - (sineOne : ℝ)| ≤ 2 := by
  have h := cos_sin_one.2
  have e : |(∑ k ∈ Finset.range 20, (-1 : ℝ) ^ k / ((2 * k + 1).factorial : ℝ)) - (sineOne : ℝ) / 2 ^ 128| ≤
      1 / 2 ^ 128 := by
    unfold sineOne
    rw [abs_le]
    simp only [Finset.sum_range_succ, Finset.sum_range_zero, Nat.factorial]
    constructor <;> norm_num
  rw [abs_le] at *
  constructor <;> linarith [h.1, h.2, e.1, e.2]

theorem cosineOne_near : |2 ^ 128 * Real.cos 1 - (cosineOne : ℝ)| ≤ 2 := by
  have h := cos_sin_one.1
  have e : |(∑ k ∈ Finset.range 20, (-1 : ℝ) ^ k / ((2 * k).factorial : ℝ)) - (cosineOne : ℝ) / 2 ^ 128| ≤
      1 / 2 ^ 128 := by
    unfold cosineOne
    rw [abs_le]
    simp only [Finset.sum_range_succ, Finset.sum_range_zero, Nat.factorial]
    constructor <;> norm_num
  rw [abs_le] at *
  constructor <;> linarith [h.1, h.2, e.1, e.2]

/-- `2^128` times the sine and the cosine of `n + 1`, by the addition theorem on integers. -/
def sines : ℕ → Int × Int
  | 0 => (sineOne, cosineOne)
  | n + 1 => (((sines n).1 * cosineOne + (sines n).2 * sineOne) / 2 ^ 128,
      ((sines n).2 * cosineOne - (sines n).1 * sineOne) / 2 ^ 128)

/-- Rounding down moves by at most 1. -/
theorem floor_near (x : ℤ) : |((x / 2 ^ 128 : ℤ) : ℝ) - (x : ℝ) / 2 ^ 128| ≤ 1 := by
  have h1 : x / 2 ^ 128 * 2 ^ 128 ≤ x := Int.ediv_mul_le x (by norm_num)
  have h2 : x < (x / 2 ^ 128 + 1) * 2 ^ 128 := Int.lt_ediv_add_one_mul_self x (by norm_num)
  have h1' : ((x / 2 ^ 128 : ℤ) : ℝ) * 2 ^ 128 ≤ x := by exact_mod_cast h1
  have h2' : (x : ℝ) < (((x / 2 ^ 128 : ℤ) : ℝ) + 1) * 2 ^ 128 := by exact_mod_cast h2
  rw [abs_le]
  constructor
  · have : (x : ℝ) / 2 ^ 128 < ((x / 2 ^ 128 : ℤ) : ℝ) + 1 := by rw [div_lt_iff₀ (by positivity)]; exact h2'
    linarith
  · have : ((x / 2 ^ 128 : ℤ) : ℝ) ≤ (x : ℝ) / 2 ^ 128 := by rw [le_div_iff₀ (by positivity)]; exact h1'
    linarith

/-- A product of two scaled numbers, each with an error. -/
theorem product_near {a b s c e : ℝ} (ha : |a| ≤ 1) (hb : |b| ≤ 1) (hs : |2 ^ 128 * a - s| ≤ e)
    (hc : |2 ^ 128 * b - c| ≤ 2) (he : e ≤ 2 ^ 128) :
    |2 ^ 128 * (a * b) - s * c / 2 ^ 128| ≤ e + 4 := by
  have e1 : 2 ^ 128 * (a * b) - s * c / 2 ^ 128 = (2 ^ 128 * a - s) * b + s * ((2 ^ 128 * b - c) / 2 ^ 128) := by ring
  have h1 : |(2 ^ 128 * a - s) * b| ≤ e := by
    rw [abs_mul]; calc _ ≤ e * 1 := mul_le_mul hs hb (abs_nonneg _) ((abs_nonneg _).trans hs)
      _ = e := mul_one e
  have h2 : |s| ≤ 2 * 2 ^ 128 := by
    have : s = 2 ^ 128 * a - (2 ^ 128 * a - s) := by ring
    rw [this]
    refine (abs_sub _ _).trans ?_
    rw [abs_mul, abs_of_pos (show (0:ℝ) < 2 ^ 128 by positivity)]
    nlinarith
  have h3 : |(2 ^ 128 * b - c) / 2 ^ 128| ≤ 2 / 2 ^ 128 := by
    rw [abs_div, abs_of_pos (show (0:ℝ) < 2 ^ 128 by positivity)]; gcongr
  have h4 : |s * ((2 ^ 128 * b - c) / 2 ^ 128)| ≤ 4 := by
    rw [abs_mul]; calc _ ≤ 2 * 2 ^ 128 * (2 / 2 ^ 128) := mul_le_mul h2 h3 (abs_nonneg _) (by positivity)
      _ = 4 := by norm_num
  rw [e1]; exact (abs_add_le _ _).trans (add_le_add h1 h4)

/-- The integers are near the sines and cosines, with an error that at most doubles at each. -/
theorem sines_near (n : ℕ) (hn : n < 64) : |2 ^ 128 * Real.sin (n + 1) - ((sines n).1 : ℝ)| ≤ 16 * 2 ^ n - 9 ∧
    |2 ^ 128 * Real.cos (n + 1) - ((sines n).2 : ℝ)| ≤ 16 * 2 ^ n - 9 := by
  induction n with
  | zero =>
    have h1 := sineOne_near
    have h2 := cosineOne_near
    constructor
    · simp only [CharP.cast_eq_zero, zero_add, sines]; linarith
    · simp only [CharP.cast_eq_zero, zero_add, sines]; linarith
  | succ n ih =>
    obtain ⟨h1, h2⟩ := ih (by omega)
    have hE : (16 * 2 ^ n - 9 : ℝ) ≤ 2 ^ 128 := by
      have : (2:ℝ) ^ n ≤ 2 ^ 63 := pow_le_pow_right₀ (by norm_num) (by omega)
      linarith
    have ss := product_near (Real.abs_sin_le_one (n + 1)) (Real.abs_sin_le_one 1) h1 sineOne_near hE
    have sc := product_near (Real.abs_sin_le_one (n + 1)) (Real.abs_cos_le_one 1) h1 cosineOne_near hE
    have cs := product_near (Real.abs_cos_le_one (n + 1)) (Real.abs_sin_le_one 1) h2 sineOne_near hE
    have cc := product_near (Real.abs_cos_le_one (n + 1)) (Real.abs_cos_le_one 1) h2 cosineOne_near hE
    have f1 := floor_near ((sines n).1 * cosineOne + (sines n).2 * sineOne)
    have f2 := floor_near ((sines n).2 * cosineOne - (sines n).1 * sineOne)
    push_cast at f1 f2
    have e1 := Real.sin_add ((n : ℝ) + 1) 1
    have e2 := Real.cos_add ((n : ℝ) + 1) 1
    rw [abs_le] at *
    have p : (2:ℝ) ^ (n + 1) = 2 * 2 ^ n := by ring
    rw [show ((n + 1 : ℕ) : ℝ) + 1 = (n : ℝ) + 1 + 1 by push_cast; ring, e1, e2, p]
    simp only [sines]
    push_cast
    constructor
    · constructor <;> linarith [sc.1, sc.2, cs.1, cs.2, f1.1, f1.2]
    · rw [abs_le]; constructor <;> linarith [ss.1, ss.2, cc.1, cc.2, f2.1, f2.2]


/-- Each round constant stands where the integer sine puts it, with more room than the error needs. -/
theorem rows_check : ∀ i : Fin 64, ((rowT schedule[i]).toNat : ℤ) * 2 ^ 96 + 2 ^ 68 ≤ |(sines i).1| ∧
    |(sines i).1| + 2 ^ 68 < ((rowT schedule[i]).toNat + 1 : ℤ) * 2 ^ 96 := by decide +kernel

end Sys2Proof.Machine
end

