-- ==== Sys2Proof/Machine/Assembler.lean ====
section
/-! DEFINITION. The assembler text of an instruction (30_encoding.md R82), numbers in decimal. -/

namespace Sys2Proof.Machine

/-- Operands "separated by commas". -/
def operands (xs : List Nat) : String := " " ++ ", ".intercalate (xs.map fun n => toString n)

/-- R82: the mnemonic in capitals, then the operands. -/
def assembly : Instr → String
  | .rds => "RDS"
  | .init => "INIT"
  | .wrb j v => "WRB" ++ operands [j.toNat, v.toNat]
  | .wrw k w => "WRW" ++ operands [k.toNat, w.toNat]
  | .go => "GO"
  | .rdb j => "RDB" ++ operands [j.toNat]
  | .stepF k s T => "STEP.F" ++ operands [k.toNat, s.toNat, T.toNat]
  | .stepG k s T => "STEP.G" ++ operands [k.toNat, s.toNat, T.toNat]
  | .stepH k s T => "STEP.H" ++ operands [k.toNat, s.toNat, T.toNat]
  | .stepI k s T => "STEP.I" ++ operands [k.toNat, s.toNat, T.toNat]

end Sys2Proof.Machine
end

