-- ==== Sys2Proof/Tests/Slice0.lean ====
section
/-! SUPPORT. Tests, each expected result from the spec's own tables and worked examples (95_test_vectors.md and the rules
named), then one witness for the hypotheses of each obligation. -/

namespace Sys2Proof.Tests

open Sys2Proof Sys2Proof.Machine

/-! ## Small states -/

/-- What a field of the next state is. -/
def after {α : Type} (o : Host.Outcome State Fault Refusal) (f : State → α) : Option α :=
  match o with
  | .next t => some (f t)
  | .fault _ => none
  | .refused _ => none

/-- The state after reset in another phase, with a word on the port and events to come. -/
def sample (ph : Phase) (cmd : Option CmdWord) (events : List Event) : State :=
  { State.reset with PH := ph, cmd := cmd, events := events }

/-- A state in `RUN` at row `n`, with the accumulators `q` and the word `w` in `X[k]`. -/
def running (n : BitVec 6) (q : Quad) (k : BitVec 4) (w : Word) : State :=
  ((State.reset.setAccs q).setSeq .run n).memWrite4 (wordAddress k) w

/-- Bytes 0 to 3 of the buffer written 0 (95_test_vectors.md 7.4). -/
def zeroWord : State := State.reset.memWrite4 0 0

/-- The end state of the empty message (95_test_vectors.md section 1). -/
def emptyDigest : State := State.reset.setRegs ⟨0xd98c1dd4, 0x04b2008f, 0x980980e9, 0x7e42f8ec⟩

/-! ## WellFormed: R81, a row with `s = 0` is refused -/

theorem test_wf_stepF : Instr.wf (.stepF 0 0 0xd76aa478) = false := by decide
theorem test_wf_stepG : Instr.wf (.stepG 1 0 0xf61e2562) = false := by decide
theorem test_wf_stepH : Instr.wf (.stepH 5 0 0xfffa3942) = false := by decide
theorem test_wf_stepI : Instr.wf (.stepI 9 0 0xeb86d391) = false := by decide
theorem test_wf_schedule : scheduleWf schedule = true := by decide
theorem test_wf_schedule_bad : scheduleWf (schedule.set 63 0x70000000000) = false := by decide

/-! ## Decoding: words of 95_test_vectors.md 7.1 and P7, written out from R70 and R75 -/

theorem test_decode_rds : decodeCommand 0b000_111111_11111111111111111111111111111111 = .ok .rds := by decide
theorem test_decode_init : decodeCommand 0x07a12345678 = .ok .init := by decide
theorem test_decode_wrb : decodeCommand 0b010_111111_000000000000000000000000_11111111 = .ok (.wrb 63 0xff) := by decide
theorem test_decode_wrb_ignored : decodeCommand 0x080ffffff80 = .ok (.wrb 0 0x80) := by decide
theorem test_decode_wrw : decodeCommand 0x0cfffffffff = .ok (.wrw 15 0xffffffff) := by decide
theorem test_decode_go : decodeCommand 0x13fffffffff = .ok .go := by decide
theorem test_decode_rdb : decodeCommand 0b101_001111_11011110101011011011111011101111 = .ok (.rdb 15) := by decide
theorem test_decode_op6 : decodeCommand 0x18000000000 = .error .reservedOp := by decide
theorem test_decode_op7 : decodeCommand 0x1ffffffffff = .error .reservedOp := by decide
theorem test_decode_wrw16 : decodeCommand 0x0d000000000 = .error .wrwHighAddress := by decide
theorem test_decode_rdb63 : decodeCommand 0x17f00000000 = .error .rdbHighAddress := by decide
theorem test_decode_stepF : decodeRow 0x1f649b40821 = .stepF 15 22 0x49b40821 := by decide
theorem test_decode_stepG : decodeRow 0x3948d2a4c8a = .stepG 12 20 0x8d2a4c8a := by decide
theorem test_decode_stepH : decodeRow 0x457c4ac5665 = .stepH 2 23 0xc4ac5665 := by decide
theorem test_decode_stepI : decodeRow 0b11_1001_10101_11101011100001101101001110010001 = .stepI 9 21 0xeb86d391 := by
  decide

/-! ## The reading of bare table words, and the fetch -/

theorem test_table_command : decodeTableWord 41 0x14f00000000 = some (.rdb 15) := by decide
theorem test_table_row : decodeTableWord 43 0x007d76aa478 = some (.stepF 0 7 0xd76aa478) := by decide
theorem test_table_refused : decodeTableWord 48 0x18000000000 = none := by decide
theorem test_fetch_command : after (step (State.reset.withFetchWord 48 0x10000000000)) (fun t => (t.PH, t.rsp)) =
    some (.run, some 0x000000000) := by decide
theorem test_fetch_row : after (step (State.reset.withFetchWord 43 0x735eb86d391)) (fun t => (t.PH, t.STEP, t.a, t.d)) =
    some (.run, 1, 0, 0) := by decide

/-! ## Assembler text: R82 -/

theorem test_assembly : assembly (.stepF 0 7 0xd76aa478) = "STEP.F 0, 7, 3614090360" := by decide

/-! ## Arithmetic: 95_test_vectors.md sections 2 and 3 -/

theorem test_add_wraps : ADD32 0xb5527beb 0xefcdab89 = 0xa5202774 := by decide
theorem test_rotate : ROTL32 0xdeadbeef 12 = 0xdbeefdea ∧ ROTL32 0x12345678 31 = 0x091a2b3c := by decide
theorem test_functions : F 0xf0f0f0f0 0xcccccccc 0xaaaaaaaa = 0xcacacaca ∧ G 0xf0f0f0f0 0xcccccccc 0xaaaaaaaa = 0xe4e4e4e4 ∧
    H 0xf0f0f0f0 0xcccccccc 0xaaaaaaaa = 0x96969696 ∧ I 0xf0f0f0f0 0xcccccccc 0xaaaaaaaa = 0x39393939 := by decide

/-! ## The commands: 95_test_vectors.md 7.2 to 7.4, P4 and P6 -/

theorem test_rds_idle : after (exec .rds State.reset) State.rsp = some (some 0x000000000) := by decide
theorem test_rds_fold : after (exec .rds (sample .fold none [])) State.rsp = some (some 0x000000001) := by decide
theorem test_init : after (exec .init emptyDigest) (fun t => (t.regs, t.rsp)) =
    some (⟨0x67452301, 0xefcdab89, 0x98badcfe, 0x10325476⟩, some 0x000000000) := by decide
theorem test_wrb : after (exec (.wrb 1 0xff) zeroWord) (fun t => t.X 0) = some 0x0000ff00 := by decide
theorem test_wrb_after_wrw : after (exec (.wrb 3 0x00) (zeroWord.memWrite4 0 0x80636261)) (fun t => t.X 0) =
    some 0x00636261 := by decide
theorem test_wrw : after (exec (.wrw 0 0x80636261) State.reset) (fun t => (t.memByte 0, t.memByte 3)) =
    some (0x61, 0x80) := by decide
theorem test_wrw_after_wrb : after (exec (.wrw 0 0x00000080) (zeroWord.memWrite1 3 0x80)) (fun t => t.X 0) =
    some 0x00000080 := by decide
theorem test_go : after (exec .go emptyDigest) (fun t => (t.accs, t.STEP, t.PH, t.rsp)) =
    some (⟨0xd98c1dd4, 0x04b2008f, 0x980980e9, 0x7e42f8ec⟩, 0, .run, some 0x000000000) := by decide
theorem test_rdb_0 : after (exec (.rdb 0) emptyDigest) State.rsp = some (some 0x0000000d4) := by decide
theorem test_rdb_15 : after (exec (.rdb 15) emptyDigest) State.rsp = some (some 0x00000007e) := by decide
theorem test_error_while_running : after (step (sample .run (some 0x0d0deadbeef) [.port])) (fun t => (t.rsp, t.PH)) =
    some (some 0x100000000, .run) := by decide
theorem test_held : after (step (sample .fold (some 0x14000000000) [.port])) (fun t => (t.cmd, t.rsp)) =
    some (some 0x14000000000, none) := by decide

/-! ## The steps: R121 to R124 and 95_test_vectors.md 4.3 -/

theorem test_stepF : after (exec (.stepF 0 7 0xd76aa478)
    (running 0 ⟨0x67452301, 0xefcdab89, 0x98badcfe, 0x10325476⟩ 0 0x00000080)) (fun t => (t.accs, t.STEP, t.PH)) =
    some (⟨0x10325476, 0xa5202774, 0xefcdab89, 0x98badcfe⟩, 1, .run) := by decide
theorem test_stepF_word : after (exec (.stepF 3 22 0xc1bdceee) (running 3 ⟨1, 2, 3, 4⟩ 3 0x80000000)) State.accs =
    some ⟨4, 0xbd506f75, 2, 3⟩ := by decide
theorem test_stepG : after (exec (.stepG 1 5 0xf61e2562)
    (running 16 ⟨0xf56c7cf1, 0xd6819c6a, 0x5aa53f75, 0x374943a7⟩ 1 0)) (fun t => (t.accs, t.STEP, t.PH)) =
    some (⟨0x374943a7, 0x1c7d7513, 0xd6819c6a, 0x5aa53f75⟩, 17, .run) := by decide
theorem test_stepG_word : after (exec (.stepG 0 20 0xe9b6c7aa)
    (running 19 ⟨0x89abcdef, 0x01234567, 0xfedcba98, 0x76543210⟩ 0 0xdeadbeef)) State.accs =
    some ⟨0x76543210, 0xd230eef4, 0x01234567, 0xfedcba98⟩ := by decide
theorem test_stepH : after (exec (.stepH 5 4 0xfffa3942)
    (running 32 ⟨0x13707036, 0xa2205f1f, 0x1c31c384, 0xae7813db⟩ 5 0)) (fun t => (t.accs, t.STEP, t.PH)) =
    some (⟨0xae7813db, 0xdf63eaa1, 0xa2205f1f, 0x1c31c384⟩, 33, .run) := by decide
theorem test_stepH_word : after (exec (.stepH 14 23 0xfde5380c)
    (running 35 ⟨0x89abcdef, 0x01234567, 0xfedcba98, 0x76543210⟩ 14 0xdeadbeef)) State.accs =
    some ⟨0x76543210, 0x6e1b3ab0, 0x01234567, 0xfedcba98⟩ := by decide
theorem test_stepI : after (exec (.stepI 9 21 0xeb86d391)
    (running 63 ⟨0x30130182, 0xff4ea3eb, 0x6e10a476, 0x7246fad3⟩ 9 0)) (fun t => (t.accs, t.STEP, t.PH)) =
    some (⟨0x7246fad3, 0x14e45506, 0xff4ea3eb, 0x6e10a476⟩, 0, .fold) := by decide
theorem test_stepI_word : after (exec (.stepI 5 21 0xfc93a039)
    (running 51 ⟨0x89abcdef, 0x01234567, 0xfedcba98, 0x76543210⟩ 5 0xdeadbeef)) State.accs =
    some ⟨0x76543210, 0x92fed1fb, 0x01234567, 0xfedcba98⟩ := by decide
theorem test_fold : after (coreMove ((State.reset.setAccs ⟨0x7246fad3, 0x14e45506, 0xff4ea3eb, 0x6e10a476⟩).setSeq .fold 0))
    (fun t => (t.regs, t.PH)) = some (⟨0xd98c1dd4, 0x04b2008f, 0x980980e9, 0x7e42f8ec⟩, .idle) := by decide

/-! ## Reset, blocks, messages: R36, R164, R211, R145, 95_test_vectors.md section 6 -/

theorem test_reset_in_run : after (step { sample .run (some 0x14000000000) [.reset] with STEP := 10, A := 0 })
    (fun t => (t.regs, t.STEP, t.PH, t.cmd)) =
    some (⟨0x67452301, 0xefcdab89, 0x98badcfe, 0x10325476⟩, 0, .idle, none) := by decide
theorem test_compress_zero : compress ⟨0, 0, 0, 0⟩ (fun _ => 0) =
    ⟨0xf7cd1c97, 0xa5483681, 0x2b68d832, 0xf90ca639⟩ := by decide +kernel
theorem test_hex : hexDigest ⟨0x0a0b0c0d, 0xfffefdfc, 0x00000000, 0x80000000⟩ =
    "0d0c0b0afcfdfeff0000000000000080".toList := by decide
theorem test_blocks_55_56 : numBlocks 55 = 1 ∧ padZeros 55 = 0 ∧ numBlocks 56 = 2 ∧ padZeros 56 = 63 ∧
    numBlocks 1048576 = 16385 := by decide
theorem test_digest_56 : digestText (List.replicate 56 0x61) = some "3b0c8ac703f828b04c6c197006d17218".toList := by
  decide +kernel

/-! ## Witnesses: for each obligation with hypotheses, a concrete input that meets them -/

theorem witness_AcceptedCommandsAreAnsweredOnce :
    (∃ t, step (sample .run (some 0x10000000000) [.port]) = .next t ∧ t.cmd = some 0x10000000000) ∧
    (∃ t, step (sample .idle (some 0x04000000000) [.port]) = .next t ∧ t.rsp = some (rspWord 0 0)) ∧
    (∃ t, step (sample .fold (some 0x1c000000000) []) = .next t ∧ t.rsp = some (rspWord 1 0)) :=
  ⟨⟨_, rfl, rfl⟩, ⟨_, rfl, rfl⟩, ⟨_, rfl, rfl⟩⟩

theorem witness_RotatorByFormulaAndByBit : 1 ≤ (1 : BitVec 5).toNat ∧ 1 ≤ (31 : BitVec 5).toNat ∧ 0 < 32 ∧ 31 < 32 := by
  decide

theorem witness_RotationIsInvertibleAndDoesNotDistribute : 1 ≤ (1 : BitVec 5).toNat ∧
    (31 : BitVec 5).toNat = 32 - (1 : BitVec 5).toNat ∧ 1 ≤ (31 : BitVec 5).toNat ∧
    (1 : BitVec 5).toNat = 32 - (31 : BitVec 5).toNat := by decide

theorem witness_RoundFunctionsBitByBit : 0 < 32 ∧ 31 < 32 := by decide

theorem witness_IgnoredBitsHaveNoEffect : (0 : BitVec 2) = 0 ∧ (1 : BitVec 2) ≠ 0 ∧ (3 : BitVec 2) ≠ 0 := by decide

theorem witness_ScheduleIndicesAndAmounts : (63 : Fin 64).val / 16 = (3 : Fin 4).val ∧ rowK schedule[(63 : Fin 64)] = 9 := by
  decide

theorem witness_WordWriteIsFourByteWrites : zeroWord.PH = .idle ∧ (exec (.wrw 15 0x80636261) zeroWord).ctorIdx = 0 := by
  decide

theorem witness_BufferReadsTheLastWriteAndStaysCanonical : Memory.wf [(0, 1), (63, 2)] ∧ 0 < 64 ∧ 63 < 64 ∧
    ∀ q, Memory.lookup [(0, 1), (63, 2)] q = (Memory.write (Memory.write [] 63 2) 0 1).lookup q :=
  ⟨by decide, by decide, by decide, fun _ => rfl⟩

/-- The phases of the commands' clauses, and words of each opcode with `addr[5:4]` zero and not. -/
theorem witness_phases : State.reset.PH = .idle ∧ (sample .run none []).PH ≠ .idle ∧ (sample .fold none []).PH ≠ .idle := by
  decide

theorem witness_InitLoadsTheInitialValues : emptyDigest.PH = .idle ∧ (sample .run none []).PH ≠ .idle := by decide

theorem witness_WrbWritesOneByte : cmdOp 0x0bf000000ff = 2 ∧ State.reset.PH = .idle ∧ (sample .run none []).PH ≠ .idle ∧
    (0 : Nat) ≠ (63 : BitVec 6).toNat := by decide

theorem witness_WrwWritesOneWord : cmdOp 0x0cfffffffff = 3 ∧ (cmdAddr 0x0cfffffffff).extractLsb' 4 2 = 0 ∧
    cmdOp 0x0d000000000 = 3 ∧ (cmdAddr 0x0d000000000).extractLsb' 4 2 ≠ 0 ∧ State.reset.PH = .idle ∧
    (sample .run (some 0x0d000000000) []).cmd = some 0x0d000000000 ∧ (sample .fold none []).PH ≠ .idle ∧ 59 < 4 * (15 : BitVec 4).toNat ∧ 4 * (0 : BitVec 4).toNat + 4 ≤ 4 := by decide

theorem witness_RdbAnswersOneDigestByte : cmdOp 0x14f00000000 = 5 ∧ (cmdAddr 0x14f00000000).extractLsb' 4 2 = 0 ∧
    cmdOp 0x15000000000 = 5 ∧ (cmdAddr 0x15000000000).extractLsb' 4 2 ≠ 0 ∧ emptyDigest.PH = .idle ∧
    (sample .run (some 0x15000000000) []).cmd = some 0x15000000000 ∧ (sample .fold none []).PH ≠ .idle := by decide

theorem witness_GoStartsABlock : emptyDigest.PH = .idle ∧ (sample .run none []).PH ≠ .idle := by decide

theorem witness_WordsThatSpellNoCommandGetCmdError : decodeCommand 0x17f00000000 = .error .rdbHighAddress ∧
    decodeCommand 0x0d000000000 = .error .wrwHighAddress ∧ decodeCommand 0x18000000000 = .error .reservedOp ∧
    (sample .run (some 0x17f00000000) []).cmd = some 0x17f00000000 := by decide

theorem witness_CommandsAreHeldWhileBusy : (sample .idle (some 0x10000000000) []).accepts 0x10000000000 = true ∧
    (sample .fold (some 0x10000000000) []).accepts 0x10000000000 = false ∧
    (sample .run (some 0x00000000000) []).accepts 0x00000000000 = true ∧
    (sample .run (some 0x18000000000) []).accepts 0x18000000000 = true := by decide

theorem witness_StepFResult : rowFn 0x007d76aa478 = 0 ∧ (15 : Fin 64).val < 16 := by decide
theorem witness_StepGResult : rowFn 0x225f61e2562 = 1 ∧ 16 ≤ (16 : Fin 64).val ∧ (31 : Fin 64).val < 32 := by decide
theorem witness_StepHResult : rowFn 0x4a4fffa3942 = 2 ∧ 32 ≤ (32 : Fin 64).val ∧ (47 : Fin 64).val < 48 := by decide
theorem witness_StepIResult : rowFn 0x735eb86d391 = 3 ∧ 48 ≤ (48 : Fin 64).val := by decide

theorem witness_FoldAddsBack : (sample .fold none []).PH = .fold := by decide

theorem witness_StepRunsTheDecodedInstruction :
    ((sample .idle (some 0x10000000000) [.port]).events = [.port] ∧ decodeCommand 0x10000000000 = .ok .go) ∧
    ((sample .idle (some 0x14f00000000) []).accepts 0x14f00000000 = true ∧ decodeCommand 0x14f00000000 = .ok (.rdb 15)) ∧
    ((sample .run none [.core]).events = [.core] ∧ (sample .run none [.core]).PH = .run) ∧
    ((sample .run none []).events = [] ∧ (sample .run none []).cmd = none) ∧
    ((sample .fold none [.core]).events = [.core] ∧ (sample .fold none [.core]).PH = .fold) := by decide

theorem witness_OffersWaitForThePort :
    ((sample .run none [.offer 0x14000000000]).events = [.offer 0x14000000000] ∧
      (sample .run none [.offer 0x14000000000]).cmd = none) ∧
    (∃ t, step (sample .run (some 0x14000000000) [.offer 0x14100000000]) = .next t ∧ t.cmd = some 0x14000000000) ∧
    (sample .run none [.reset, .core]).events = [.reset, .core] :=
  ⟨by decide, ⟨_, rfl, rfl⟩, rfl⟩

theorem witness_ResetLoadsTheResetValues : (sample .run (some 0x14000000000) [.reset, .core]).events = [.reset, .core] := by
  decide

/-- A state with the invariant and its step, for the statements over all steps: `GO` is accepted. -/
theorem witness_EveryStepKeepsTheInvariant : (sample .idle (some 0x10000000000) [.port]).Inv ∧
    ∃ t, step (sample .idle (some 0x10000000000) [.port]) = .next t ∧ t.PH = .run :=
  ⟨⟨wf_nil, rfl, fun _ => rfl, fun _ => rfl⟩, _, rfl, rfl⟩

theorem witness_StateRegistersHaveThreeWriters :
    (∃ t, step (sample .run none [.reset]) = .next t ∧ t.regs = IV) ∧
    (∃ t, step (sample .idle (some 0x04000000000) [.port]) = .next t ∧ t.regs = IV) ∧
    (∃ t, step (sample .fold none [.core]) = .next t ∧ t.PH = .idle) :=
  ⟨⟨_, rfl, rfl⟩, ⟨_, rfl, rfl⟩, ⟨_, rfl, rfl⟩⟩

theorem witness_AccumulatorsHaveTheirWriters :
    (∃ t, step (sample .run none [.reset]) = .next t ∧ t.a = 0) ∧
    (∃ t, step (sample .idle (some 0x10000000000) [.port]) = .next t ∧ t.accs = IV) ∧
    (∃ t, step (sample .run none [.core]) = .next t ∧ t.STEP = 1) :=
  ⟨⟨_, rfl, rfl⟩, ⟨_, rfl, rfl⟩, ⟨_, rfl, rfl⟩⟩

theorem witness_BufferChangesOnlyByHostWritesInIdle :
    (∃ t, step (sample .idle (some 0x0bf000000ff) [.port]) = .next t ∧ t.memByte 63 = 0xff) ∧
    (∃ t, step (sample .idle (some 0x0cfffffffff) []) = .next t ∧ t.memByte 63 = 0xff) ∧
    ∃ t, step (sample .run (some 0x0bf000000ff) []) = .next t ∧ t.cmd = some 0x0bf000000ff :=
  ⟨⟨_, rfl, rfl⟩, ⟨_, rfl, rfl⟩, ⟨_, rfl, rfl⟩⟩

theorem witness_NoTransitionWritesTheSchedule : ∃ t, step (sample .run none [.reset]) = .next t ∧ t.SCHED = schedule :=
  ⟨_, rfl, rfl⟩

theorem witness_PhaseAndCounterTransitions :
    (∃ t, step { sample .run none [.core] with STEP := 62 } = .next t ∧ t.PH = .run ∧ t.STEP = 63) ∧
    (∃ t, step { sample .run none [.core] with STEP := 63 } = .next t ∧ t.PH = .fold ∧ t.STEP = 0) ∧
    (∃ t, step (sample .fold none [.core]) = .next t ∧ t.PH = .idle) ∧
    (∃ t, step (sample .idle (some 0x10000000000) [.port]) = .next t ∧ t.PH = .run) :=
  ⟨⟨_, rfl, rfl, rfl⟩, ⟨_, rfl, rfl, rfl⟩, ⟨_, rfl, rfl⟩, ⟨_, rfl, rfl⟩⟩

theorem witness_EveryBlockEndsAfter65CoreMoves :
    (∃ t, exec .go (sample .idle none []) = .next t ∧ coreMovesLeft t = 65) ∧ (sample .fold none []).PH ≠ .idle :=
  ⟨⟨_, rfl, rfl⟩, by decide⟩

theorem witness_PollingCommutesWithTheCore : (sample .fold (some 0x00000000000) []).PH ≠ .idle ∧
    (sample .fold (some 0x00000000000) []).accepts 0x00000000000 = true ∧
    (sample .run (some 0x18000000000) []).accepts 0x18000000000 = true := by decide

theorem witness_AccumulatorDrawIsNeverObserved :
    ∃ t, step (sample .idle (some 0x10000000000) [.port]) = .next t ∧ (sample .idle (some 0x10000000000) [.port]).PH = .idle :=
  ⟨_, rfl, rfl⟩

theorem witness_StepsActAsOneCommandAfterAnother :
    (∃ t, step (sample .idle (some 0x10000000000) [.port]) = .next t ∧ t.cmd = none) ∧
    (∃ t, step (sample .fold (some 0x18000000000) [.port]) = .next t ∧ t.cmd = none) ∧
    (∃ t, step (sample .fold (some 0x10000000000) [.core]) = .next t ∧ t.cmd = some 0x10000000000) ∧
    (sample .idle none []).SCHED = schedule :=
  ⟨⟨_, rfl, rfl⟩, ⟨_, rfl, rfl⟩, ⟨_, rfl, rfl⟩, rfl⟩

theorem witness_StateRegistersAreAlwaysChainedFromIV : (sample .idle (some 0x10000000000) [.port]).SCHED = schedule ∧
    Chained (sample .idle (some 0x10000000000) [.port]).regs ∧ Chained (sample .idle (some 0x10000000000) [.port]).settled ∧
    ∃ t, step (sample .idle (some 0x10000000000) [.port]) = .next t :=
  ⟨rfl, .iv, .iv, _, rfl⟩

theorem witness_ABlockComputesCompress :
    (sample .idle (some 0x10000000000) (.port :: (List.replicate 65 .core ++ [.reset]))).SCHED = schedule ∧
    decodeCommand 0x10000000000 = .ok .go := ⟨rfl, by decide⟩

theorem witness_PaddedStringByItsRule : (1 + 1 + padZeros 1) % 64 = 56 ∧ 0 < [0x61#8].length ∧
    [0x61#8].length < 2 ∧ 55 ≤ [0x61#8].length + padZeros [0x61#8].length ∧ 0 < 8 ∧ 7 < 8 := by decide

theorem witness_LengthWordsAndTheLongestMessage : pad [0x61, 0x62, 0x63] = some (padBytes [0x61, 0x62, 0x63]) ∧
    (pad [0x61, 0x62, 0x63]).isSome = true := by decide

/-- The block of the message `abc`, delivered by words, a byte overwritten, and one poll. -/
def mixture : List Instr :=
  [.wrb 3 0x00, .rds] ++ ((List.range 16).map fun k =>
    Instr.wrw (BitVec.ofNat 4 k) (wordAt (padBytes [0x61, 0x62, 0x63]) k)) ++ [.wrb 0 0x00, .wrb 0 0x61]

/-- The procedure for `abc` in a buffer that holds its block already, with an early read (70_reset_and_hazards.md R270,
duty 10). -/
def reuse : List Instr := .init :: [[Instr.rdb 3]].flatMap (fun part => part ++ [.go]) ++ digestProgram

/-- The words of both, the second with its ignored bits set, and words that spell no command among them (R270, liberties 3
and 8). -/
def libertyWords : List CmdWord :=
  0x18000000000 :: mixture.filterMap commandOf ++
    [0x1ffffffffff, 0x07a12345678, 0x14389abcdef, 0x17f00000000, 0x13fffffffff] ++ digestProgram.filterMap commandOf

/-- A block in progress with a held `RDB` and an offer after it, lost by a reset (R270, liberty 7); then those words. -/
def libertyState : State :=
  sample .run (some 0x14000000000) (.offer 0x04000000000 :: .core :: .reset :: .core :: libertyWords.map .offer)

theorem witness_reuse (m : Nat → Byte) :
    isProcedure (padBytes [0x61, 0x62, 0x63]) (effects mixture IV m).2 reuse := by
  refine ⟨[[.rdb 3]], digestProgram, by decide, by decide, ?_, by decide, by decide, rfl⟩
  intro n hn p hp
  obtain rfl : n = 0 := by simpa using hn
  have whole : ∀ p, p < 64 → lastWrite p mixture ≠ none ∧ (padBytes [0x61, 0x62, 0x63])[64 * 0 + p]? = lastWrite p mixture := by
    decide +kernel
  rw [effects_keeps mixture (by decide), (whole p hp).2]
  obtain ⟨v, hv⟩ := Option.ne_none_iff_exists'.1 (whole p hp).1
  show _ = some ((lastWrite p mixture).getD (m p))
  rw [hv]; rfl

theorem witness_TheProcedureYieldsTheDigest :
    pad [0x61, 0x62, 0x63] = some (padBytes [0x61, 0x62, 0x63]) ∧ libertyState.SCHED = schedule ∧
      commandsOf libertyState.pending = mixture ++ reuse ∧
      isProcedure (padBytes [0x61, 0x62, 0x63]) (effects mixture libertyState.base.1 libertyState.base.2).2 reuse :=
  ⟨by decide, rfl, by decide, witness_reuse _⟩

/-- What the host hears for the empty message: `INIT`, `GO` (the sixteen `WRW` left out), and the bytes of
46_digest_and_driver.md R211. -/
def emptyTrace : List Heard :=
  [.answered 0x04000000000 0x000000000, .answered 0x10000000000 0x000000000] ++
    ([0xd4, 0x1d, 0x8c, 0xd9, 0x8f, 0x00, 0xb2, 0x04, 0xe9, 0x80, 0x09, 0x98, 0xec, 0xf8, 0x42, 0x7e].zipIdx.map
      fun (v, j) => .answered (commandWord 5 (BitVec.ofNat 6 j) 0) (BitVec.ofNat 33 v))

theorem test_outcome : outcomeText 1 emptyTrace = some "d41d8cd98f00b204e9800998ecf8427e".toList ∧
    driverResult (some []) emptyTrace = some "d41d8cd98f00b204e9800998ecf8427e".toList := by decide

/-- R214: no outcome before the last read, without a block, or after a reset. -/
theorem test_no_outcome : endsRun 1 emptyTrace.dropLast (.answered 0x14f00000000 0x00000007e) = true ∧
    outcome 2 emptyTrace = none ∧ outcome 1 (emptyTrace ++ [.reset]) = none := by decide

theorem witness_AnOutcomeIsTheSixteenBytesOfAFinishedMessage :
    (∃ bytes, 1 ≤ 1 ∧ outcome 1 emptyTrace = some bytes) ∧
    ∃ (h : Receiver) (s t : State) (bytes : List Byte), step s = .next t ∧ h.Faithful s ∧ h.result = none ∧
      (h.hearAll 1 (heardIn s t)).result = some bytes := by
  have received : ∀ (j : BitVec 4), ((Receiver.start.hearAll 1 emptyTrace.dropLast).bytes[j.toNat]'j.isLt = none) ∨
      (Receiver.start.hearAll 1 emptyTrace.dropLast).bytes[j.toNat]'j.isLt = some (digestByte emptyDigest.settled j) := by
    decide
  refine ⟨⟨_, by decide, rfl⟩, Receiver.start.hearAll 1 emptyTrace.dropLast,
    { emptyDigest with cmd := some 0x14f00000000, events := [.port] }, _, _, rfl, fun _ j v hv => ?_, by decide, rfl⟩
  rcases received j with h | h
  · rw [h] at hv; cases hv
  · rw [h] at hv; exact (Option.some.inj hv).symm

/-- A host that polls for ever, the core taking its turn between. -/
def pollsForEver : Nat → List Event := fun n => if n % 2 = 0 then [.offer 0x00000000000] else [.core]

theorem witness_EndlessRunsGoOnAndTheirBlocksEnd : againAndAgain (fun e => e = .core) pollsForEver ∧
    (∀ e ∈ (sample .run (some 0x03fffffffff) [.port]).events, e.polls = true) ∧ (∀ n, ∀ e ∈ pollsForEver n, e.polls = true) ∧
    (∀ w, (sample .run (some 0x03fffffffff) [.port]).cmd = some w → decodeCommand w = .ok .rds) ∧
    againAndAgain (fun e => ∃ w, e = .offer w) pollsForEver := by
  refine ⟨fun n => ⟨2 * n + 1, by omega, .core, ?_, rfl⟩, by decide, fun n e he => ?_, fun w h => ?_,
    fun n => ⟨2 * n, by omega, .offer 0x00000000000, ?_, _, rfl⟩⟩
  · unfold pollsForEver; rw [if_neg (by omega)]; exact List.mem_singleton.2 rfl
  · unfold pollsForEver at he
    split at he <;> · rw [List.mem_singleton.1 he]; decide
  · obtain rfl := Option.some.inj h; decide
  · unfold pollsForEver; rw [if_pos (by omega)]; exact List.mem_singleton.2 rfl

theorem witness_TheWrittenOrdersAreProcedures : pad [] = some (padBytes []) := by decide

/-- Two files that differ only after byte `n`. -/
theorem files_after (n : Nat) :
    (∀ p, p < n → (List.replicate n 0x61#8 ++ [0x62#8])[p]? = (List.replicate n 0x61#8 ++ [0x63#8])[p]?) ∧
    (List.replicate n 0x61#8 ++ [0x62#8]) ≠ (List.replicate n 0x61#8 ++ [0x63#8]) := by
  refine ⟨fun p hp => ?_, fun h => by simp at h⟩
  rw [List.getElem?_append_left (by simpa using hp), List.getElem?_append_left (by simpa using hp)]

theorem witness_DriverTruncatesAndNeverInventsADigest :
    ∃ f g : List Byte, (∀ p, p < 1048576 → f[p]? = g[p]?) ∧ f ≠ g := ⟨_, _, files_after 1048576⟩

end Sys2Proof.Tests
end

namespace Sys2Proof.Machine

/-- 44_compression_core.md R160: in `RUN` the core runs the instruction that row `STEP` decodes to. -/
theorem coreMove_run_exec {s : State} (h : s.PH = .run) : coreMove s = exec (decodeRow s.fetchRow) s :=
  (coreMove_run h).trans (exec_decodeRow s.fetchRow s).symm

end Sys2Proof.Machine

namespace Sys2Proof

open Machine

/-- Settles O34: the first event, or its absence, says who moves; the port's move and the core's move are then `exec` of
what the word or the row decodes to. -/
theorem stepRunsTheDecodedInstruction : Obligations.StepRunsTheDecodedInstruction := by
  refine ⟨?port, ?portByDefault, ?core, ?coreByDefault, ?fold⟩
  case port =>
    intro s es w i he hc hd
    exact (step_port he).trans (portMove_ok (s := s.setEvents es) hc hd)
  case portByDefault =>
    intro s w i he hc ha hd
    exact ((step_default he).trans (defaultMove_accepts hc ha)).trans (portMove_ok hc hd)
  case core =>
    intro s es he hp
    exact (step_core he).trans (coreMove_run_exec (s := s.setEvents es) hp)
  case coreByDefault =>
    intro s he hc hp
    exact ((step_default he).trans (defaultMove_free hc)).trans (coreMove_run_exec hp)
  case fold =>
    intro s es he hp
    exact (step_core he).trans (coreMove_fold (u := s.setEvents es) hp)

end Sys2Proof

/-! ## 10_state.md: who writes what, and what the port takes -/

namespace Sys2Proof.Machine

/-! ### What the port accepts (10_state.md R33, 45_host_commands.md R202) -/

/-- Every command that decodes from a word needs `IDLE`, but for `RDS`. -/
theorem isHeldCommand_of_decode {w : CmdWord} {i : Instr} (hd : decodeCommand w = .ok i) (hi : i ≠ .rds) :
    isHeldCommand i = true := by
  rcases decodeCommand_not_step hd with rfl | rfl | ⟨j, v, rfl⟩ | ⟨k, v, rfl⟩ | rfl | ⟨j, rfl⟩
  · exact absurd rfl hi
  all_goals rfl

theorem accepts_iff (s : State) (w : CmdWord) :
    s.accepts w = true ↔ s.PH = .idle ∨ decodeCommand w = .ok .rds ∨ ∃ e, decodeCommand w = .error e := by
  constructor
  · intro ha
    by_contra hn
    obtain ⟨hp, hrds, herr⟩ := by simpa only [not_or] using hn
    cases hd : decodeCommand w with
    | error e => exact herr ⟨e, hd⟩
    | ok i => simp [accepts_busy hp hd fun hi => hrds (hi ▸ hd)] at ha
  · rintro (hp | hd | ⟨e, hd⟩)
    · exact accepts_idle hp w
    · unfold State.accepts; rw [hd]
    · unfold State.accepts; rw [hd]

/-- A word that is not acceptable spells a command that needs `IDLE`, and the phase is another. -/
theorem held_of_not_accepts {s : State} {w : CmdWord} (ha : s.accepts w = false) :
    s.PH ≠ .idle ∧ ∃ i, decodeCommand w = .ok i ∧ isHeldCommand i = true := by
  have hn := mt (accepts_iff s w).2 (by simp [ha])
  obtain ⟨hp, hrds, herr⟩ := by simpa only [not_or] using hn
  cases hd : decodeCommand w with
  | error e => exact absurd ⟨e, hd⟩ herr
  | ok i => exact ⟨hp, i, rfl, isHeldCommand_of_decode hd fun hi => hrds (hi ▸ hd)⟩

/-- 10_state.md R33: the move of the port leaves a word that is not acceptable where it is. -/
theorem portMove_held {s : State} {w : CmdWord} (hc : s.cmd = some w) (ha : s.accepts w = false) :
    portMove s = .next s := by
  obtain ⟨hp, i, hd, hi⟩ := held_of_not_accepts ha
  exact (portMove_ok hc hd).trans (exec_held hi hp)

/-- In `IDLE` every command that needs it ends with its response. -/
theorem exec_responds {i : Instr} {s : State} (hi : isHeldCommand i = true) (hp : s.PH = .idle) :
    ∃ (u : State) (e : BitVec 1) (r : Word), exec i s = .next (u.respond e r) := by
  cases i with
  | init => exact ⟨_, _, _, exec_init hp⟩
  | wrb j v => exact ⟨_, _, _, exec_wrb hp j v⟩
  | wrw k w => exact ⟨_, _, _, exec_wrw hp k w⟩
  | go => exact ⟨_, _, _, exec_go hp⟩
  | rdb j => exact ⟨_, _, _, exec_rdb hp j⟩
  | rds | stepF | stepG | stepH | stepI => simp [isHeldCommand] at hi

/-- 10_state.md R35: the move of the port answers an acceptable word. -/
theorem portMove_responds {s : State} {w : CmdWord} (hc : s.cmd = some w) (ha : s.accepts w = true) :
    ∃ (u : State) (e : BitVec 1) (r : Word), portMove s = .next (u.respond e r) := by
  cases hd : decodeCommand w with
  | error e => exact ⟨_, _, _, portMove_error hc hd⟩
  | ok i =>
    rw [portMove_ok hc hd]
    by_cases hi : i = .rds
    · subst hi; exact ⟨_, _, _, exec_rds s⟩
    · have hp : s.PH = .idle := by
        by_contra hp
        simp [accepts_busy hp hd hi] at ha
      exact exec_responds (isHeldCommand_of_decode hd hi) hp

theorem portMove_free {s : State} (hc : s.cmd = none) : portMove s = .next s := by
  unfold portMove; rw [hc]

/-! ### What a move writes, field by field -/

/-- 10_state.md R21: of the moves, `INIT` and the add-back write the state registers. -/
theorem move_regs {u t : State} (hm : Move u t) :
    t.regs = u.regs ∨
    (t.regs = IV ∧ u.PH = .idle ∧ ∃ w, u.cmd = some w ∧ decodeCommand w = .ok .init) ∨
    (u.PH = .fold ∧ t.PH = .idle ∧ t.regs = addQuad u.regs u.accs) := by
  cases hm with
  | init w hc hd hp => exact .inr (.inl ⟨rfl, hp, w, hc, hd⟩)
  | fold hp => exact .inr (.inr ⟨hp, rfl, rfl⟩)
  | row => exact .inl (transform_regs ..)
  | quiet | cmdError | rds | wrb | wrw | go | rdb => exact .inl (by simp)

/-- 10_state.md R25: of the moves, `GO` and the step of a row write the accumulators. -/
theorem move_accs {u t : State} (hm : Move u t) :
    t.accs = u.accs ∨
    (u.PH = .idle ∧ (∃ w, u.cmd = some w ∧ decodeCommand w = .ok .go) ∧ t.accs = u.regs) ∨
    (u.PH = .run ∧ t.accs =
      stepQuad (rowFn u.fetchRow) (u.X (rowK u.fetchRow)) (rowS u.fetchRow) (rowT u.fetchRow) u.accs) := by
  cases hm with
  | go w hc hd hp => exact .inr (.inl ⟨hp, ⟨w, hc, hd⟩, rfl⟩)
  | row hp => exact .inr (.inr ⟨hp, transform_accs ..⟩)
  | quiet | cmdError | rds | init | wrb | wrw | rdb => exact .inl (by simp)
  | fold => exact .inl rfl

/-- 10_state.md R26, R28: of the moves, `GO`, the step of a row and the add-back write the sequencer. -/
theorem move_seq {u t : State} (hm : Move u t) :
    (t.PH = u.PH ∧ t.STEP = u.STEP) ∨
    (u.PH = .idle ∧ (∃ w, u.cmd = some w ∧ decodeCommand w = .ok .go) ∧ t.PH = .run ∧ t.STEP = 0) ∨
    (u.PH = .run ∧ u.STEP.toNat < 63 ∧ t.PH = .run ∧ t.STEP.toNat = u.STEP.toNat + 1) ∨
    (u.PH = .run ∧ u.STEP = 63 ∧ t.PH = .fold ∧ t.STEP = 0) ∨
    (u.PH = .fold ∧ t.PH = .idle ∧ t.STEP = u.STEP) := by
  cases hm with
  | go w hc hd hp => exact .inr (.inl ⟨hp, ⟨w, hc, hd⟩, rfl, rfl⟩)
  | row hp =>
    by_cases hl : u.STEP = 63
    · exact .inr (.inr (.inr (.inl ⟨hp, hl, transform_last u hl ..⟩)))
    · obtain ⟨hph, hstep⟩ := transform_before_last u hl (rowFn u.fetchRow) (rowK u.fetchRow) (rowS u.fetchRow)
        (rowT u.fetchRow)
      have hlt : u.STEP.toNat < 63 := by
        have := u.STEP.isLt
        have : u.STEP.toNat ≠ 63 := fun h => hl (BitVec.eq_of_toNat_eq h)
        omega
      exact .inr (.inr (.inl ⟨hp, hlt, hph.trans hp, by rw [hstep, toNat_succ_of_ne hl]⟩))
  | fold hp => exact .inr (.inr (.inr (.inr ⟨hp, rfl, rfl⟩)))
  | quiet | cmdError | rds | init | wrb | wrw | rdb => exact .inl (by simp)

/-! ### The accumulators of an idle block are not observed (10_state.md R25) -/

/-- The move goes from `u`, and from `u` with other accumulators `q`, to one state, or to two idle states that again differ
in the accumulators only. -/
def HidesAccs (q : Quad) (move : State → Host.Outcome State Fault Refusal) (u : State) : Prop :=
  ∃ t t', move u = .next t ∧ move (u.setAccs q) = .next t' ∧ (t' = t ∨ (t.PH = .idle ∧ t' = t.setAccs q))

theorem HidesAccs.of_eq {q : Quad} {move move' : State → Host.Outcome State Fault Refusal} {u v : State}
    (h : move u = move' v) (h' : move (u.setAccs q) = move' (v.setAccs q)) (hv : HidesAccs q move' v) :
    HidesAccs q move u := by
  unfold HidesAccs; rw [h, h']; exact hv

section
variable (q : Quad) {u : State} (hp : u.PH = .idle)
include hp

/-- `GO` overwrites the accumulators; every other command leaves them and reads none of them. -/
theorem exec_hidesAccs {w : CmdWord} {i : Instr} (hd : decodeCommand w = .ok i) : HidesAccs q (exec i) u := by
  have hp' : (u.setAccs q).PH = .idle := hp
  rcases decodeCommand_not_step hd with rfl | rfl | ⟨j, v, rfl⟩ | ⟨k, v, rfl⟩ | rfl | ⟨j, rfl⟩
  · exact ⟨_, _, exec_rds u, exec_rds _, .inr ⟨hp, rfl⟩⟩
  · exact ⟨_, _, exec_init hp, exec_init hp', .inr ⟨hp, rfl⟩⟩
  · exact ⟨_, _, exec_wrb hp j v, exec_wrb hp' j v, .inr ⟨hp, rfl⟩⟩
  · exact ⟨_, _, exec_wrw hp k v, exec_wrw hp' k v, .inr ⟨by simp [hp], rfl⟩⟩
  · exact ⟨_, _, exec_go hp, exec_go hp', .inl rfl⟩
  · exact ⟨_, _, exec_rdb hp j, exec_rdb hp' j, .inr ⟨hp, rfl⟩⟩

theorem coreMove_hidesAccs : HidesAccs q coreMove u :=
  ⟨_, _, coreMove_idle hp, coreMove_idle (u := u.setAccs q) hp, .inr ⟨hp, rfl⟩⟩

theorem portMove_hidesAccs : HidesAccs q portMove u := by
  cases hc : u.cmd with
  | none => exact ⟨_, _, portMove_free hc, portMove_free (s := u.setAccs q) hc, .inr ⟨hp, rfl⟩⟩
  | some w =>
    cases hd : decodeCommand w with
    | error e => exact ⟨_, _, portMove_error hc hd, portMove_error (s := u.setAccs q) hc hd, .inr ⟨hp, rfl⟩⟩
    | ok i => exact .of_eq (portMove_ok hc hd) (portMove_ok (s := u.setAccs q) hc hd) (exec_hidesAccs q hp hd)

theorem defaultMove_hidesAccs : HidesAccs q defaultMove u := by
  cases hc : u.cmd with
  | none =>
    exact .of_eq (defaultMove_free hc) (defaultMove_free (s := u.setAccs q) hc) (coreMove_hidesAccs q hp)
  | some w =>
    exact .of_eq (defaultMove_accepts hc (accepts_idle hp w))
      (defaultMove_accepts (s := u.setAccs q) hc (accepts_idle (s := u.setAccs q) hp w)) (portMove_hidesAccs q hp)

theorem step_hidesAccs : HidesAccs q step u := by
  cases he : u.events with
  | nil => exact .of_eq (step_default he) (step_default (s := u.setAccs q) he) (defaultMove_hidesAccs q hp)
  | cons e es =>
    have hp' : (u.setEvents es).PH = .idle := hp
    cases e with
    | reset => exact ⟨_, _, step_reset he, step_reset (s := u.setAccs q) he, .inl rfl⟩
    | port =>
      exact .of_eq (v := u.setEvents es) (step_port he) (step_port (s := u.setAccs q) he) (portMove_hidesAccs q hp')
    | core =>
      exact .of_eq (v := u.setEvents es) (step_core he) (step_core (s := u.setAccs q) he) (coreMove_hidesAccs q hp')
    | offer w =>
      cases hc : u.cmd with
      | none => exact ⟨_, _, step_offer he hc, step_offer (s := u.setAccs q) he hc, .inr ⟨hp, rfl⟩⟩
      | some w' =>
        exact .of_eq (step_waiting he hc) (step_waiting (s := u.setAccs q) he hc) (defaultMove_hidesAccs q hp)

end

end Sys2Proof.Machine

namespace Sys2Proof

open Machine

/-- Settles O28: a word that is not acceptable spells a command that its own meaning holds; each meaning of an acceptable
one ends with its response. -/
theorem commandsAreHeldWhileBusy : Obligations.CommandsAreHeldWhileBusy := by
  refine ⟨fun s w hp => accepts_idle hp w, fun s w hp => ?_, fun s w hc ha => portMove_held hc ha, fun s w hc ha => ?_⟩
  · rw [accepts_iff, or_iff_right hp]
  · obtain ⟨u, e, r, h⟩ := portMove_responds hc ha
    exact ⟨_, _, h, rfl, rfl⟩

/-- Settles O41, by the writers among the moves (`move_regs`); an offer writes no register, a reset loads `IV`. -/
theorem stateRegistersHaveThreeWriters : Obligations.StateRegistersHaveThreeWriters := by
  intro s t h
  cases transition_of_step h with
  | reset es he => exact .inr (.inl ⟨rfl, .inl ⟨es, he⟩⟩)
  | offer => exact .inl rfl
  | move es _ _ hm =>
    rcases move_regs hm with hsame | ⟨hiv, hinit⟩ | hfold
    · exact .inl hsame
    · exact .inr (.inl ⟨hiv, .inr hinit⟩)
    · exact .inr (.inr hfold)

/-- Settles O42, by the writers among the moves (`move_accs`). -/
theorem accumulatorsHaveTheirWriters : Obligations.AccumulatorsHaveTheirWriters := by
  intro s t h
  cases transition_of_step h with
  | reset es he => exact .inr (.inl ⟨es, he⟩)
  | offer => exact .inl rfl
  | move es _ _ hm => exact (move_accs hm).imp_right .inr

/-- Settles O45, by the writers among the moves (`move_seq`). -/
theorem phaseAndCounterTransitions : Obligations.PhaseAndCounterTransitions := by
  intro s t h
  cases transition_of_step h with
  | reset es he => exact .inr (.inl ⟨⟨es, he⟩, rfl, rfl⟩)
  | offer => exact .inl ⟨rfl, rfl⟩
  | move es _ _ hm => exact (move_seq hm).imp_right .inr

/-- Settles O48: in `IDLE` no mover reads the accumulators (`step_hidesAccs`). -/
theorem accumulatorDrawIsNeverObserved : Obligations.AccumulatorDrawIsNeverObserved := by
  intro s t q hp h
  obtain ⟨u, t', hu, ht', hsame⟩ := step_hidesAccs q hp
  obtain rfl := next_inj (h.symm.trans hu)
  exact ⟨t', ht', hsame⟩

/-- Settles O35: a waiting offer leaves the step to the default move, whose frame keeps the events and the offered word. -/
theorem offersWaitForThePort : Obligations.OffersWaitForThePort := by
  refine ⟨fun s w es he hc => step_offer he hc, fun s t w w' es he hc h => ?_, fun s es he => ⟨_, step_reset he, rfl⟩⟩
  obtain ⟨u, hu, hm⟩ := defaultMove_move s
  obtain rfl := next_inj (h.symm.trans ((step_waiting he hc).trans hu))
  obtain ⟨hcmd, hevents, -⟩ := move_frame hm
  exact ⟨hevents, hcmd.imp_left (·.trans hc)⟩

/-- Settles O37: each value is the one `State.reset` is written with; `BUSY` and `STATUS` follow from the phase. -/
theorem stateAfterReset : Obligations.StateAfterReset :=
  ⟨rfl, rfl, rfl, rfl, rfl, rfl, rfl, rfl, rfl, rfl, rfl⟩

/-- Settles O38: the buffer's list is empty, the table is the spec's, the phase is `IDLE` and the port is free. -/
theorem invariantHoldsAfterReset : Obligations.InvariantHoldsAfterReset where
  memory := wf_nil
  table := rfl
  counter _ := rfl
  outstanding h := absurd rfl h

end Sys2Proof

/-! ## 20_memory.md: the buffer, the schedule table, and the order of the host's commands -/

namespace Sys2Proof

/-- A concatenation as a number: the high part counts in units of the low part's range. -/
theorem toNat_append_eq_add {m n : Nat} (x : BitVec m) (y : BitVec n) :
    (x ++ y).toNat = x.toNat * 2 ^ n + y.toNat := by
  rw [BitVec.toNat_append, ← Nat.shiftLeft_add_eq_or_of_lt y.isLt, Nat.shiftLeft_eq]

end Sys2Proof

namespace Sys2Proof.Machine

/-! ### The buffer by bytes and by words -/

/-- 20_memory.md R53: four bytes as a number, the least significant byte at the lowest address. -/
theorem toNat_memRead4 (s : State) (p : Nat) : (s.memRead4 p).toNat =
    (s.memByte p).toNat + 2 ^ 8 * (s.memByte (p + 1)).toNat + 2 ^ 16 * (s.memByte (p + 2)).toNat +
      2 ^ 24 * (s.memByte (p + 3)).toNat := by
  unfold State.memRead4
  rw [toNat_append_eq_add, toNat_append_eq_add, toNat_append_eq_add]
  ring

/-- 20_memory.md R54: byte `i` of word `k` has the address `4k + i`. -/
theorem toNat_append_offset (k : BitVec 4) (i : BitVec 2) : (k ++ i).toNat = wordAddress k + i.toNat := by
  rw [toNat_append_eq_add]; unfold wordAddress; omega

/-- 45_host_commands.md R184 for byte `i` of word `k`. -/
theorem exec_wrb_offset {s : State} (h : s.PH = .idle) (k : BitVec 4) (i : BitVec 2) (v : Byte) :
    exec (.wrb (k ++ i) v) s = .next ((s.memWrite1 (wordAddress k + i.toNat) v).respond 0 0) := by
  rw [exec_wrb h, toNat_append_offset]

/-- The answer to the command before it leaves no trace in a `WRB`. -/
theorem exec_wrb_respond {s : State} (h : s.PH = .idle) (e : BitVec 1) (r : Word) (k : BitVec 4) (i : BitVec 2)
    (v : Byte) : exec (.wrb (k ++ i) v) (s.respond e r) =
      .next ((s.memWrite1 (wordAddress k + i.toNat) v).respond 0 0) := by
  rw [exec_wrb_offset (s := s.respond e r) h, respond_memWrite1, respond_respond]

/-! ### What a move writes of the buffer and of the port -/

/-- 20_memory.md R51, R60: of the moves, `WRB` and `WRW` in `IDLE` write the buffer. -/
theorem move_memByte {u t : State} (hm : Move u t) :
    t.memByte = u.memByte ∨
    (u.PH = .idle ∧ ∃ w, u.cmd = some w ∧
      ((∃ j v, decodeCommand w = .ok (.wrb j v)) ∨ ∃ k v, decodeCommand w = .ok (.wrw k v))) := by
  cases hm with
  | wrb w j v hc hd hp => exact .inr ⟨hp, w, hc, .inl ⟨j, v, hd⟩⟩
  | wrw w k v hc hd hp => exact .inr ⟨hp, w, hc, .inr ⟨k, v, hd⟩⟩
  | row | fold => exact .inl (memByte_congr (by simp) (by simp))
  | quiet | cmdError | rds | init | go | rdb => exact .inl (by simp)

/-- Every address that a move writes is below 64, so the buffer's list stays canonical. -/
theorem move_wf {u t : State} (hm : Move u t) (h : u.MB.wf) : t.MB.wf := by
  cases hm with
  | wrb w j v => exact wf_memWrite1 u j.toNat v h j.isLt
  | wrw w k v => exact wf_memWrite4 u (wordAddress k) v h (wordAddress_lt k)
  | row => rwa [transform_MB]
  | quiet | cmdError | rds | init | go | rdb | fold => exact h

/-- 10_state.md R35: a move leaves the port as it is, or takes the word from it. -/
theorem move_port {u t : State} (hm : Move u t) : (t.cmd = u.cmd ∧ t.rsp = u.rsp) ∨ t.cmd = none := by
  cases hm with
  | row | fold | quiet => exact .inl (by simp)
  | cmdError | rds | init | wrb | wrw | go | rdb => exact .inr rfl

/-! ### The invariant -/

/-- 10_state.md R27: a move keeps the counter 0 outside `RUN`; it leaves `RUN` at row 63 only, where it clears it. -/
theorem move_counter {u t : State} (hm : Move u t) (h : u.PH ≠ .run → u.STEP = 0) (hp : t.PH ≠ .run) :
    t.STEP = 0 := by
  rcases move_seq hm with ⟨hph, hstep⟩ | ⟨-, -, hrun, -⟩ | ⟨-, -, hrun, -⟩ | ⟨-, -, -, hzero⟩ | ⟨hfold, -, hstep⟩
  · exact hstep.trans (h (hph ▸ hp))
  · exact absurd hrun hp
  · exact absurd hrun hp
  · exact hzero
  · exact hstep.trans (h (by simp [hfold]))

theorem inv_of_move {u t : State} (h : u.Inv) (hm : Move u t) : t.Inv where
  memory := move_wf hm h.memory
  table := (move_frame hm).2.2.trans h.table
  counter := move_counter hm h.counter
  outstanding hc := by
    rcases move_port hm with ⟨hcmd, hrsp⟩ | hnone
    · exact hrsp.trans (h.outstanding (hcmd ▸ hc))
    · exact absurd hnone hc

/-- The invariant does not speak of the events to come. -/
theorem inv_setEvents {s : State} (h : s.Inv) (es : List Event) : (s.setEvents es).Inv where
  memory := h.memory
  table := h.table
  counter := h.counter
  outstanding := h.outstanding

theorem inv_resetNow {s : State} (h : s.SCHED = schedule) : s.resetNow.Inv where
  memory := wf_nil
  table := h
  counter _ := rfl
  outstanding hc := absurd rfl hc

/-- An offer takes the last response (10_state.md R35, log 3). -/
theorem inv_place {s : State} (h : s.Inv) (w : CmdWord) : (s.place w).Inv where
  memory := h.memory
  table := h.table
  counter := h.counter
  outstanding _ := rfl

end Sys2Proof.Machine

namespace Sys2Proof

open Machine

/-- Settles O39: a reset and an offer establish the invariant directly; for a move of the port or of the core, each of the
four properties has its lemma (`inv_of_move`). -/
theorem everyStepKeepsTheInvariant : Obligations.EveryStepKeepsTheInvariant := by
  intro s t h hstep
  cases transition_of_step hstep with
  | reset => exact inv_resetNow h.table
  | offer w es => exact inv_place (inv_setEvents h es) w
  | move es _ _ hm => exact inv_of_move (inv_setEvents h es) hm

/-- Settles O49: an offer changes neither the settled value nor a byte; a move of the port or of the core is to the host
nothing, a refusal, or one whole command (`seen_of_move`). -/
theorem stepsActAsOneCommandAfterAnother : Obligations.StepsActAsOneCommandAfterAnother := by
  intro s t hsched hstep hnoreset
  cases transition_of_step hstep with
  | reset es he => exact absurd he (hnoreset es)
  | offer w es he hc => exact .inl ⟨settled_place _ w, rfl, .inr hc⟩
  | move es _ _ hm =>
    cases seen_of_move (u := s.setEvents es) hsched hm with
    | nothing hsettled hbytes hcmd => exact .inl ⟨hsettled, hbytes, .inl hcmd⟩
    | refused w e hc hd hsettled hbytes htaken hrsp =>
      exact .inr ⟨w, _, hc, htaken, hrsp, .inl ⟨hsettled, hbytes, rfl, e, hd⟩⟩
    | taken w i r hc hd hsettled hbytes htaken hrsp hanswer =>
      rw [settled_setEvents] at hsettled hbytes hanswer
      exact .inr ⟨w, r, hc, htaken, hrsp, .inr ⟨i, hd, Prod.ext hsettled hbytes, hanswer⟩⟩

/-- Settles O17, by the number that four bytes make and by the place of each byte in its word. -/
theorem wordViewIsLittleEndian : Obligations.WordViewIsLittleEndian :=
  ⟨fun s k => toNat_memRead4 s (wordAddress k), fun s j => (byte_of_X s j).symm⟩

/-- Settles O18: each `WRB` writes its byte as if none before it had been answered, so the four leave the four writes of
`memWrite4` and the last answer. -/
theorem wordWriteIsFourByteWrites : Obligations.WordWriteIsFourByteWrites := by
  intro s k w hp
  refine ⟨_, _, _, _, exec_wrw hp k w, exec_wrb_offset hp k 0b00#2 _, exec_wrb_respond ?_ 0 0 k 0b01#2 _,
    exec_wrb_respond ?_ 0 0 k 0b10#2 _, (exec_wrb_respond ?_ 0 0 k 0b11#2 _).trans ?_⟩
  · exact hp
  · exact hp
  · exact hp
  · rw [memWrite4_eq]; rfl

/-- Settles O19, by the laws of the buffer's list. -/
theorem bufferReadsTheLastWriteAndStaysCanonical : Obligations.BufferReadsTheLastWriteAndStaysCanonical :=
  ⟨fun m p q v => lookup_write m p v q, wf_write, memory_ext⟩

/-- Settles O43, by the writers of the buffer among the moves (`move_memByte`). -/
theorem bufferChangesOnlyByHostWritesInIdle : Obligations.BufferChangesOnlyByHostWritesInIdle := by
  intro s t hstep hnoreset
  cases transition_of_step hstep with
  | reset es he => exact absurd he (hnoreset es)
  | offer => exact .inl fun _ => rfl
  | move es _ _ hm => exact (move_memByte hm).imp_left congrFun

/-- Settles O44: reset and offers keep the table, and so do the moves (`move_frame`). -/
theorem noTransitionWritesTheSchedule : Obligations.NoTransitionWritesTheSchedule := by
  intro s t hstep
  cases transition_of_step hstep with
  | reset | offer => rfl
  | move es _ _ hm => exact (move_frame hm).2.2

end Sys2Proof

/-! ## 30_encoding.md: words as sums, the decoder as match and mask, and the answers -/

namespace Sys2Proof

/-! ### Words as numbers (30_encoding.md R70, R75) -/

theorem toNat_commandWord (op : BitVec 3) (addr : BitVec 6) (data : Word) :
    (commandWord op addr data).toNat = op.toNat * 2 ^ 38 + addr.toNat * 2 ^ 32 + data.toNat := by
  unfold commandWord
  rw [toNat_append_eq_add, toNat_append_eq_add]
  ring

theorem toNat_rowWord (fn : BitVec 2) (k : BitVec 4) (s : BitVec 5) (T : Word) :
    (rowWord fn k s T).toNat = fn.toNat * 2 ^ 41 + k.toNat * 2 ^ 37 + s.toNat * 2 ^ 32 + T.toNat := by
  unfold rowWord
  rw [toNat_append_eq_add, toNat_append_eq_add, toNat_append_eq_add]
  ring

/-- The row with round function `fn` lies `fn` times `2^41` above the row with function 0. -/
theorem toNat_rowWord_eq_add (fn : BitVec 2) (k : BitVec 4) (s : BitVec 5) (T : Word) :
    (rowWord fn k s T).toNat = fn.toNat * 2 ^ 41 + (rowWord 0 k s T).toNat := by
  rw [toNat_rowWord, toNat_rowWord]
  simp only [BitVec.ofNat_eq_ofNat, BitVec.toNat_ofNat]
  omega

/-! ### Operands that are parts of a field (30_encoding.md R71) -/

@[simp] theorem dataByte_append (high : BitVec 24) (v : Byte) : dataByte (high ++ v) = v := by
  unfold dataByte
  rw [extract_append_low _ _ _ _ (by omega)]; exact extract_all v

@[simp] theorem addrLow_append (high : BitVec 2) (k : BitVec 4) : addrLow (high ++ k) = k := by
  unfold addrLow
  rw [extract_append_low _ _ _ _ (by omega)]; exact extract_all k

@[simp] theorem addrHigh_append (high : BitVec 2) (k : BitVec 4) : addrHigh (high ++ k) = high := by
  unfold addrHigh
  rw [extract_append_high _ _ _ _ (by omega)]; exact extract_all high

/-! ### Rows (30_encoding.md R76) -/

theorem encode_decodeRow (r : RowWord) : encode (decodeRow r) = .row r := by
  conv_rhs => rw [← rowWord_eta r]
  unfold decodeRow
  rcases fn_cases (rowFn r) with h | h | h | h <;> rw [h] <;> rfl

theorem decodeRow_inj {r r' : RowWord} : decodeRow r = decodeRow r' ↔ r = r' := by
  refine ⟨fun h => ?_, congrArg decodeRow⟩
  have := congrArg encode h
  rwa [encode_decodeRow, encode_decodeRow, Fetched.row.injEq] at this

/-- The mask over `fn` tests which operation the row decodes to. -/
theorem fn_mask_iff_decodeRow (r : RowWord) (c : BitVec 2) :
    r &&& rowWord 3 0 0 0 = rowWord c 0 0 0 ↔ ∃ k s T, decodeRow r = decodeRow (rowWord c k s T) := by
  simp only [fn_mask, decodeRow_inj]
  constructor
  · rintro rfl; exact ⟨_, _, _, (rowWord_eta r).symm⟩
  · rintro ⟨k, s, T, rfl⟩; exact rowFn_rowWord ..

/-! ### The decoder of commands, said once with its inverse (30_encoding.md R72, R80) -/

/-- What a command word decodes to, with the fields that decide it. -/
inductive Decodes (w : CmdWord) : Except DecodeError Instr → Prop where
  | rds (ho : cmdOp w = 0) : Decodes w (.ok .rds)
  | init (ho : cmdOp w = 1) : Decodes w (.ok .init)
  | wrb (ho : cmdOp w = 2) : Decodes w (.ok (.wrb (cmdAddr w) (dataByte (cmdData w))))
  | wrw (ho : cmdOp w = 3) (hz : addrHigh (cmdAddr w) = 0) :
      Decodes w (.ok (.wrw (addrLow (cmdAddr w)) (cmdData w)))
  | wrwHighAddress (ho : cmdOp w = 3) (hz : addrHigh (cmdAddr w) ≠ 0) : Decodes w (.error .wrwHighAddress)
  | go (ho : cmdOp w = 4) : Decodes w (.ok .go)
  | rdb (ho : cmdOp w = 5) (hz : addrHigh (cmdAddr w) = 0) : Decodes w (.ok (.rdb (addrLow (cmdAddr w))))
  | rdbHighAddress (ho : cmdOp w = 5) (hz : addrHigh (cmdAddr w) ≠ 0) : Decodes w (.error .rdbHighAddress)
  | reservedOp (ho : cmdOp w = 6 ∨ cmdOp w = 7) : Decodes w (.error .reservedOp)

theorem decodes_decodeCommand (w : CmdWord) : Decodes w (decodeCommand w) := by
  rcases op_cases (cmdOp w) with ho | ho | ho | ho | ho | ho | ho | ho
  · rw [decode_op0 w ho]; exact .rds ho
  · rw [decode_op1 w ho]; exact .init ho
  · rw [decode_op2 w ho]; exact .wrb ho
  · rw [decode_op3 w ho]
    split
    · exact .wrw ho ‹_›
    · exact .wrwHighAddress ho ‹_›
  · rw [decode_op4 w ho]; exact .go ho
  · rw [decode_op5 w ho]
    split
    · exact .rdb ho ‹_›
    · exact .rdbHighAddress ho ‹_›
  · rw [decode_op6 w ho]; exact .reservedOp (.inl ho)
  · rw [decode_op7 w ho]; exact .reservedOp (.inr ho)

theorem decodes_of_eq {w : CmdWord} {d : Except DecodeError Instr} (h : decodeCommand w = d) : Decodes w d :=
  h ▸ decodes_decodeCommand w

section
variable (w : CmdWord)

theorem decode_eq_rds_iff : decodeCommand w = .ok .rds ↔ cmdOp w = 0 := by
  refine ⟨fun h => ?_, decode_op0 w⟩
  cases decodes_of_eq h with | rds ho => exact ho

theorem decode_eq_init_iff : decodeCommand w = .ok .init ↔ cmdOp w = 1 := by
  refine ⟨fun h => ?_, decode_op1 w⟩
  cases decodes_of_eq h with | init ho => exact ho

theorem decode_eq_wrb_iff : (∃ j v, decodeCommand w = .ok (.wrb j v)) ↔ cmdOp w = 2 := by
  refine ⟨fun ⟨j, v, h⟩ => ?_, fun ho => ⟨_, _, decode_op2 w ho⟩⟩
  cases decodes_of_eq h with | wrb ho => exact ho

theorem decode_eq_wrw_iff :
    (∃ k v, decodeCommand w = .ok (.wrw k v)) ↔ cmdOp w = 3 ∧ addrHigh (cmdAddr w) = 0 := by
  refine ⟨fun ⟨k, v, h⟩ => ?_, fun ⟨ho, hz⟩ => ⟨_, _, (decode_op3 w ho).trans (if_pos hz)⟩⟩
  cases decodes_of_eq h with | wrw ho hz => exact ⟨ho, hz⟩

theorem decode_eq_go_iff : decodeCommand w = .ok .go ↔ cmdOp w = 4 := by
  refine ⟨fun h => ?_, decode_op4 w⟩
  cases decodes_of_eq h with | go ho => exact ho

theorem decode_eq_rdb_iff : (∃ j, decodeCommand w = .ok (.rdb j)) ↔ cmdOp w = 5 ∧ addrHigh (cmdAddr w) = 0 := by
  refine ⟨fun ⟨j, h⟩ => ?_, fun ⟨ho, hz⟩ => ⟨_, (decode_op5 w ho).trans (if_pos hz)⟩⟩
  cases decodes_of_eq h with | rdb ho hz => exact ⟨ho, hz⟩

/-- A word is an error exactly when it decodes to none of the six commands. -/
theorem decode_error_iff : (∃ e, decodeCommand w = .error e) ↔
    decodeCommand w ≠ .ok .rds ∧ decodeCommand w ≠ .ok .init ∧ (¬∃ j v, decodeCommand w = .ok (.wrb j v)) ∧
      (¬∃ k v, decodeCommand w = .ok (.wrw k v)) ∧ decodeCommand w ≠ .ok .go ∧
      ¬∃ j, decodeCommand w = .ok (.rdb j) := by
  cases hd : decodeCommand w with
  | error e => simp
  | ok i =>
    rcases Machine.decodeCommand_not_step hd with rfl | rfl | ⟨j, v, rfl⟩ | ⟨k, v, rfl⟩ | rfl | ⟨j, rfl⟩ <;> simp

end

end Sys2Proof

namespace Sys2Proof.Machine

/-! ### The answer to an offered word (30_encoding.md R74, 10_state.md R35) -/

/-- The word `w` has left the port and stands answered, with `err = 1` and `rdata = 0` if it spells no command. -/
def Answered (w : CmdWord) (t : State) : Prop :=
  t.cmd = none ∧ ∃ v : Word,
    (t.rsp = some (rspWord 0 v) ∧ ∃ i, decodeCommand w = .ok i) ∨
    (t.rsp = some (rspWord 1 0) ∧ ∃ e, decodeCommand w = .error e)

theorem answered_respond_ok {w : CmdWord} {i : Instr} (hd : decodeCommand w = .ok i) (u : State) (v : Word) :
    Answered w (u.respond 0 v) := ⟨rfl, v, .inl ⟨rfl, i, hd⟩⟩

theorem answered_respond_error {w : CmdWord} {e : DecodeError} (hd : decodeCommand w = .error e) (u : State) :
    Answered w (u.respond 1 0) := ⟨rfl, 0, .inr ⟨rfl, e, hd⟩⟩

/-- A move leaves the offered word and the response as they are, or takes the word and answers it. -/
theorem move_answers {u t : State} {w : CmdWord} (hc : u.cmd = some w) (hm : Move u t) :
    (t.cmd = some w ∧ t.rsp = u.rsp) ∨ Answered w t := by
  have offered {w' : CmdWord} (hc' : u.cmd = some w') : decodeCommand w = decodeCommand w' :=
    congrArg decodeCommand (Option.some.inj (hc.symm.trans hc'))
  cases hm with
  | quiet | row | fold => exact .inl (by simp [hc])
  | cmdError w' e hc' hd => exact .inr (answered_respond_error ((offered hc').trans hd) _)
  | rds w' hc' hd | init w' hc' hd | go w' hc' hd => exact .inr (answered_respond_ok ((offered hc').trans hd) _ _)
  | wrb w' j v hc' hd | wrw w' k v hc' hd => exact .inr (answered_respond_ok ((offered hc').trans hd) _ _)
  | rdb w' j hc' hd => exact .inr (answered_respond_ok ((offered hc').trans hd) _ _)

end Sys2Proof.Machine

namespace Sys2Proof

open Machine

/-- Settles O5: decoding a row is injective, so the mask over `fn` tells the four operations apart. -/
theorem everyRowWordIsOneStepOperation : Obligations.EveryRowWordIsOneStepOperation := by
  intro r
  refine ⟨encode_decodeRow r, ?f, ?g, ?h, ?i⟩
  case f => exact (fn_mask_iff_decodeRow r 0).trans (by simp only [decodeRow_rowWord0])
  case g => exact (fn_mask_iff_decodeRow r 1).trans (by simp only [decodeRow_rowWord1])
  case h => exact (fn_mask_iff_decodeRow r 2).trans (by simp only [decodeRow_rowWord2])
  case i => exact (fn_mask_iff_decodeRow r 3).trans (by simp only [decodeRow_rowWord3])

/-- Settles O6: each test of the table is a test of `op`, or of `op` and `addr[5:4]`, which decide the command. -/
theorem decoderIsTheMatchAndMaskTable : Obligations.DecoderIsTheMatchAndMaskTable := by
  intro w
  have hrds := (op_mask w 0).trans (decode_eq_rds_iff w).symm
  have hinit := (op_mask w 1).trans (decode_eq_init_iff w).symm
  have hwrb := (op_mask w 2).trans (decode_eq_wrb_iff w).symm
  have hwrw := (op_addrHigh_mask w 3).trans (decode_eq_wrw_iff w).symm
  have hgo := (op_mask w 4).trans (decode_eq_go_iff w).symm
  have hrdb := (op_addrHigh_mask w 5).trans (decode_eq_rdb_iff w).symm
  refine ⟨hrds, hinit, hwrb, hwrw, hgo, hrdb, (decode_error_iff w).trans ?_⟩
  exact and_congr hrds.not.symm <| and_congr hinit.not.symm <| and_congr hwrb.not.symm <|
    and_congr hwrw.not.symm <| and_congr hgo.not.symm hrdb.not.symm

/-- Settles O7: the decoder reads the fields of an assembled word by opcode; the fields' parts are read back. -/
theorem ignoredBitsHaveNoEffect : Obligations.IgnoredBitsHaveNoEffect := by
  intro addr data
  refine ⟨decode_op0 _ (by simp), decode_op1 _ (by simp), decode_op4 _ (by simp), fun high v => ?_, fun zero k =>
    ⟨fun hz => ⟨?_, ?_⟩, fun hz => ⟨⟨.wrwHighAddress, ?_⟩, .rdbHighAddress, ?_⟩⟩⟩
  · rw [decode_op2 _ (by simp)]; simp
  · rw [decode_op3 _ (by simp)]; simp [hz]
  · rw [decode_op5 _ (by simp)]; simp [hz]
  · rw [decode_op3 _ (by simp)]; simpa using hz
  · rw [decode_op5 _ (by simp)]; simpa using hz

/-- Settles O8: a step that is no reset, with a word on the port, is a move of the port or of the core
(`move_answers`). -/
theorem acceptedCommandsAreAnsweredOnce : Obligations.AcceptedCommandsAreAnsweredOnce := by
  refine ⟨toNat_rspWord, fun s t w hstep hc hnoreset => ?_⟩
  cases transition_of_step hstep with
  | reset es he => exact absurd he (hnoreset es)
  | offer w' es he hfree => cases hfree.symm.trans hc
  | move es _ _ hm => exact move_answers (u := s.setEvents es) hc hm

/-- Settles O2, by the numbers of the words and by the fields of assembled words. -/
theorem wordsAreTheSumsOfTheirFields : Obligations.WordsAreTheSumsOfTheirFields :=
  ⟨fun op addr data => ⟨toNat_commandWord op addr data, cmdOp_commandWord .., cmdAddr_commandWord ..,
      cmdData_commandWord ..⟩,
    fun fn k s T => ⟨toNat_rowWord fn k s T, rowFn_rowWord .., rowK_rowWord .., rowS_rowWord .., rowT_rowWord ..⟩⟩

/-- Settles O3: the words that `encode` assembles, as the sums of their fields; operands are widened without change. -/
theorem assemblerWordsAreTheSumsOfR82 : Obligations.AssemblerWordsAreTheSumsOfR82 := by
  refine ⟨rfl, rfl, rfl, fun j v => ⟨_, rfl, ?_⟩, fun k v => ⟨_, rfl, ?_⟩, fun j => ⟨_, rfl, ?_⟩, fun k s T =>
    ⟨_, _, _, _, rfl, ?_, rfl, ?_, rfl, ?_, rfl, ?_⟩⟩
  · rw [toNat_commandWord, BitVec.toNat_setWidth_of_le (by omega)]; simp
  · rw [toNat_commandWord, BitVec.toNat_setWidth_of_le (by omega)]; simp
  · rw [toNat_commandWord, BitVec.toNat_setWidth_of_le (by omega)]; simp
  · simpa using toNat_rowWord 0 k s T
  · exact toNat_rowWord_eq_add 1 k s T
  · exact toNat_rowWord_eq_add 2 k s T
  · exact toNat_rowWord_eq_add 3 k s T

end Sys2Proof

/-! ## 40_primitives.md: the adder and the rotator -/

namespace Sys2Proof.Machine

/-! ### The adder (40_primitives.md R100, R101) -/

theorem toNat_ADD32 (x y : Word) : (ADD32 x y).toNat = (x.toNat + y.toNat) % 2 ^ 32 := BitVec.toNat_add x y

theorem ADD32_comm (x y : Word) : ADD32 x y = ADD32 y x := BitVec.add_comm x y

theorem ADD32_assoc (x y z : Word) : ADD32 (ADD32 x y) z = ADD32 x (ADD32 y z) := BitVec.add_assoc x y z

theorem toNat_ADD32_ADD32 (x y z : Word) :
    (ADD32 x (ADD32 y z)).toNat = (x.toNat + y.toNat + z.toNat) % 2 ^ 32 := by
  rw [toNat_ADD32, toNat_ADD32, Nat.add_mod_mod, Nat.add_assoc]

/-! ### The rotator on the amounts 1 to 31 (40_primitives.md R102, R104) -/

section
variable (x : Word) {n : BitVec 5}

/-- On the amounts that R102 gives a meaning to, the rotator is the rotation of bit vectors. -/
theorem ROTL32_eq_rotateLeft (hn : 1 ≤ n.toNat) : ROTL32 x n = x.rotateLeft n.toNat := by
  have hne : n ≠ 0 := by rintro rfl; contradiction
  rw [ROTL32, if_neg hne, BitVec.rotateLeft_def, Nat.mod_eq_of_lt n.isLt]

theorem toNat_ROTL32 (hn : 1 ≤ n.toNat) :
    (ROTL32 x n).toNat = (x.toNat * 2 ^ n.toNat ||| x.toNat / 2 ^ (32 - n.toNat)) % 2 ^ 32 := by
  have hlow : x.toNat / 2 ^ (32 - n.toNat) < 2 ^ 32 := (Nat.div_le_self _ _).trans_lt x.isLt
  rw [ROTL32_eq_rotateLeft x hn, BitVec.toNat_rotateLeft, Nat.mod_eq_of_lt n.isLt, Nat.shiftLeft_eq,
    Nat.shiftRight_eq_div_pow, Nat.or_mod_two_pow, Nat.mod_eq_of_lt hlow]

/-- Bit `p` moves up by `n`, or, past the top of the word, down by `32 - n`. -/
theorem getLsbD_ROTL32 (hn : 1 ≤ n.toNat) {p : Nat} (hp : p < 32) :
    (ROTL32 x n).getLsbD ((p + n.toNat) % 32) = x.getLsbD p := by
  have hn32 : n.toNat < 32 := n.isLt
  rw [ROTL32_eq_rotateLeft x hn, BitVec.getLsbD_rotateLeft_of_le hn32]
  by_cases hwrap : p + n.toNat < 32
  · have hplace : (p + n.toNat) % 32 = p + n.toNat := Nat.mod_eq_of_lt hwrap
    simp [hplace, hwrap]
  · have hplace : (p + n.toNat) % 32 = p + n.toNat - 32 := by omega
    have hbelow : p + n.toNat - 32 < n.toNat := by omega
    have hfrom : 32 - n.toNat + (p + n.toNat - 32) = p := by omega
    simp [hplace, hbelow, hfrom]

/-- Two rotations whose amounts make a whole turn move every bit back to its place. -/
theorem ROTL32_ROTL32_of_add_eq {m : BitVec 5} (hn : 1 ≤ n.toNat) (hm : 1 ≤ m.toNat)
    (hturn : n.toNat + m.toNat = 32) : ROTL32 (ROTL32 x n) m = x := by
  refine BitVec.eq_of_getLsbD_eq fun p hp => ?_
  have hback : ((p + n.toNat) % 32 + m.toNat) % 32 = p := by omega
  calc (ROTL32 (ROTL32 x n) m).getLsbD p
      = (ROTL32 (ROTL32 x n) m).getLsbD (((p + n.toNat) % 32 + m.toNat) % 32) := by rw [hback]
    _ = (ROTL32 x n).getLsbD ((p + n.toNat) % 32) := getLsbD_ROTL32 _ hm (Nat.mod_lt _ (by decide))
    _ = x.getLsbD p := getLsbD_ROTL32 x hn hp

end

end Sys2Proof.Machine

namespace Sys2Proof

open Machine

/-- Settles O9. -/
theorem adderIsAdditionModuloTwoToThe32 : Obligations.AdderIsAdditionModuloTwoToThe32 := toNat_ADD32

/-- Settles O10: the adder inherits both laws from bit vectors; the number of three terms is reduced once. -/
theorem adderIsCommutativeAndAssociative : Obligations.AdderIsCommutativeAndAssociative :=
  fun x y z => ⟨ADD32_comm x y, (ADD32_assoc x y z).symm, toNat_ADD32_ADD32 x y z⟩

/-- Settles O11, by the rotation of bit vectors: its number, and the place each bit goes to. -/
theorem rotatorByFormulaAndByBit : Obligations.RotatorByFormulaAndByBit :=
  fun x _ hn => ⟨toNat_ROTL32 x hn, fun _ hp => getLsbD_ROTL32 x hn hp⟩

/-- Settles O12: `n` and `32 - n` make a whole turn; the sum of the two words is 0, but each rotates to 1. -/
theorem rotationIsInvertibleAndDoesNotDistribute : Obligations.RotationIsInvertibleAndDoesNotDistribute := by
  refine ⟨fun x n m hn hm => ?inverse, ?sum⟩
  case inverse =>
    have hn32 : n.toNat < 32 := n.isLt
    exact ROTL32_ROTL32_of_add_eq x hn (by omega) (by omega)
  case sum =>
    have hsum : ROTL32 (ADD32 0x80000000 0x80000000) 1 = 0 := by decide
    have hterms : ADD32 (ROTL32 0x80000000 1) (ROTL32 0x80000000 1) = 2 := by decide
    rw [hsum, hterms]
    decide

end Sys2Proof

/-! ## 41_round_functions.md: the round functions and their multiplexer -/

namespace Sys2Proof.Machine

/-! ### The four functions at one bit position (41_round_functions.md R110 to R113) -/

section
variable (x y z : Word)

/-- R111: `G` is the selector `F` with `z` as the select. -/
theorem G_eq_F : G x y z = F z x y := by rw [G, F, BitVec.and_comm x, BitVec.and_comm y]

variable {p : Nat} (hp : p < 32)
include hp

/-- R110: the bit of `x` selects between the bits of `y` and `z`. -/
theorem getLsbD_F : (F x y z).getLsbD p = if x.getLsbD p then y.getLsbD p else z.getLsbD p := by
  have hbit : (F x y z).getLsbD p = (x.getLsbD p && y.getLsbD p || !x.getLsbD p && z.getLsbD p) := by simp [F, hp]
  rw [hbit]
  cases x.getLsbD p <;> simp

theorem getLsbD_G : (G x y z).getLsbD p = if z.getLsbD p then x.getLsbD p else y.getLsbD p := by
  rw [G_eq_F, getLsbD_F z x y hp]

omit hp in
theorem getLsbD_H : (H x y z).getLsbD p = (x.getLsbD p ^^ y.getLsbD p ^^ z.getLsbD p) := by
  rw [H, BitVec.getLsbD_xor, BitVec.getLsbD_xor, Bool.xor_assoc]

/-- R113: `x OR (NOT z)`, which inverts the bit of `y`, is 0 only where the bit of `x` is 0 and the bit of `z` is 1. -/
theorem getLsbD_I :
    (I x y z).getLsbD p = if !x.getLsbD p && z.getLsbD p then y.getLsbD p else !y.getLsbD p := by
  have hmask : (x ||| ~~~z).getLsbD p = !(!x.getLsbD p && z.getLsbD p) := by simp [hp]
  rw [I, BitVec.getLsbD_xor, hmask]
  cases !x.getLsbD p && z.getLsbD p <;> simp

end

/-! ### The multiplexer and its select (41_round_functions.md R114) -/

section
variable (x y z : Word)

@[simp] theorem roundFn_zero : roundFn 0 x y z = F x y z := rfl

@[simp] theorem roundFn_one : roundFn 1 x y z = G x y z := rfl

@[simp] theorem roundFn_two : roundFn 2 x y z = H x y z := rfl

@[simp] theorem roundFn_three : roundFn 3 x y z = I x y z := rfl

end

/-- The sixteen rows of each round select the round's function: the field `fn` read off the 64 rows of R125. -/
theorem rowFn_schedule : ∀ i : Fin 64, (rowFn schedule[i]).toNat = i.val / 16 := by decide

end Sys2Proof.Machine

namespace Sys2Proof

open Machine

/-- Settles O13: the formulas are the definitions; each bit is read off them. -/
theorem roundFunctionsBitByBit : Obligations.RoundFunctionsBitByBit :=
  ⟨fun x y z _ hp => ⟨getLsbD_F x y z hp, getLsbD_G x y z hp, getLsbD_H x y z, getLsbD_I x y z hp⟩,
    fun x y z => ⟨rfl, rfl, rfl, rfl, G_eq_F x y z⟩⟩

/-- Settles O14. -/
theorem multiplexerSelectsTheRoundsFunction : Obligations.MultiplexerSelectsTheRoundsFunction :=
  ⟨fun x y z => ⟨roundFn_zero x y z, roundFn_one x y z, roundFn_two x y z, roundFn_three x y z⟩, rowFn_schedule⟩

end Sys2Proof

/-! ## 42_transform_step.md: the schedule table and the step operations -/

namespace Sys2Proof.Machine

/-! ### The round constants (42_transform_step.md R128) -/

/-- The absolute values are no further apart than `sines_near` says, and row 63 has the widest error. -/
theorem abs_sines_near (i : Fin 64) :
    |2 ^ 128 * |Real.sin ((i.val : ℝ) + 1)| - (|(sines i).1| : ℝ)| ≤ 2 ^ 68 := by
  have hscale : |2 ^ 128 * Real.sin ((i.val : ℝ) + 1)| = 2 ^ 128 * |Real.sin ((i.val : ℝ) + 1)| := by
    rw [abs_mul, abs_of_pos (by positivity)]
  have hpow : (2 : ℝ) ^ i.val ≤ 2 ^ 63 := pow_le_pow_right₀ one_le_two (by omega)
  rw [← hscale]
  calc |(|2 ^ 128 * Real.sin ((i.val : ℝ) + 1)|) - (|(sines i).1| : ℝ)|
      ≤ |2 ^ 128 * Real.sin ((i.val : ℝ) + 1) - ((sines i).1 : ℝ)| := abs_abs_sub_abs_le _ _
    _ ≤ 16 * 2 ^ i.val - 9 := (sines_near i i.isLt).1
    _ ≤ 2 ^ 68 := by linarith

/-- The room that `rows_check` leaves on both sides of the integer sine takes up the error. -/
theorem rowT_le_scaled_sine_lt (i : Fin 64) :
    ((rowT schedule[i]).toNat : ℝ) ≤ 2 ^ 32 * |Real.sin ((i.val : ℝ) + 1)| ∧
    2 ^ 32 * |Real.sin ((i.val : ℝ) + 1)| < ((rowT schedule[i]).toNat : ℝ) + 1 := by
  obtain ⟨hlow, hhigh⟩ := rows_check i
  have hlow' : ((rowT schedule[i]).toNat : ℝ) * 2 ^ 96 + 2 ^ 68 ≤ (|(sines i).1| : ℝ) := by exact_mod_cast hlow
  have hhigh' : (|(sines i).1| : ℝ) + 2 ^ 68 < ((rowT schedule[i]).toNat + 1 : ℝ) * 2 ^ 96 := by exact_mod_cast hhigh
  obtain ⟨hbelow, habove⟩ := abs_le.1 (abs_sines_near i)
  constructor <;> linarith

/-! ### The word indices and the rotate amounts (42_transform_step.md R126, R127) -/

/-- R126, read off the 64 rows of R125. -/
theorem rowK_schedule : ∀ i : Fin 64, (rowK schedule[i]).toNat =
    if i.val < 16 then i.val else if i.val < 32 then (5 * i.val + 1) % 16
    else if i.val < 48 then (3 * i.val + 5) % 16 else (7 * i.val) % 16 := by decide

/-- R127, read off the 64 rows of R125. -/
theorem rowS_schedule : ∀ i : Fin 64, (rowS schedule[i]).toNat =
    (([[7, 12, 17, 22], [5, 9, 14, 20], [4, 11, 16, 23], [6, 10, 15, 21]] : List (List Nat)).getD
      (i.val / 16) []).getD (i.val % 4) 0 := by decide

/-- The factor of the row number in the index formula of each round. -/
def indexFactor (round : Nat) : Nat := [1, 5, 3, 7].getD round 0

/-- The summand in the index formula of each round. -/
def indexOffset (round : Nat) : Nat := [0, 1, 5, 0].getD round 0

/-- R126 with the round as a parameter of one formula. -/
theorem rowK_schedule_affine : ∀ i : Fin 64, (rowK schedule[i]).toNat =
    (indexFactor (i.val / 16) * i.val + indexOffset (i.val / 16)) % 16 := by decide

theorem indexFactor_coprime : ∀ r < 4, Nat.gcd 16 (indexFactor r) = 1 := by decide

/-- A row's round and the word it reads. -/
def roundAndWord (i : Fin 64) : Fin 4 × Fin 16 := (⟨i.val / 16, by omega⟩, (rowK schedule[i]).toFin)

theorem roundAndWord_eq_iff (i : Fin 64) (r : Fin 4) (k : BitVec 4) :
    roundAndWord i = (r, k.toFin) ↔ i.val / 16 = r.val ∧ rowK schedule[i] = k := by
  simp [roundAndWord, Fin.ext_iff, BitVec.toNat_eq]

/-- The factor is prime to 16, so two rows of one round read different words. -/
theorem roundAndWord_injective : Function.Injective roundAndWord := by
  intro i j hij
  obtain ⟨hround, hword⟩ : i.val / 16 = j.val / 16 ∧ rowK schedule[i] = rowK schedule[j] :=
    (roundAndWord_eq_iff i _ _).1 hij
  have hindex := congrArg BitVec.toNat hword
  rw [rowK_schedule_affine, rowK_schedule_affine, hround] at hindex
  have hmod : i.val % 16 = j.val % 16 :=
    (Nat.ModEq.add_right_cancel' _ hindex).cancel_left_of_coprime (indexFactor_coprime _ (by omega))
  exact Fin.ext (by omega)

/-- There are as many rows as pairs of a round and a word. -/
theorem roundAndWord_bijective : Function.Bijective roundAndWord :=
  (Fintype.bijective_iff_injective_and_card _).2 ⟨roundAndWord_injective, by simp⟩

/-! ### What a step is (42_transform_step.md R120 to R124) -/

/-- The select of a row is its round. -/
theorem rowFn_schedule_of_round {i : Fin 64} (r : Nat) (h : i.val / 16 = r) : rowFn schedule[i] = BitVec.ofNat 2 r := by
  subst h
  rw [← rowFn_schedule i, BitVec.ofNat_toNat, BitVec.setWidth_eq]

/-- R120 and R129 as one update, in the accumulators' names. -/
theorem transform_eq_roundFn (fn : BitVec 2) (k : BitVec 4) (n : BitVec 5) (T : Word) (s : State) :
    s.transform fn k n T =
      { s with a := s.d, b := ADD32 (ROTL32 (ADD32 s.a (ADD32 (ADD32 (roundFn fn s.b s.c s.d) (s.X k)) T)) n) s.b,
               c := s.b, d := s.c, PH := if s.STEP = 63 then .fold else s.PH,
               STEP := if s.STEP = 63 then 0 else s.STEP + 1 } := transform_eq s fn k n T

end Sys2Proof.Machine

namespace Sys2Proof

theorem rowWord_of_rowFn {r : RowWord} {fn : BitVec 2} (h : rowFn r = fn) :
    rowWord fn (rowK r) (rowS r) (rowT r) = r := h ▸ rowWord_eta r

open Machine

/-- Settles O16: the integer sines, with their error, put `2^32 * |sin(i + 1)|` between `T` and `T + 1`. -/
theorem roundConstantsAreScaledSines : Obligations.RoundConstantsAreScaledSines := by
  intro i
  exact (Int.floor_eq_iff.2 (by exact_mod_cast rowT_le_scaled_sine_lt i)).symm

/-- Settles O15: the columns are read off the table; that a round uses each word once follows from the formulas, by
`roundAndWord_bijective`. -/
theorem scheduleIndicesAndAmounts : Obligations.ScheduleIndicesAndAmounts := by
  refine ⟨rowK_schedule, fun r k => ?once, rowS_schedule, ?range⟩
  case once =>
    obtain ⟨i, hi, hunique⟩ := roundAndWord_bijective.existsUnique (r, k.toFin)
    exact ⟨i, (roundAndWord_eq_iff i r k).1 hi, fun j hr hk => hunique j ((roundAndWord_eq_iff j r k).2 ⟨hr, hk⟩)⟩
  case range => decide

/-- Settles O29: the step of R120 with `F` selected. -/
theorem stepFResult : Obligations.StepFResult := by
  refine ⟨fun r hr => ?encoding, fun i hi => rowFn_schedule_of_round 0 (by omega), fun k n T s => ?result⟩
  case encoding => rw [← decodeRow_rowWord0, rowWord_of_rowFn hr]
  case result => rw [exec_stepF, transform_eq_roundFn, roundFn_zero, F]

/-- Settles O30: the step of R120 with `G` selected. -/
theorem stepGResult : Obligations.StepGResult := by
  refine ⟨fun r hr => ?encoding, fun i hlow hhigh => rowFn_schedule_of_round 1 (by omega), fun k n T s => ?result⟩
  case encoding => rw [← decodeRow_rowWord1, rowWord_of_rowFn hr]
  case result => rw [exec_stepG, transform_eq_roundFn, roundFn_one, G]

/-- Settles O31: the step of R120 with `H` selected. -/
theorem stepHResult : Obligations.StepHResult := by
  refine ⟨fun r hr => ?encoding, fun i hlow hhigh => rowFn_schedule_of_round 2 (by omega), fun k n T s => ?result⟩
  case encoding => rw [← decodeRow_rowWord2, rowWord_of_rowFn hr]
  case result => rw [exec_stepH, transform_eq_roundFn, roundFn_two, H]

/-- Settles O32: the step of R120 with `I` selected. -/
theorem stepIResult : Obligations.StepIResult := by
  refine ⟨fun r hr => ?encoding, fun i hlow => rowFn_schedule_of_round 3 (by omega), fun k n T s => ?result⟩
  case encoding => rw [← decodeRow_rowWord3, rowWord_of_rowFn hr]
  case result => rw [exec_stepI, transform_eq_roundFn, roundFn_three, I]

end Sys2Proof

/-! ## 43_padding.md: the padded string and the words of its length -/

namespace Sys2Proof.Machine

/-- 43_padding.md R142: `z` is the least number of zero bytes that fits. -/
theorem padZeros_le {L z : Nat} (h : (L + 1 + z) % 64 = 56) : padZeros L ≤ z := by
  unfold padZeros; omega

/-- 43_padding.md R143: the padder answers for the messages up to `LMAX`. -/
theorem pad_isSome_iff (msg : List Byte) : (pad msg).isSome = true ↔ msg.length ≤ Config.lmax := by
  unfold pad; split <;> simp [*]

/-- 43_padding.md R141: byte `u` of the length field, read out of the padded string. -/
theorem toNat_padBytes_lengthField (msg : List Byte) {u : Nat} (hu : u < 8) :
    ((padBytes msg).getD (msg.length + 1 + padZeros msg.length + u) 0).toNat = 8 * msg.length / 2 ^ (8 * u) % 2 ^ 8 := by
  rw [List.getD_eq_getElem?_getD, padBytes_lengthField msg hu, Option.getD_some, BitVec.toNat_ofNat]

/-- The low 32 bits of a number, from its four low bytes. -/
theorem sum_four_bytes (n : Nat) : n % 2 ^ 8 + 2 ^ 8 * (n / 2 ^ 8 % 2 ^ 8) + 2 ^ 16 * (n / 2 ^ 16 % 2 ^ 8) +
    2 ^ 24 * (n / 2 ^ 24 % 2 ^ 8) = n % 2 ^ 32 := by omega

/-- 43_padding.md R143 and R144: word `h` (0 the low, 1 the high) of the length in bits is the word of the array whose
four bytes start `4 * h` bytes into the length field. -/
theorem toNat_wordAt_lengthField (msg : List Byte) {h t : Nat} (hh : h < 2)
    (ht : 4 * t = msg.length + 1 + padZeros msg.length + 4 * h) :
    (wordAt (padBytes msg) t).toNat = 8 * msg.length / 2 ^ (32 * h) % 2 ^ 32 := by
  have byte : ∀ i < 4, ((padBytes msg).getD (4 * t + i) 0).toNat =
      8 * msg.length / 2 ^ (32 * h) / 2 ^ (8 * i) % 2 ^ 8 := fun i hi => by
    rw [ht, Nat.add_assoc _ (4 * h), toNat_padBytes_lengthField msg (by omega), Nat.div_div_eq_div_mul, ← pow_add,
      Nat.mul_add, ← Nat.mul_assoc]
  have byte0 : ((padBytes msg).getD (4 * t) 0).toNat = 8 * msg.length / 2 ^ (32 * h) % 2 ^ 8 := by
    simpa using byte 0 (by omega)
  rw [toNat_wordAt, ← sum_four_bytes, byte0, byte 1 (by omega), byte 2 (by omega), byte 3 (by omega)]

/-- 43_padding.md R142 and R144: a padded string is 16 words a block. -/
theorem wordArray_padBytes_length (msg : List Byte) : (wordArray (padBytes msg)).length = 16 * numBlocks msg.length := by
  rw [wordArray_length, padBytes_blocks]; omega

/-- 43_padding.md R143: the two last words of the last block, `8L` modulo `2^64` cut in halves. -/
theorem toNat_wordArray_lengthField (msg : List Byte) {h : Nat} (hh : h < 2) :
    ((wordArray (padBytes msg)).getD (16 * numBlocks msg.length - 2 + h) 0).toNat =
      8 * msg.length / 2 ^ (32 * h) % 2 ^ 32 := by
  have hblocks : msg.length + 1 + padZeros msg.length + 8 = 64 * numBlocks msg.length :=
    (padBytes_length msg).symm.trans (padBytes_blocks msg)
  rw [wordArray_getD _ (by rw [padBytes_blocks]; omega)]
  exact toNat_wordAt_lengthField msg hh (by omega)

end Sys2Proof.Machine

namespace Sys2Proof

open Machine

/-- Settles O52: the parts of the padded string, index by index. -/
theorem paddedStringByItsRule : Obligations.PaddedStringByItsRule := by
  intro msg
  exact ⟨padBytes_blocks msg, (padZeros_spec msg.length).2, fun _ => padZeros_le, fun _ => padBytes_message msg,
    padBytes_marker msg, fun _ => padBytes_zeros msg,
    fun _ hu => ⟨_, padBytes_lengthField msg hu, BitVec.toNat_ofNat ..⟩⟩

/-- Settles O53: the last two words are the halves of `8L`, and up to `LMAX` the high half is all that is left. -/
theorem lengthWordsAndTheLongestMessage : Obligations.LengthWordsAndTheLongestMessage := by
  refine ⟨pad_isSome_iff, fun msg P hP => ?_⟩
  obtain ⟨rfl, hmax⟩ := pad_eq_some hP
  refine ⟨wordArray_padBytes_length msg, ?low, ?high⟩
  case low =>
    simpa using toNat_wordArray_lengthField msg (h := 0) (by omega)
  case high =>
    have hfits : 8 * msg.length / 2 ^ 32 < 2 ^ 32 := by unfold Config.lmax at hmax; omega
    have hlast : 16 * numBlocks msg.length - 2 + 1 = 16 * numBlocks msg.length - 1 := by unfold numBlocks; omega
    rw [← hlast, toNat_wordArray_lengthField msg (by omega), Nat.mod_eq_of_lt hfits]

end Sys2Proof

/-! ## 44_compression_core.md: a block from `GO` to the add-back -/

namespace Sys2Proof.Machine

/-! ### How many core transitions a block has left (44_compression_core.md R168) -/

theorem coreMovesLeft_idle {s : State} (h : s.PH = .idle) : coreMovesLeft s = 0 := by
  unfold coreMovesLeft; rw [h]

theorem coreMovesLeft_run {s : State} (h : s.PH = .run) : coreMovesLeft s = 65 - s.STEP.toNat := by
  unfold coreMovesLeft; rw [h]

theorem coreMovesLeft_fold {s : State} (h : s.PH = .fold) : coreMovesLeft s = 1 := by
  unfold coreMovesLeft; rw [h]

/-- In `RUN` the counter stays below 64, so the count never reaches 0 there. -/
theorem coreMovesLeft_eq_zero_iff (s : State) : coreMovesLeft s = 0 ↔ s.PH = .idle := by
  cases hp : s.PH with
  | idle => simp [coreMovesLeft_idle hp]
  | run =>
    have := s.STEP.isLt
    simp only [coreMovesLeft_run hp, reduceCtorEq, iff_false]; omega
  | fold => simp [coreMovesLeft_fold hp]

theorem coreNext_run {s : State} (h : s.PH = .run) : coreNext s =
    s.transform (rowFn s.fetchRow) (rowK s.fetchRow) (rowS s.fetchRow) (rowT s.fetchRow) := by
  unfold coreNext; rw [h]

theorem coreNext_fold {s : State} (h : s.PH = .fold) : coreNext s = s.fold := by
  unfold coreNext; rw [h]

/-- The last row leaves the add-back, every other row one row less, the add-back nothing. -/
theorem coreMovesLeft_coreNext_add_one {s : State} (h : s.PH ≠ .idle) :
    coreMovesLeft (coreNext s) + 1 = coreMovesLeft s := by
  cases hp : s.PH with
  | idle => exact absurd hp h
  | fold => rw [coreNext_fold hp, coreMovesLeft_idle (fold_PH s), coreMovesLeft_fold hp]
  | run =>
    rw [coreNext_run hp, coreMovesLeft_run hp]
    by_cases hl : s.STEP = 63
    · rw [coreMovesLeft_fold (transform_last s hl ..).1, hl]; rfl
    · obtain ⟨hph, hstep⟩ := transform_before_last s hl (rowFn s.fetchRow) (rowK s.fetchRow) (rowS s.fetchRow)
        (rowT s.fetchRow)
      have := s.STEP.isLt
      rw [coreMovesLeft_run (hph.trans hp), hstep, toNat_succ_of_ne hl]; omega

/-! ### The run of a block (44_compression_core.md R164) -/

/-- The port takes `GO`, then the core moves `n` times. -/
theorem run_go_cores {s : State} {w : CmdWord} (hp : s.PH = .idle) (hc : s.cmd = some w)
    (hd : decodeCommand w = .ok .go) (n : Nat) {rest : List Event}
    (he : s.events = .port :: (List.replicate n .core ++ rest)) :
    run (n + 1) s = .next ((coreNexts n (started s)).setEvents rest) := by
  have hgo : step s = .next ((started s).setEvents (List.replicate n .core ++ rest)) :=
    (step_port he).trans (portMove_go (s := s.setEvents _) hp hc hd)
  rw [run_succ hgo, run_cores n (setEvents_events ..), coreNexts_setEvents]
  rfl

end Sys2Proof.Machine

namespace Sys2Proof

open Machine

/-- Settles O26: the meaning of `GO` in `IDLE`, and its being held in the other phases. -/
theorem goStartsABlock : Obligations.GoStartsABlock :=
  ⟨decode_eq_go_iff, fun _ => ⟨fun hp => ⟨_, exec_go hp, rfl, rfl⟩, fun hp => exec_held rfl hp⟩⟩

/-- Settles O33: the core's transition in `FOLD` is the add-back. -/
theorem foldAddsBack : Obligations.FoldAddsBack :=
  fun _ hp => ⟨_, coreMove_fold hp, rfl, rfl⟩

/-- Settles O46: the count after `GO`, where it is zero, and what a transition of the core takes off. -/
theorem everyBlockEndsAfter65CoreMoves : Obligations.EveryBlockEndsAfter65CoreMoves := by
  refine ⟨fun s t hp h => ?afterGo, coreMovesLeft_eq_zero_iff, fun s hp => ?lowered⟩
  case afterGo =>
    obtain rfl := next_inj ((exec_go hp).symm.trans h)
    exact coreMovesLeft_run rfl
  case lowered => exact ⟨_, coreMove_eq s, coreMovesLeft_coreNext_add_one hp⟩

/-- Settles O51: the run is `GO` and then transitions of the core (`run_go_cores`). These are busy up to the 64th
(`busy_after_go`), and the 65th leaves `Compress` (`after_block`), both by induction on the rows
(`afterRows_coreNexts`). -/
theorem aBlockComputesCompress : Obligations.ABlockComputesCompress := by
  intro s w rest ht hp hc hd he
  refine ⟨fun n hlow hhigh => ?busy, ?finished⟩
  case busy =>
    obtain ⟨m, rfl⟩ := Nat.exists_eq_add_of_le' hlow
    have hsplit : List.replicate 65 Event.core ++ rest =
        List.replicate m .core ++ (List.replicate (65 - m) .core ++ rest) := by
      rw [← List.append_assoc, List.replicate_append_replicate, Nat.add_sub_cancel' (by omega)]
    exact ⟨_, run_go_cores hp hc hd m (he.trans (congrArg _ hsplit)), busy_after_go ht (by omega)⟩
  case finished =>
    obtain ⟨hidle, -, hregs, hMB, hdraw, -⟩ := after_block ht
    refine ⟨_, run_go_cores hp hc hd 65 he, ?_⟩
    -- by rewriting: a check by unfolding would unroll the 65 transitions
    rw [setEvents_PH, regs_setEvents, setEvents_MB, setEvents_draw, setEvents_events]
    exact ⟨hidle, hregs, hMB, hdraw, rfl⟩

end Sys2Proof

/-! ## 45_host_commands.md: the host commands, the serializer, and the chain of `Compress` from `IV` -/

namespace Sys2Proof.Machine

/-! ### The state registers and the settled value are chained from `IV` (45_host_commands.md R203) -/

/-- Of the commands, `INIT` starts the chain anew and `GO` adds one `Compress` to it. -/
theorem chained_commandEffect {q : Quad} (h : Chained q) (i : Instr) (m : Nat → Byte) :
    Chained (commandEffect i q m).1 := by
  cases i with
  | init => exact .iv
  | go => exact .block q (wordsOf m) h
  | rds | wrb | wrw | rdb | stepF | stepG | stepH | stepI => exact h

/-- A move that writes the state registers loads `IV`, or adds back, and then they are what they were settled to be. -/
theorem chained_regs_of_move {u t : State} (hm : Move u t) (hregs : Chained u.regs) (hsettled : Chained u.settled) :
    Chained t.regs := by
  rcases move_regs hm with hsame | ⟨hiv, -⟩ | ⟨hp, -, hadd⟩
  · rwa [hsame]
  · rw [hiv]; exact .iv
  · rwa [hadd, ← settled_fold hp]

/-- A move is to the settled value nothing, or one command. -/
theorem chained_settled_of_move {u t : State} (ht : u.SCHED = schedule) (hm : Move u t) (hsettled : Chained u.settled) :
    Chained t.settled := by
  cases seen_of_move ht hm with
  | nothing hs => rwa [hs]
  | refused w e hc hd hs => rwa [hs]
  | taken w i r hc hd hs => rw [hs]; exact chained_commandEffect hsettled i u.memByte

/-! ### The bytes of a `WRW` one by one (45_host_commands.md R186) -/

theorem memByte_memWrite4_offset (s : State) (p : Nat) (w : Word) {i : Nat} (hi : i < 4) :
    (s.memWrite4 p w).memByte (p + i) = w.extractLsb' (8 * i) 8 := by
  rw [memByte_memWrite4, if_pos (by omega), Nat.add_sub_cancel_left]

theorem memByte_memWrite4_outside (s : State) (p : Nat) (w : Word) {q : Nat} (hq : q < p ∨ p + 4 ≤ q) :
    (s.memWrite4 p w).memByte q = s.memByte q := by
  rw [memByte_memWrite4, if_neg (by omega)]

/-! ### The serializer (45_host_commands.md R200) -/

theorem quadReg_eq_getD (q : Quad) {n : Nat} (hn : n < 4) : quadReg q n = [q.S0, q.S1, q.S2, q.S3].getD n 0 := by
  interval_cases n <;> rfl

theorem toNat_digestByte (q : Quad) (j : BitVec 4) : (digestByte q j).toNat =
    (quadReg q (j.toNat / 4)).toNat / 2 ^ (8 * (j.toNat % 4)) % 2 ^ 8 := by
  unfold digestByte
  rw [BitVec.extractLsb'_toNat, Nat.shiftRight_eq_div_pow]

end Sys2Proof.Machine

namespace Sys2Proof

open Machine

/-- Settles O50: a reset loads `IV` in `IDLE`, an offer changes neither value, and for a move of the port or of the core
each of the two has its lemma. -/
theorem stateRegistersAreAlwaysChainedFromIV : Obligations.StateRegistersAreAlwaysChainedFromIV := by
  refine ⟨⟨.iv, .iv⟩, fun s t hsched hregs hsettled hstep => ?_⟩
  cases transition_of_step hstep with
  | reset => exact ⟨.iv, .iv⟩
  | offer w es => exact ⟨hregs, by rwa [settled_place, settled_setEvents]⟩
  | move es _ _ hm =>
    rw [← settled_setEvents s es] at hsettled
    exact ⟨chained_regs_of_move hm hregs hsettled, chained_settled_of_move (u := s.setEvents es) hsched hm hsettled⟩

/-- Settles O22: `WRB` in `IDLE` is one write of the buffer (`memByte_memWrite1`), seen in its word by `byte_of_X`. -/
theorem wrbWritesOneByte : Obligations.WrbWritesOneByte := by
  refine ⟨decode_op2, fun j v s => ⟨fun hp => ⟨_, exec_wrb hp j v, ?_⟩, exec_held rfl⟩⟩
  have hbyte (p : Nat) : ((s.memWrite1 j.toNat v).respond 0 0).memByte p = if p = j.toNat then v else s.memByte p := by
    rw [memByte_respond, memByte_memWrite1]
  have hwritten := (hbyte j.toNat).trans (if_pos rfl)
  exact ⟨hwritten, fun p hne => (hbyte p).trans (if_neg hne), (byte_of_X _ j).trans hwritten, rfl⟩

/-- Settles O23: `WRW` in `IDLE` is one write of four bytes; a word with `addr[5:4]` not 0 decodes to an error. -/
theorem wrwWritesOneWord : Obligations.WrwWritesOneWord := by
  refine ⟨fun w ho => ⟨fun hz => ?decoded, fun hz => ?refused⟩, fun k w s => ⟨fun hp => ?written, exec_held rfl⟩⟩
  case decoded => exact (decode_op3 w ho).trans (if_pos hz)
  case refused =>
    have hd : decodeCommand w = .error .wrwHighAddress := (decode_op3 w ho).trans (if_neg hz)
    exact ⟨hd, fun s hc => portMove_error hc hd⟩
  case written =>
    have hbyte {i : Nat} (hi : i < 4) := memByte_memWrite4_offset s (wordAddress k) w hi
    refine ⟨_, exec_wrw hp k w, hbyte (i := 0) (by omega), hbyte (i := 1) (by omega), hbyte (i := 2) (by omega),
      hbyte (i := 3) (by omega), ?_, fun p => memByte_memWrite4_outside s (wordAddress k) w, rfl⟩
    rw [X_respond, X_memWrite4, if_pos rfl]

/-- Settles O24: a digest byte as a number (`toNat_digestByte`), and the register it is cut from. -/
theorem serializerIsLittleEndianInRegisterOrder : Obligations.SerializerIsLittleEndianInRegisterOrder := by
  intro s j
  have hj : j.toNat / 4 < 4 := by have := j.isLt; omega
  rw [State.digestWindow, toNat_digestByte, quadReg_eq_getD s.regs hj]
  rfl

/-- Settles O20: `STATUS` is `BUSY` in 32 bits, so the answer is 0 in `IDLE` and 1 in the other phases. -/
theorem rdsAnswersTheStatus : Obligations.RdsAnswersTheStatus := by
  refine ⟨decode_eq_rds_iff, fun s => ⟨BUSY_eq s, BitVec.toNat_setWidth_of_le (by omega)⟩, fun s => ?_⟩
  rw [exec_rds, STATUS_eq]
  split <;> rfl

/-- Settles O21: the meaning of `INIT` in `IDLE`, and its being held in the other phases. -/
theorem initLoadsTheInitialValues : Obligations.InitLoadsTheInitialValues :=
  ⟨decode_eq_init_iff, fun _ => ⟨fun hp => exec_init hp, exec_held rfl⟩⟩

/-- Settles O25: the answer is the digest byte with `err` and the other bits of `rdata` 0; a word with `addr[5:4]` not 0
decodes to an error. -/
theorem rdbAnswersOneDigestByte : Obligations.RdbAnswersOneDigestByte := by
  refine ⟨fun w ho => ⟨fun hz => ?decoded, fun hz => ?refused⟩, fun j s =>
    ⟨fun hp => ⟨_, ?answer, exec_rdb hp j⟩, exec_held rfl⟩⟩
  case decoded => exact (decode_op5 w ho).trans (if_pos hz)
  case refused =>
    have hd : decodeCommand w = .error .rdbHighAddress := (decode_op5 w ho).trans (if_neg hz)
    exact ⟨hd, fun s hc => portMove_error hc hd⟩
  case answer =>
    rw [toNat_rspWord, BitVec.toNat_setWidth_of_le (by omega)]
    exact Nat.zero_add _

end Sys2Proof

/-! ## 46_digest_and_driver.md: the digest of a message, what the host hears of it, and the driver -/

namespace Sys2Proof.Machine

/-! ### The bytes that a host holds (46_digest_and_driver.md R212 step 4) -/

/-- Every byte the host holds is the one at its place in the digest of `q`. -/
def Receiver.BytesOf (h : Receiver) (q : Quad) : Prop :=
  ∀ (j : BitVec 4) (v : Byte), h.bytes[j.toNat]'j.isLt = some v → v = digestByte q j

theorem Receiver.faithful_iff {h : Receiver} {s : State} :
    h.Faithful s ↔ (h.result = none → h.BytesOf s.settled) := Iff.rfl

/-- A host that has begun a message, sent `k` blocks of it, and read nothing since. -/
def Receiver.sent (k : Nat) : Receiver := { Receiver.start with blocks := some k }

theorem Receiver.bytesOf_blank (n : Option Nat) (q : Quad) :
    Receiver.BytesOf { Receiver.start with blocks := n } q := by
  intro j v hv
  simp at hv

theorem Receiver.BytesOf.set {h : Receiver} {q : Quad} (hq : h.BytesOf q) (j : BitVec 4) :
    Receiver.BytesOf { h with bytes := h.bytes.set j.toNat (some (digestByte q j)) j.isLt } q := by
  intro k v hv
  rw [set_bytes] at hv
  split at hv
  · next hjk => exact hjk ▸ (Option.some.inj hv).symm
  · exact hq k v hv

theorem Receiver.byte_ne_none {h : Receiver} (hn : h.result ≠ none) (j : BitVec 4) :
    h.bytes[j.toNat]'j.isLt ≠ none :=
  fun hj => hn (result_eq_none.2 ⟨j, hj⟩)

/-- Sixteen bytes, each the one at its place in the digest of `q`, are the digest of `q` (45_host_commands.md R200). -/
theorem Receiver.BytesOf.result {h : Receiver} {q : Quad} (hq : h.BytesOf q)
    (hall : ∀ j : BitVec 4, h.bytes[j.toNat]'j.isLt ≠ none) : h.result = some (digestBytes q) := by
  refine result_eq_some.2 ⟨digestBytes_length q, fun j => ?_⟩
  obtain ⟨v, hv⟩ := Option.ne_none_iff_exists'.1 (hall j)
  rw [digestBytes_getElem?, hv, hq j v hv]

/-! ### A procedure as its host hears it (46_digest_and_driver.md R212, R213) -/

/-- A host that has sent its `NB` blocks, holds bytes of the digest of `q` only, and has one for each `RDB` in `reads`. -/
structure Receiver.Reading (NB : Nat) (q : Quad) (reads : List Instr) (h : Receiver) : Prop where
  blocks : h.blocks = some NB
  bytes : h.BytesOf q
  received : ∀ j, Instr.rdb j ∈ reads → h.bytes[j.toNat]'j.isLt ≠ none

theorem Receiver.reading_sent (NB : Nat) (q : Quad) : Reading NB q [] (Receiver.sent NB) :=
  ⟨rfl, bytesOf_blank _ q, fun _ hj => nomatch hj⟩

/-- One more read or poll: an `RDB` gives its byte, unless the host holds all of them already. -/
theorem Receiver.Reading.command {NB : Nat} {q : Quad} {reads : List Instr} {h : Receiver} (hh : Reading NB q reads h)
    {i : Instr} (hi : readsOrPolls i = true) {r : RspWord} (hr : ∀ r', answerOf i q = some r' → r = r') :
    Reading NB q (reads ++ [i]) (h.command NB i r) := by
  obtain ⟨hblocks, hbytes, hreceived⟩ := hh
  cases i with
  | rds => exact ⟨hblocks, hbytes, fun j hj => hreceived j (by simpa using hj)⟩
  | rdb j =>
    by_cases hn : h.result = none
    · obtain rfl := hr _ rfl
      rw [command_rdb hblocks hn, rspByte_rdb]
      refine ⟨hblocks, hbytes.set j, fun k hk => ?_⟩
      rw [set_bytes]
      split
      · exact Option.some_ne_none _
      · next hjk => exact hreceived k (by simpa [Ne.symm hjk] using hk)
    · rw [command_rdb_ended hn]
      exact ⟨hblocks, hbytes, fun k _ => byte_ne_none hn k⟩
  | init | go | wrb | wrw | stepF | stepG | stepH | stepI => cases hi

theorem Exchanged.hear_reads {words : List CmdWord} {q : Quad} {m : Nat → Byte} {trace : List Heard}
    (hx : Exchanged words q m trace) (hreads : ∀ i ∈ commandsOf words, readsOrPolls i = true) {NB : Nat}
    {reads : List Instr} {h : Receiver} (hh : h.Reading NB q reads) :
    (h.hearAll NB trace).Reading NB q (reads ++ commandsOf words) := by
  induction hx generalizing reads h with
  | nil => simpa [commandsOf, hearAll_nil] using hh
  | refused hd _ ih =>
    rw [commandsOf_error hd] at hreads ⊢
    rw [hearAll_cons, hear_error hd]
    exact ih hreads hh
  | @taken w i r words q m trace hd ha _ ih =>
    rw [commandsOf_ok hd] at hreads ⊢
    have hi := hreads i List.mem_cons_self
    have hsame : commandEffect i q m = (q, m) := effects_reads [i] (by simpa using hi) q m
    rw [hearAll_cons, hear_ok hd, List.append_cons]
    rw [hsame] at ih
    exact ih (fun i' hi' => hreads i' (List.mem_cons_of_mem _ hi')) (hh.command hi ha)

/-- One block of a message: what stands before its `GO` tells the host nothing. -/
theorem Exchanged.hear_block {words : List CmdWord} {q : Quad} {m : Nat → Byte} {trace : List Heard}
    (hx : Exchanged words q m trace) {part : List Instr} (hc : commandsOf words = part ++ [.go])
    (hpart : ∀ i ∈ part, keepsRegisters i = true) {NB k : Nat} (hk : k < NB) :
    (Receiver.sent k).hearAll NB trace = Receiver.sent (k + 1) := by
  obtain ⟨w₁, w₂, t₁, t₂, -, rfl, hc₁, hc₂, hx₁, hx₂⟩ := hx.cut hc
  have hnot : (Receiver.sent k).blocks ≠ some NB := fun h => hk.ne (Option.some.inj h)
  have hbefore : (Receiver.sent k).hearAll NB t₁ = Receiver.sent k :=
    hx₁.hear_keeps (I := (· = Receiver.sent k))
      (fun i hi h r hh => hh.symm ▸ command_keeps (hpart i (hc₁ ▸ hi)) hnot r) rfl
  obtain ⟨r, -, hgo⟩ := hx₂.hear_one hc₂ NB (Receiver.sent k)
  rw [hearAll_append, hbefore, hgo]
  exact command_go (blank_result _) NB r

theorem Exchanged.hear_blocks {NB : Nat} {parts : List (List Instr)}
    (hparts : ∀ part ∈ parts, ∀ i ∈ part, keepsRegisters i = true) {words : List CmdWord} {q : Quad} {m : Nat → Byte}
    {trace : List Heard} (hx : Exchanged words q m trace)
    (hc : commandsOf words = parts.flatMap fun part => part ++ [.go]) {k : Nat} (hk : k + parts.length = NB) :
    (Receiver.sent k).hearAll NB trace = Receiver.sent NB := by
  induction parts generalizing words q m trace k with
  | nil =>
    obtain rfl : k = NB := hk
    exact hx.hear_keeps (I := (· = Receiver.sent k)) (fun i hi => by rw [hc] at hi; cases hi) rfl
  | cons part parts ih =>
    rw [List.flatMap_cons] at hc
    obtain ⟨w₁, w₂, t₁, t₂, -, rfl, hc₁, hc₂, hx₁, hx₂⟩ := hx.cut hc
    rw [List.length_cons] at hk
    rw [hearAll_append, hx₁.hear_block hc₁ (hparts part List.mem_cons_self) (by omega)]
    exact ih (fun p hp => hparts p (List.mem_cons_of_mem _ hp)) hx₂ hc₂ (by omega)

/-- A suffix without the element `x` begins after every `x`. -/
theorem suffix_of_not_mem {α : Type} {x : α} {a b before after : List α} (h : a ++ x :: b = before ++ after)
    (hx : x ∉ after) : after <:+ b := by
  have hb : x :: b <:+ a ++ x :: b := List.suffix_append ..
  have hafter : after <:+ a ++ x :: b := h ▸ List.suffix_append ..
  rcases Nat.lt_or_ge b.length after.length with hlt | hge
  · exact absurd ((List.suffix_of_suffix_length_le hb hafter hlt).mem List.mem_cons_self) hx
  · exact List.suffix_of_suffix_length_le hafter ((List.suffix_cons x b).trans hb) hge

/-- 44_compression_core.md R170: the commands after the last `GO` of a procedure only read, so `(A, B, C, D)` is the final
state of the message before them already. -/
theorem quad_after_last_go {msg P : List Byte} {earlier program before after : List Instr} {q : Quad} {m : Nat → Byte}
    (hP : pad msg = some P) (h : isProcedure P (effects earlier q m).2 program)
    (hsplit : earlier ++ program = before ++ after) (hgo : .go ∉ after) :
    (effects before q m).1 = messageState P := by
  obtain ⟨m', hall, -⟩ := effects_procedure hP h (effects earlier q m).1
  obtain ⟨parts, reads, hlen, -, -, hreads, -, rfl⟩ := h
  obtain ⟨rfl, -⟩ := pad_eq_some hP
  have hne : parts ≠ [] := by
    have := padBytes_ge msg
    rintro rfl
    simp at hlen; omega
  obtain ⟨parts', part, rfl⟩ := List.eq_nil_or_concat parts |>.resolve_left hne
  have hsuffix : after <:+ reads := by
    refine suffix_of_not_mem (x := .go) ?_ hgo
      (a := earlier ++ .init :: (parts'.flatMap fun part => part ++ [.go]) ++ part) (before := before)
    rw [← hsplit]
    simp
  rw [← effects_append, hsplit, effects_append,
    effects_reads after fun i hi => hreads i (hsuffix.mem hi)] at hall
  exact congrArg Prod.fst hall

/-- The host that hears a procedure, whatever it held and heard before, has the digest of the message at its end. -/
theorem Exchanged.hear_procedure {msg P : List Byte} {earlier program : List Instr} {words : List CmdWord} {q : Quad}
    {m : Nat → Byte} {trace : List Heard} (hx : Exchanged words q m trace) (hP : pad msg = some P)
    (hc : commandsOf words = earlier ++ program) (h : isProcedure P (effects earlier q m).2 program) (before : Receiver) :
    (before.hearAll (numBlocks msg.length) trace).result = some (digestBytes (messageState P)) := by
  obtain ⟨parts, reads, hlen, hkeeps, -, hreads, hall, rfl⟩ := id h
  have hNB : parts.length = numBlocks msg.length := by
    obtain ⟨rfl, -⟩ := pad_eq_some hP
    rw [hlen, padBytes_blocks]; omega
  -- the reads, in the final state of the message
  have hc' : commandsOf words =
      (earlier ++ ([.init] ++ parts.flatMap fun part => part ++ [.go])) ++ reads := by rw [hc]; simp
  obtain ⟨w₁, w₂, t₁, t₂, -, rfl, hc₁, hc₂, hx₁, hx₂⟩ := hx.cut hc'
  rw [quad_after_last_go hP h (hc.symm.trans hc') (fun hgo => nomatch hreads _ hgo)] at hx₂
  -- before them `INIT` and the blocks
  obtain ⟨-, w₃, t₀, t₃, -, rfl, -, hc₃, -, hx₃⟩ := hx₁.cut hc₁
  obtain ⟨w₄, w₅, t₄, t₅, -, rfl, hc₄, hc₅, hx₄, hx₅⟩ := hx₃.cut hc₃
  obtain ⟨r, -, hinit⟩ := hx₄.hear_one hc₄ (numBlocks msg.length) (before.hearAll (numBlocks msg.length) t₀)
  have hsent : before.hearAll (numBlocks msg.length) (t₀ ++ (t₄ ++ t₅)) = Receiver.sent (numBlocks msg.length) := by
    rw [hearAll_append, hearAll_append, hinit]
    exact hx₅.hear_blocks hkeeps hc₅ ((Nat.zero_add _).trans hNB)
  have hread := hx₂.hear_reads (hc₂ ▸ hreads) (Receiver.reading_sent (numBlocks msg.length) (messageState P))
  rw [hearAll_append, hsent]
  exact hread.bytes.result fun j => hread.received j (by rw [List.nil_append, hc₂]; exact hall j)

/-! ### The answers of an exchange, place by place -/

/-- The words after a place of the trace spell no `GO` when no `GO` is heard there. -/
theorem go_not_mem_commandsOf {trace : List Heard} {words : List CmdWord} (hw : trace.map Heard.word = words.map some)
    (h : ∀ e ∈ trace, e.command ≠ some .go) : Instr.go ∉ commandsOf words := by
  intro hgo
  obtain ⟨w, hmem, hd⟩ := List.mem_filterMap.1 hgo
  have : some w ∈ trace.map Heard.word := hw ▸ List.mem_map_of_mem hmem
  obtain ⟨e, he, hword⟩ := List.mem_map.1 this
  cases e with
  | reset => cases hword
  | answered w' r =>
    obtain rfl := Option.some.inj hword
    exact h _ he hd

/-- Every word is answered by the error response if it spells no command, and by the answer of its command else. -/
theorem Exchanged.answer {words : List CmdWord} {q : Quad} {m : Nat → Byte} {trace : List Heard} {w : CmdWord}
    {r : RspWord} (hx : Exchanged words q m trace) (hmem : .answered w r ∈ trace) :
    (∀ e, decodeCommand w = .error e → r = rspWord 1 0) ∧
      ∀ i, decodeCommand w = .ok i → ∃ q', ∀ r', answerOf i q' = some r' → r = r' := by
  obtain ⟨xs, ys, rfl⟩ := List.append_of_mem hmem
  obtain ⟨w', r', before, rest, heq, -, -, -, hanswer⟩ := hx.split
  obtain ⟨rfl, rfl⟩ := Heard.answered.inj heq
  rcases hanswer with ⟨hr, e, he⟩ | ⟨i, hd, hr⟩
  · exact ⟨fun _ _ => hr, fun i hi => nomatch he.symm.trans hi⟩
  · refine ⟨fun e he => (nomatch hd.symm.trans he), fun i' hi' => ?_⟩
    obtain rfl := Except.ok.inj (hd.symm.trans hi')
    exact ⟨_, hr⟩

/-- An `RDB` after the last `GO` of a procedure is answered with its byte of the digest of the message. -/
theorem Exchanged.answer_rdb {msg P : List Byte} {earlier program : List Instr} {words : List CmdWord} {q : Quad}
    {m : Nat → Byte} {xs ys : List Heard} {w : CmdWord} {r : RspWord} {j : BitVec 4}
    (hx : Exchanged words q m (xs ++ .answered w r :: ys)) (hP : pad msg = some P)
    (hc : commandsOf words = earlier ++ program) (h : isProcedure P (effects earlier q m).2 program)
    (hd : decodeCommand w = .ok (.rdb j)) (hgo : ∀ e ∈ ys, e.command ≠ some .go) :
    r = rspWord 0 ((digestByte (messageState P) j).setWidth 32) := by
  obtain ⟨w', r', before, rest, heq, rfl, -, hys, hanswer⟩ := hx.split
  obtain ⟨rfl, rfl⟩ := Heard.answered.inj heq
  rcases hanswer with ⟨-, e, he⟩ | ⟨i, hi, hr⟩
  · cases he.symm.trans hd
  obtain rfl := Except.ok.inj (hi.symm.trans hd)
  rw [commandsOf_append, commandsOf_ok hd] at hc
  rw [quad_after_last_go hP h hc.symm (by simpa using go_not_mem_commandsOf hys hgo)] at hr
  exact hr _ rfl

end Sys2Proof.Machine

namespace Sys2Proof

open Machine

/-- Settles O56: the pending words are all taken, each as one command (`run_commands`). What their commands leave is the
final state of the message (`effects_procedure`), which stands since the last `GO` (`quad_after_last_go`), and the host
that hears their answers has its digest (`Exchanged.hear_procedure`). -/
theorem theProcedureYieldsTheDigest : Obligations.TheProcedureYieldsTheDigest := by
  intro msg P earlier program s hP hsched hc h
  obtain ⟨n, t, before, since, hrun, ⟨hevents, hcmd, hidle⟩, -, hfinal, hheard, -, hx⟩ :=
    run_commands (work s) s le_rfl hsched
  obtain ⟨m', heffects, hwords⟩ := effects_procedure hP h (effects earlier s.base.1 s.base.2).1
  rw [hc, effects_append, heffects, Prod.mk.injEq] at hfinal
  obtain ⟨hregs, hbytes⟩ := hfinal
  have hbusy : t.BUSY = 0 := by rw [BUSY_eq, if_pos hidle]
  have hX : t.X = blockOf (wordArray P) (numBlocks msg.length - 1) := by rw [X_eq_wordsOf, hbytes, hwords]
  have houtcome (past : List Heard) :
      outcome (numBlocks msg.length) (past ++ heard n s) = some (digestBytes (messageState P)) := by
    rw [outcome, hheard, hearAll_append, hearAll_append]
    exact hx.hear_procedure hP hc h _
  refine ⟨n, t, before, since, hrun, hevents, hcmd, hidle, hbusy, hregs, hX, hheard, hx.words,
    fun w r hmem => ⟨?error, ?zero⟩, fun xs w r ys j hsince hd hgo => ?digest, fun past => ⟨houtcome past, ?text⟩⟩
  case error =>
    rintro ⟨e, he⟩
    exact (hx.answer hmem).1 e he
  case zero =>
    rintro (hd | hd | ⟨j, v, hd⟩ | ⟨k, v, hd⟩) <;>
    · obtain ⟨_, hr⟩ := (hx.answer hmem).2 _ hd
      exact hr _ rfl
  case digest =>
    subst hsince
    exact hx.answer_rdb hP hc h hd hgo
  case text => rw [outcomeText, houtcome, digestText, hP]; rfl

end Sys2Proof

namespace Sys2Proof.Machine

/-! ### The digest as text (46_digest_and_driver.md R210) -/

/-- The digits, in the order of their values. -/
theorem hexDigit_eq (n : BitVec 4) : "0123456789abcdef".toList[n.toNat]? = some (hexDigit n) := by
  revert n; decide

theorem hexDigit_high (v : Byte) : "0123456789abcdef".toList[v.toNat / 16]? = some (hexDigit (v.extractLsb' 4 4)) := by
  rw [← hexDigit_eq, BitVec.extractLsb'_toNat, Nat.shiftRight_eq_div_pow]
  have := v.isLt
  congr 1; omega

theorem hexDigit_low (v : Byte) : "0123456789abcdef".toList[v.toNat % 16]? = some (hexDigit (v.extractLsb' 0 4)) := by
  rw [← hexDigit_eq, BitVec.extractLsb'_toNat, Nat.shiftRight_zero]

theorem hexBytes_cons (v : Byte) (bytes : List Byte) :
    hexBytes (v :: bytes) = hexDigit (v.extractLsb' 4 4) :: hexDigit (v.extractLsb' 0 4) :: hexBytes bytes := rfl

theorem hexBytes_length (bytes : List Byte) : (hexBytes bytes).length = 2 * bytes.length := by
  induction bytes with
  | nil => rfl
  | cons v bytes ih => rw [hexBytes_cons, List.length_cons, List.length_cons, List.length_cons, ih]; omega

theorem mem_hexBytes {bytes : List Byte} {ch : Char} (h : ch ∈ hexBytes bytes) : ∃ n, ch = hexDigit n := by
  obtain ⟨v, -, hv⟩ := List.mem_flatMap.1 h
  rcases List.mem_pair.1 hv with rfl | rfl
  · exact ⟨_, rfl⟩
  · exact ⟨_, rfl⟩

/-- Byte `j` of a list is written at the places `2j` and `2j + 1` of its text. -/
theorem hexBytes_getElem? {bytes : List Byte} {j : Nat} {v : Byte} (h : bytes[j]? = some v) :
    (hexBytes bytes)[2 * j]? = some (hexDigit (v.extractLsb' 4 4)) ∧
      (hexBytes bytes)[2 * j + 1]? = some (hexDigit (v.extractLsb' 0 4)) := by
  induction bytes generalizing j with
  | nil => cases h
  | cons u bytes ih =>
    cases j with
    | zero =>
      obtain rfl : u = v := Option.some.inj h
      exact ⟨rfl, rfl⟩
    | succ j => exact ih h

/-! ### The orders that R212 and R83 write out -/

/-- 43_padding.md R144: byte `c` of a word of the array. -/
theorem extract_wordAt (P : List Byte) (t : Nat) {c : Nat} (hc : c < 4) :
    (wordAt P t).extractLsb' (8 * c) 8 = P.getD (4 * t + c) 0 := by
  unfold wordAt
  interval_cases c
  · exact extract_byte0 ..
  · exact extract_byte1 ..
  · exact extract_byte2 ..
  · exact extract_byte3 ..

/-- The writes of `BLOCK`, the pseudo-instruction without its `GO`. -/
def blockWrites (M : BitVec 4 → Word) : List Instr :=
  (List.range 16).map fun k => .wrw (BitVec.ofNat 4 k) (M (BitVec.ofNat 4 k))

theorem blockProgram_eq (M : BitVec 4 → Word) : blockProgram M = blockWrites M ++ [.go] := rfl

/-- The writes of `BLOCKB`, the pseudo-instruction without its `GO`. -/
def blockBytesWrites (b : BitVec 6 → Byte) : List Instr :=
  (List.range 64).map fun j => .wrb (BitVec.ofNat 6 j) (b (BitVec.ofNat 6 j))

theorem blockBytesProgram_eq (b : BitVec 6 → Byte) : blockBytesProgram b = blockBytesWrites b ++ [.go] := rfl

/-- A list of one command for each value of an operand. -/
theorem mem_map_range_ofNat {w : Nat} {f : BitVec w → Instr} {i : Instr} :
    i ∈ (List.range (2 ^ w)).map (fun k => f (BitVec.ofNat w k)) ↔ ∃ k, i = f k := by
  simp only [List.mem_map, List.mem_range]
  constructor
  · rintro ⟨k, -, rfl⟩; exact ⟨_, rfl⟩
  · rintro ⟨k, rfl⟩; exact ⟨k.toNat, k.isLt, by simp⟩

theorem mem_blockWrites {M : BitVec 4 → Word} {i : Instr} : i ∈ blockWrites M ↔ ∃ k, i = .wrw k (M k) :=
  mem_map_range_ofNat (f := fun k => .wrw k (M k))

theorem mem_blockBytesWrites {b : BitVec 6 → Byte} {i : Instr} : i ∈ blockBytesWrites b ↔ ∃ j, i = .wrb j (b j) :=
  mem_map_range_ofNat (f := fun j => .wrb j (b j))

theorem mem_digestProgram {i : Instr} : i ∈ digestProgram ↔ ∃ j, i = .rdb j := mem_map_range_ofNat

theorem getElem?_eq_some_getD {P : List Byte} {p : Nat} (hp : p < P.length) : P[p]? = some (P.getD p 0) := by
  rw [List.getElem?_eq_getElem hp, List.getD_eq_getElem P 0 hp]

/-- What the writes of a block by words leave, at each of its bytes. -/
theorem lastWrite_blockWrites {P : List Byte} {n p : Nat} (hP : 64 * n + 64 ≤ P.length) (hp : p < 64) :
    lastWrite p (blockWrites (blockOf (wordArray P) n)) = P[64 * n + p]? := by
  have hwritten (k : BitVec 4) : writeAt p (.wrw k (blockOf (wordArray P) n k)) =
      if wordAddress k ≤ p ∧ p < wordAddress k + 4 then some (P.getD (64 * n + p) 0) else none := by
    rw [writeAt_wrw]
    refine if_ctx_congr Iff.rfl (fun hk => ?_) fun _ => rfl
    unfold wordAddress at hk ⊢
    have hbyte := extract_wordAt P (16 * n + k.toNat) (c := p - 4 * k.toNat) (by omega)
    have hplace : 4 * (16 * n + k.toNat) + (p - 4 * k.toNat) = 64 * n + p := by omega
    rw [hplace] at hbyte
    rw [blockOf, wordArray_getD P (by omega), hbyte]
  rw [getElem?_eq_some_getD (by omega)]
  refine lastWrite_eq (fun i hi u hu => ?_) ⟨_, mem_blockWrites.2 ⟨BitVec.ofNat 4 (p / 4), rfl⟩, ?_⟩
  · obtain ⟨k, rfl⟩ := mem_blockWrites.1 hi
    rw [hwritten] at hu
    split at hu
    · exact (Option.some.inj hu).symm
    · cases hu
  · rw [hwritten, if_pos]
    unfold wordAddress
    rw [BitVec.toNat_ofNat]
    omega

/-- What the writes of a block by bytes leave, at each of its bytes. -/
theorem lastWrite_blockBytesWrites (b : BitVec 6 → Byte) (j : BitVec 6) :
    lastWrite j.toNat (blockBytesWrites b) = some (b j) := by
  refine lastWrite_eq (fun i hi u hu => ?_) ⟨_, mem_blockBytesWrites.2 ⟨j, rfl⟩, by rw [writeAt_wrb, if_pos rfl]⟩
  obtain ⟨j', rfl⟩ := mem_blockBytesWrites.1 hi
  rw [writeAt_wrb] at hu
  split at hu
  · next hj => rw [← Option.some.inj hu, BitVec.eq_of_toNat_eq hj]
  · cases hu

/-- Whatever writes each block whole, byte for byte, is a procedure with `INIT` before it and `DIGEST` after. -/
theorem isProcedure_of_writes {P : List Byte} (writes : Nat → List Instr)
    (hkeeps : ∀ n, ∀ i ∈ writes n, keepsRegisters i = true)
    (hwrites : ∀ n p, n < P.length / 64 → p < 64 → lastWrite p (writes n) = P[64 * n + p]?) (m : Nat → Byte) :
    isProcedure P m (.init :: (List.range (P.length / 64)).flatMap (fun n => writes n ++ [.go]) ++ digestProgram) := by
  refine ⟨(List.range (P.length / 64)).map writes, digestProgram, by simp, ?_, fun n hn => ?_, fun i hi => ?_,
    fun j => mem_digestProgram.2 ⟨j, rfl⟩, by rw [List.flatMap_map]⟩
  · simpa using fun n _ => hkeeps n
  · rw [List.length_map, List.length_range] at hn
    exact deliversBlock_of_all (part := writes n) (by simp [hn]) (by omega) fun p => hwrites n p hn
  · obtain ⟨j, rfl⟩ := mem_digestProgram.1 hi; rfl

theorem messageProcedure_eq {msg P : List Byte} (hP : pad msg = some P) :
    messageProcedure msg = some (procedureOf (blocksOf P)) := by rw [messageProcedure, hP]; rfl

theorem procedureOf_blocksOf (P : List Byte) : procedureOf (blocksOf P) =
    .init :: (List.range (P.length / 64)).flatMap (fun n => blockWrites (blockOf (wordArray P) n) ++ [.go]) ++
      digestProgram := by
  rw [procedureOf, blocksOf, List.flatMap_map]; rfl

/-- R212: "`1 + 17 * NB + 16`" commands. -/
theorem procedureOf_length (blocks : List (BitVec 4 → Word)) :
    (procedureOf blocks).length = 1 + 17 * blocks.length + 16 := by
  have hblock (M : BitVec 4 → Word) : (blockProgram M).length = 17 := rfl
  have hdigest : digestProgram.length = 16 := rfl
  rw [procedureOf, List.length_append, List.length_cons, List.length_flatMap, hdigest]
  simp only [hblock, List.map_const', List.sum_replicate, smul_eq_mul]
  omega

/-! ### The driver (46_digest_and_driver.md R216 to R218) -/

/-- A mebibyte is a message that the padder takes. -/
theorem pad_driverMessage (file : List Byte) : ∃ P, pad (driverMessage file) = some P := by
  refine Option.isSome_iff_exists.1 ((pad_isSome_iff _).2 ?_)
  have : (driverMessage file).length ≤ Config.mebibyte := List.length_take_le ..
  unfold Config.mebibyte at this
  unfold Config.lmax
  omega

end Sys2Proof.Machine

namespace Sys2Proof

open Machine

/-- Settles O54: a byte is two digits (`hexBytes_getElem?`), and a digit is the character at the place of its value
(`hexDigit_eq`). -/
theorem digestTextIs32LowercaseHexCharacters : Obligations.DigestTextIs32LowercaseHexCharacters := by
  intro q
  refine ⟨?length, fun ch hch => ?alphabet, fun j => ?nibbles⟩
  case length => rw [hexDigest, hexBytes_length, digestBytes_length]
  case alphabet =>
    obtain ⟨n, rfl⟩ := mem_hexBytes hch
    exact List.mem_of_getElem? (hexDigit_eq n)
  case nibbles =>
    obtain ⟨hhigh, hlow⟩ := hexBytes_getElem? (digestBytes_getElem? q j)
    exact ⟨hhigh.trans (hexDigit_high _).symm, hlow.trans (hexDigit_low _).symm⟩

/-- Settles O57: the sixteen `WRW` of a block, or its sixty-four `WRB`, write each of its bytes, which is all that R212
asks (`isProcedure_of_writes`). -/
theorem theWrittenOrdersAreProcedures : Obligations.TheWrittenOrdersAreProcedures := by
  intro msg P m hP
  have hNB : numBlocks msg.length = P.length / 64 := by
    obtain ⟨rfl, -⟩ := pad_eq_some hP
    rw [padBytes_blocks]; omega
  rw [hNB]
  refine ⟨⟨_, messageProcedure_eq hP, ?words, ?length⟩, ?bytes⟩
  case words =>
    rw [procedureOf_blocksOf]
    refine isProcedure_of_writes (fun n => blockWrites (blockOf (wordArray P) n)) (fun n i hi => ?_) (fun n p hn => ?_) m
    · obtain ⟨k, rfl⟩ := mem_blockWrites.1 hi; rfl
    · exact lastWrite_blockWrites (by omega)
  case length => rw [procedureOf_length, blocksOf_length]
  case bytes =>
    refine isProcedure_of_writes (fun n => blockBytesWrites fun j => P.getD (64 * n + j.toNat) 0) (fun n i hi => ?_)
      (fun n p hn hp => ?_) m
    · obtain ⟨j, rfl⟩ := mem_blockBytesWrites.1 hi; rfl
    · have := lastWrite_blockBytesWrites (fun j => P.getD (64 * n + j.toNat) 0) (BitVec.ofNat 6 p)
      rw [BitVec.toNat_ofNat, Nat.mod_eq_of_lt hp] at this
      rw [this, getElem?_eq_some_getD (by omega)]

/-- Settles O58: the driver sees a file only through its first mebibyte, which the padder takes (`pad_driverMessage`), and
without a file there is nothing that it answers. -/
theorem driverTruncatesAndNeverInventsADigest : Obligations.DriverTruncatesAndNeverInventsADigest := by
  refine ⟨fun file => rfl, fun f g hfg => ?agree, fun file => ?procedure, rfl, rfl, fun trace => rfl⟩
  case agree =>
    have hsame : driverMessage f = driverMessage g := by
      refine List.ext_getElem? fun p => ?_
      simp only [driverMessage, List.getElem?_take]
      exact if_ctx_congr Iff.rfl (hfg p) fun _ => rfl
    show digestText (driverMessage f) = digestText (driverMessage g)
    rw [hsame]
  case procedure =>
    obtain ⟨P, hP⟩ := pad_driverMessage file
    exact ⟨_, messageProcedure_eq hP⟩

end Sys2Proof

namespace Sys2Proof.Machine

/-! ### What an outcome needs (46_digest_and_driver.md R214) -/

/-- The last of a list's places with a property. -/
theorem exists_last_split {α : Type} {p : α → Prop} {l : List α} (h : ∃ x ∈ l, p x) :
    ∃ xs x ys, l = xs ++ x :: ys ∧ p x ∧ ∀ y ∈ ys, ¬ p y := by
  induction l with
  | nil => obtain ⟨x, hx, -⟩ := h; cases hx
  | cons z l ih =>
    by_cases hl : ∃ x ∈ l, p x
    · obtain ⟨xs, x, ys, rfl, hx, hys⟩ := ih hl
      exact ⟨z :: xs, x, ys, rfl, hx, hys⟩
    · obtain ⟨x, hx, hp⟩ := h
      rcases List.mem_cons.1 hx with rfl | hx
      · exact ⟨[], x, l, rfl, hp, fun y hy hpy => hl ⟨y, hy, hpy⟩⟩
      · exact absurd ⟨x, hx, hp⟩ hl

/-- How many `GO` a host has heard answered. -/
def goCount (trace : List Heard) : Nat := (trace.filterMap Heard.command).count .go

theorem goCount_append (xs ys : List Heard) : goCount (xs ++ ys) = goCount xs + goCount ys := by
  rw [goCount, List.filterMap_append, List.count_append]; rfl

theorem goCount_go {e : Heard} (h : e.command = some .go) : goCount [e] = 1 := by simp [goCount, h]

theorem goCount_eq_zero {trace : List Heard} (h : ∀ e ∈ trace, e.command ≠ some .go) : goCount trace = 0 := by
  refine List.count_eq_zero.2 fun hgo => ?_
  obtain ⟨e, he, hcommand⟩ := List.mem_filterMap.1 hgo
  exact h e he hcommand

theorem exists_go_of_goCount {trace : List Heard} (h : goCount trace ≠ 0) : ∃ e ∈ trace, e.command = some .go := by
  by_contra hnone
  exact h (goCount_eq_zero fun e he hgo => hnone ⟨e, he, hgo⟩)

/-- `v` is the byte of an answer to `RDB j`, with no `GO` after it. -/
def ReadLast (j : BitVec 4) (v : Byte) (sent : List Heard) : Prop :=
  ∃ xs w r ys, sent = xs ++ .answered w r :: ys ∧ decodeCommand w = .ok (.rdb j) ∧ v = rspByte r ∧
    ∀ e ∈ ys, e.command ≠ some .go

theorem ReadLast.append {j : BitVec 4} {v : Byte} {sent : List Heard} (h : ReadLast j v sent) {e : Heard}
    (he : e.command ≠ some .go) : ReadLast j v (sent ++ [e]) := by
  obtain ⟨xs, w, r, ys, rfl, hd, hv, hys⟩ := h
  refine ⟨xs, w, r, ys ++ [e], by simp, hd, hv, fun e' he' => ?_⟩
  rcases List.mem_append.1 he' with he' | he'
  · exact hys e' he'
  · rwa [List.mem_singleton.1 he']

/-- A byte read last is read after any `GO`. -/
theorem ReadLast.mem {j : BitVec 4} {v : Byte} {xs reads : List Heard} {last : Heard}
    (h : ReadLast j v (xs ++ last :: reads)) (hlast : last.command = some .go) :
    ∃ w r, .answered w r ∈ reads ∧ decodeCommand w = .ok (.rdb j) ∧ v = rspByte r := by
  obtain ⟨xs', w, r, ys, heq, hd, hv, hys⟩ := h
  have hnot : last ∉ .answered w r :: ys := by
    intro hmem
    rcases List.mem_cons.1 hmem with rfl | hmem
    · cases hlast.symm.trans (congrArg Except.toOption hd)
    · exact hys last hmem hlast
  exact ⟨w, r, (suffix_of_not_mem heq hnot).mem List.mem_cons_self, hd, hv⟩

/-- What is heard leaves the message in progress: it is no reset and no `INIT`. -/
def Heard.Continues (e : Heard) : Prop := e ≠ .reset ∧ e.command ≠ some .init

/-- What a host keeps of the trace it has heard: nothing, or of the last message begun the count of its blocks and the bytes
read since the last of them, up to the sixteenth; what comes after is the `rest`. -/
inductive Keeps (NB : Nat) : List Heard → Receiver → Prop where
  | nothing (trace : List Heard) : Keeps NB trace Receiver.start
  | message {past : List Heard} {begun : Heard} {sent rest : List Heard} {h : Receiver}
      (hbegun : begun.command = some .init) (hsame : ∀ e ∈ sent ++ rest, e.Continues)
      (hblocks : h.blocks = some (goCount sent)) (hopen : h.result = none → rest = [])
      (hread : ∀ (j : BitVec 4) v, h.bytes[j.toNat]'j.isLt = some v → goCount sent = NB ∧ ReadLast j v sent) :
      Keeps NB (past ++ begun :: sent ++ rest) h

/-- One more event of the message in progress, while bytes are missing: the host counts it if it is a `GO`, and holds
afterwards the bytes it held or what `e` itself has brought. -/
theorem Keeps.counted {NB : Nat} {past : List Heard} {begun : Heard} {sent : List Heard} {h : Receiver} {e : Heard}
    (hbegun : begun.command = some .init) (hsame : ∀ e ∈ sent, e.Continues) (he : e.Continues)
    (hblocks : h.blocks = some (goCount (sent ++ [e])))
    (hread : ∀ (j : BitVec 4) v, h.bytes[j.toNat]'j.isLt = some v →
      goCount (sent ++ [e]) = NB ∧ ReadLast j v (sent ++ [e])) :
    Keeps NB (past ++ begun :: sent ++ [e]) h := by
  have hsame' : ∀ e' ∈ (sent ++ [e]) ++ [], e'.Continues := by simpa [or_imp, forall_and] using ⟨hsame, he⟩
  simpa using Keeps.message (past := past) (rest := []) hbegun hsame' hblocks (fun _ => rfl) hread

/-- One more event after the sixteenth byte. -/
theorem Keeps.ended {NB : Nat} {trace : List Heard} {h : Receiver} (hk : Keeps NB trace h) (hn : h.result ≠ none)
    {e : Heard} (he : e.Continues) : Keeps NB (trace ++ [e]) h := by
  cases hk with
  | nothing => exact .nothing _
  | @message past begun sent rest h hbegun hsame hblocks hopen hread =>
    have hsame' : ∀ e' ∈ sent ++ (rest ++ [e]), e'.Continues := by
      obtain ⟨hsent, hrest⟩ := List.forall_mem_append.1 hsame
      simpa [or_imp, forall_and, and_assoc] using ⟨hsent, hrest, he⟩
    simpa using Keeps.message (past := past) hbegun hsame' hblocks (fun h => absurd h hn) hread

/-- An event that is no `GO` and brings nothing. -/
theorem Keeps.unheeded {NB : Nat} {trace : List Heard} {h : Receiver} (hk : Keeps NB trace h) {e : Heard}
    (he : e.Continues) (hgo : e.command ≠ some .go) : Keeps NB (trace ++ [e]) h := by
  by_cases hn : h.result = none
  · cases hk with
    | nothing => exact .nothing _
    | @message past begun sent rest h hbegun hsame hblocks hopen hread =>
      obtain rfl := hopen hn
      have hcount : goCount (sent ++ [e]) = goCount sent := by
        rw [goCount_append, goCount_eq_zero (trace := [e]) (by simpa using hgo)]; rfl
      rw [List.append_nil] at hsame ⊢
      exact .counted hbegun hsame he (by rw [hcount, hblocks])
        fun j v hv => ⟨hcount.trans (hread j v hv).1, (hread j v hv).2.append hgo⟩
  · exact hk.ended hn he

theorem Keeps.init {NB : Nat} {trace : List Heard} {e : Heard} (he : e.command = some .init) :
    Keeps NB (trace ++ [e]) (Receiver.sent 0) := by
  have hsame : ∀ e ∈ ([] : List Heard) ++ [], e.Continues := nofun
  simpa using Keeps.message (NB := NB) (past := trace) (h := Receiver.sent 0) he hsame rfl (fun _ => rfl)
    fun j v hv => by simp [Receiver.sent] at hv

/-- A `GO` before the sixteenth byte is one more block, and discards the bytes read. -/
theorem Keeps.go {NB : Nat} {trace : List Heard} {h : Receiver} (hk : Keeps NB trace h) (hn : h.result = none) {e : Heard}
    (he : e.command = some .go) : Keeps NB (trace ++ [e]) { Receiver.start with blocks := h.blocks.map (· + 1) } := by
  cases hk with
  | nothing => exact .nothing _
  | @message past begun sent rest h hbegun hsame hblocks hopen hread =>
    obtain rfl := hopen hn
    rw [List.append_nil] at hsame ⊢
    have hcontinues : e.Continues := ⟨(by rintro rfl; cases he), by simp [he]⟩
    refine .counted hbegun hsame hcontinues ?_ fun j v hv => by simp at hv
    rw [hblocks, goCount_append, goCount_go he]; rfl

/-- An `RDB` after the last block, before the sixteenth byte, brings its byte. -/
theorem Keeps.rdb {NB : Nat} {trace : List Heard} {h : Receiver} (hk : Keeps NB trace h)
    (hb : h.blocks = some NB) (hn : h.result = none) {w : CmdWord} {r : RspWord} {j : BitVec 4}
    (hd : decodeCommand w = .ok (.rdb j)) : Keeps NB (trace ++ [.answered w r])
      { h with bytes := h.bytes.set j.toNat (some (rspByte r)) j.isLt } := by
  have hcommand : (Heard.answered w r).command = some (.rdb j) := congrArg Except.toOption hd
  have hgo : (Heard.answered w r).command ≠ some .go := by simp [hcommand]
  cases hk with
  | nothing => cases hb
  | @message past begun sent rest h hbegun hsame hblocks hopen hread =>
    obtain rfl := hopen hn
    rw [List.append_nil] at hsame ⊢
    have hsent : goCount sent = NB := Option.some.inj (hblocks.symm.trans hb)
    have hcount : goCount (sent ++ [.answered w r]) = NB := by
      rw [goCount_append, goCount_eq_zero (trace := [.answered w r]) (by simpa using hgo), hsent]; rfl
    refine .counted hbegun hsame ⟨nofun, by simp [hcommand]⟩ (by rw [hcount]; exact hb) fun k v hv => ⟨hcount, ?_⟩
    rw [set_bytes] at hv
    split at hv
    · next hjk => exact ⟨sent, w, r, [], rfl, hjk ▸ hd, (Option.some.inj hv).symm, nofun⟩
    · exact (hread k v hv).2.append hgo

/-- An `RDB` before the last block, or after the sixteenth byte. -/
theorem command_rdb_inactive {h : Receiver} {NB : Nat} (hn : ¬(h.blocks = some NB ∧ h.result = none)) (j : BitVec 4)
    (r : RspWord) : h.command NB (.rdb j) r = h := if_neg hn

theorem Keeps.hear {NB : Nat} {trace : List Heard} {h : Receiver} (hk : Keeps NB trace h) (e : Heard) :
    Keeps NB (trace ++ [e]) (h.hear NB e) := by
  cases e with
  | reset => exact .nothing _
  | answered w r =>
    cases hd : decodeCommand w with
    | error e =>
      have hcommand : (Heard.answered w r).command = none := congrArg Except.toOption hd
      rw [hear_error hd]
      exact hk.unheeded ⟨nofun, by simp [hcommand]⟩ (by simp [hcommand])
    | ok i =>
      have hcommand : (Heard.answered w r).command = some i := congrArg Except.toOption hd
      have hkept (hi : i ≠ .init) (hgo : i ≠ .go) : Keeps NB (trace ++ [.answered w r]) h :=
        hk.unheeded ⟨nofun, by simpa [hcommand] using hi⟩ (by simpa [hcommand] using hgo)
      rw [hear_ok hd]
      rcases decodeCommand_not_step hd with rfl | rfl | ⟨j, v, rfl⟩ | ⟨k, v, rfl⟩ | rfl | ⟨j, rfl⟩
      · exact hkept nofun nofun
      · exact .init hcommand
      · exact hkept nofun nofun
      · exact hkept nofun nofun
      · by_cases hn : h.result = none
        · rw [command_go hn]
          exact hk.go hn hcommand
        · rw [command_go_ended hn]
          exact hk.ended hn ⟨nofun, by simp [hcommand]⟩
      · by_cases hactive : h.blocks = some NB ∧ h.result = none
        · rw [command_rdb hactive.1 hactive.2]
          exact hk.rdb hactive.1 hactive.2 hd
        · rw [command_rdb_inactive hactive]
          exact hkept nofun nofun

theorem keeps_hearAll (NB : Nat) (trace : List Heard) : Keeps NB trace (Receiver.start.hearAll NB trace) := by
  induction trace using List.reverseRecOn with
  | nil => exact .nothing _
  | append_singleton trace e ih => rw [hearAll_append]; exact ih.hear e

/-- 46_digest_and_driver.md R214: an outcome is sixteen bytes, each of an answer to an `RDB` after the last `GO` of a
message that has its blocks. -/
theorem Keeps.result {NB : Nat} {trace : List Heard} {h : Receiver} (hk : Keeps NB trace h) {bytes : List Byte}
    (hresult : h.result = some bytes) : bytes.length = 16 ∧
      ∃ past begun sent rest, trace = past ++ begun :: sent ++ rest ∧ begun.command = some .init ∧
        (∀ e ∈ sent ++ rest, e.Continues) ∧ goCount sent = NB ∧
        ∀ j : BitVec 4, ∃ v, bytes[j.toNat]? = some v ∧ ReadLast j v sent := by
  cases hk with
  | nothing => simp at hresult
  | @message past begun sent rest h hbegun hsame hblocks hopen hread =>
    obtain ⟨hlength, hbytes⟩ := result_eq_some.1 hresult
    have hheld (j : BitVec 4) : ∃ v, h.bytes[j.toNat]'j.isLt = some v :=
      Option.ne_none_iff_exists'.1 (Receiver.byte_ne_none (by simp [hresult]) j)
    obtain ⟨v, hv⟩ := hheld 0
    refine ⟨hlength, past, begun, sent, rest, rfl, hbegun, hsame, (hread 0 v hv).1, fun j => ?_⟩
    obtain ⟨v, hv⟩ := hheld j
    exact ⟨v, (hbytes j).trans hv, (hread j v hv).2⟩

/-! ### What a step lets the host hear (46_digest_and_driver.md R214, log 17) -/

/-- From a host with the receiver `h` beside the state `s` to one with `h'` beside `t`: the bytes stay those of
`(A, B, C, D)`, and if they are now complete the block is idle and they are what it shows. -/
structure Relays (h : Receiver) (s : State) (h' : Receiver) (t : State) : Prop where
  faithful : h'.Faithful t
  complete : h.result = none → ∀ bytes, h'.result = some bytes →
    bytes = digestBytes t.regs ∧ t.regs = s.regs ∧ t.memByte = s.memByte ∧ t.PH = .idle ∧ t.BUSY = 0

section
variable {h : Receiver} {s t : State}

/-- The host learns nothing, and what the block will hold stays. -/
theorem relays_same (hf : h.Faithful s) (hsettled : t.settled = s.settled) : Relays h s h t where
  faithful hn := hsettled ▸ hf hn
  complete hn _ hr := nomatch hn.symm.trans hr

/-- The host drops what it had. -/
theorem relays_blank (n : Option Nat) : Relays h s { Receiver.start with blocks := n } t where
  faithful := Receiver.faithful_iff.2 fun _ => Receiver.bytesOf_blank n t.settled
  complete _ _ hr := by simp at hr

/-- An idle block that keeps its registers. -/
theorem relays_idle (hf : h.Faithful s) (hp : s.PH = .idle) (hpt : t.PH = .idle) (hregs : t.regs = s.regs) :
    Relays h s h t :=
  relays_same hf (by rw [settled_idle hpt, settled_idle hp, hregs])

/-- 45_host_commands.md R190: in `IDLE` the host takes the byte that the serializer shows. -/
theorem relays_rdb (hf : h.Faithful s) (hp : s.PH = .idle) (hpt : t.PH = .idle) (hregs : t.regs = s.regs)
    (hmem : t.memByte = s.memByte) (NB : Nat) (j : BitVec 4) :
    Relays h s (h.command NB (.rdb j) (rspWord 0 ((s.digestWindow j).setWidth 32))) t := by
  by_cases hactive : h.blocks = some NB ∧ h.result = none
  · obtain ⟨hb, hn⟩ := hactive
    have hheld : h.BytesOf t.regs := by rw [hregs, ← settled_idle hp]; exact Receiver.faithful_iff.1 hf hn
    rw [command_rdb hb hn, rspByte_rdb, State.digestWindow, ← hregs]
    have hbytes := hheld.set j
    refine ⟨fun _ => by rwa [settled_idle hpt], fun _ bytes hr => ⟨?_, hregs, hmem, hpt, by rw [BUSY_eq, if_pos hpt]⟩⟩
    exact Option.some.inj (hr.symm.trans (hbytes.result (Receiver.byte_ne_none (hr ▸ Option.some_ne_none bytes))))
  · rw [command_rdb_inactive hactive]
    exact relays_idle hf hp hpt hregs

/-- Of the moves, `INIT` and `GO` make the host drop its bytes, `RDB` brings one, and the rest change nothing. -/
theorem relays_move (NB : Nat) (hr : ∀ es, s.events ≠ .reset :: es) {es : List Event} (hm : Move (s.setEvents es) t)
    (hf : h.Faithful s) : Relays h s (h.hearAll NB (heardIn s t)) t := by
  have hsettled_s : (s.setEvents es).settled = s.settled := settled_setEvents s es
  -- a move that leaves the word on the port is not heard
  have hunheard (hc : t.cmd = s.cmd) (hsettled : t.settled = (s.setEvents es).settled) :
      Relays h s (h.hearAll NB (heardIn s t)) t := by
    rw [heardIn_none hr (.inl hc)]
    exact relays_same hf (hsettled.trans hsettled_s)
  -- a word that leaves the port is heard with its response
  have hheard {w : CmdWord} {r : RspWord} (hc : s.cmd = some w) (ht : t.cmd = none) (hrsp : t.rsp = some r) :
      h.hearAll NB (heardIn s t) = h.hear NB (.answered w r) := by
    rw [heardIn_answer hr hc ht hrsp]; rfl
  cases hm with
  | quiet => exact hunheard rfl rfl
  | row hp =>
    rw [← coreNext_run hp] at hunheard ⊢
    exact hunheard (coreNext_frame _).2.2.1 (settled_coreNext _)
  | fold hp =>
    rw [← coreNext_fold hp] at hunheard ⊢
    exact hunheard (coreNext_frame _).2.2.1 (settled_coreNext _)
  | cmdError w e hc hd =>
    rw [hheard hc rfl rfl, hear_error hd]
    exact relays_same hf ((settled_respond ..).trans hsettled_s)
  | rds w hc hd =>
    rw [hheard hc rfl rfl, hear_ok hd]
    exact relays_same hf ((settled_respond ..).trans hsettled_s)
  | init w hc hd hp =>
    rw [hheard hc rfl rfl, hear_ok hd]
    exact relays_blank _
  | wrb w j v hc hd hp =>
    rw [hheard hc rfl rfl, hear_ok hd]
    exact relays_idle hf hp (by simpa using hp) (by simp)
  | wrw w k v hc hd hp =>
    rw [hheard hc rfl rfl, hear_ok hd]
    exact relays_idle hf hp (by simpa using hp) (by simp)
  | go w hc hd hp =>
    rw [hheard hc rfl rfl, hear_ok hd]
    by_cases hn : h.result = none
    · rw [command_go hn]
      exact relays_blank _
    · rw [command_go_ended hn]
      exact ⟨fun h' => absurd h' hn, fun h' => absurd h' hn⟩
  | rdb w j hc hd hp =>
    rw [hheard hc rfl rfl, hear_ok hd]
    exact relays_rdb (t := (s.setEvents es).respond 0 _) hf hp hp rfl rfl NB j

end

end Sys2Proof.Machine

namespace Sys2Proof

open Machine

/-- Settles O59: of a trace the host keeps the last message and the bytes read since its last `GO` (`Keeps`, by induction on
the trace); and a step lets it hear nothing but a byte that the idle block shows (`Relays`, by the moves). -/
theorem anOutcomeIsTheSixteenBytesOfAFinishedMessage : Obligations.AnOutcomeIsTheSixteenBytesOfAFinishedMessage := by
  refine ⟨fun NB trace bytes hNB hresult => ?trace, fun NB h s t hstep hf => ?step⟩
  case trace =>
    obtain ⟨hlength, past, begun, all, rest, rfl, hbegun, hsame, hcount, hbytes⟩ := (keeps_hearAll NB trace).result hresult
    obtain ⟨sent, last, reads, rfl, hlast, hreads⟩ :=
      exists_last_split (exists_go_of_goCount (trace := all) (by omega))
    have hsent : goCount sent + 1 = NB := by
      rw [List.append_cons, goCount_append, goCount_append, goCount_go hlast, goCount_eq_zero hreads] at hcount
      exact hcount
    refine ⟨hlength, past, begun, sent, last, reads, rest, by simp, hbegun, hlast, hsent, fun e he => hsame e ?_, hreads,
      fun j => ?_⟩
    · simp only [List.mem_append, List.mem_cons] at he ⊢
      tauto
    · obtain ⟨v, hv, hread⟩ := hbytes j
      obtain ⟨w, r, hmem, hd, rfl⟩ := hread.mem hlast
      exact ⟨w, r, hmem, hd, hv⟩
  case step =>
    have hrelays : Relays h s (h.hearAll NB (heardIn s t)) t := by
      cases transition_of_step hstep with
      | reset es he =>
        rw [heardIn_reset he]
        exact relays_blank none
      | offer w es he hc =>
        rw [heardIn_none (by simp [he]) (.inr hc)]
        exact relays_same hf (settled_place _ w)
      | move es _ he hm =>
        refine relays_move NB ?_ hm hf
        rcases he with ⟨-, hr⟩ | he | he
        · exact hr
        · simp [he]
        · simp [he]
    exact ⟨hrelays.faithful, hrelays.complete⟩

end Sys2Proof

namespace Sys2Proof.Machine

/-! ### Every event of an endless run has its turn (log 18) -/

/-- 60_exceptions.md R230: a fed run has no end. -/
theorem fed_total (input : Nat → List Event) (n : Nat) (s : State) : ∃ t, fed input n s = .next t := by
  induction n generalizing input s with
  | zero => exact ⟨s, rfl⟩
  | succ n ih =>
    obtain ⟨t, ht, -⟩ := step_transition (s.feed (input 0))
    rw [fed_succ ht]
    exact ih _ t

theorem feed_events (s : State) (es : List Event) : (s.feed es).events = s.events ++ es := rfl

theorem work_setEvents (s : State) (es : List Event) :
    work (s.setEvents es) = 140 * es.length + (if s.cmd = none then 0 else 70) + coreMovesLeft s := rfl

/-- One step takes the work off the events before `rest` and leaves those after. -/
theorem work_before_lt {u t : State} {x : Event} {es rest : List Event} (he : u.events = x :: es ++ rest)
    (h : step u = .next t) :
    ∃ es', t.events = es' ++ rest ∧ work (t.setEvents es') < work (u.setEvents (x :: es)) := by
  rw [List.cons_append] at he
  have hleft := coreMovesLeft_le t
  -- a move that uses up the first event
  have hmove (hm : Move (u.setEvents (es ++ rest)) t) :
      ∃ es', t.events = es' ++ rest ∧ work (t.setEvents es') < work (u.setEvents (x :: es)) := by
    obtain ⟨hcmd, hevents, -⟩ := move_frame hm
    refine ⟨es, hevents, ?_⟩
    rw [work_setEvents, work_setEvents, List.length_cons]
    rcases hcmd with hcmd | hcmd
    · rw [hcmd, setEvents_cmd]; omega
    · rw [if_pos hcmd]; omega
  cases x with
  | reset =>
    obtain rfl := next_inj ((step_reset he).symm.trans h)
    exact ⟨es, rfl, by simp [work_setEvents]; omega⟩
  | port =>
    obtain ⟨t', ht, hm⟩ := portMove_move (u.setEvents (es ++ rest))
    obtain rfl := next_inj (ht.symm.trans ((step_port he).symm.trans h))
    exact hmove hm
  | core =>
    obtain ⟨t', ht, hm⟩ := coreMove_move (u.setEvents (es ++ rest))
    obtain rfl := next_inj (ht.symm.trans ((step_core he).symm.trans h))
    exact hmove hm
  | offer w =>
    cases hc : u.cmd with
    | none =>
      obtain rfl := next_inj ((step_offer he hc).symm.trans h)
      refine ⟨es, rfl, ?_⟩
      rw [work_setEvents, work_setEvents, List.length_cons, hc]
      have : coreMovesLeft ((u.setEvents (es ++ rest)).place w) = coreMovesLeft u := rfl
      simp [this]; omega
    | some w' =>
      rw [step_waiting he hc] at h
      obtain ⟨t', ht, hm⟩ := defaultMove_move u
      obtain rfl := next_inj (ht.symm.trans h)
      have hevents := (move_frame hm).2.1.trans he
      have hlt := work_default ht (.inl (by simp [hc]))
      refine ⟨.offer w :: es, by simpa using hevents, ?_⟩
      rw [work_setEvents, work_setEvents]
      unfold work at hlt
      rw [hevents, he] at hlt
      omega

/-- An event that waits in the list comes to stand first. -/
theorem queued_has_turn {e : Event} {rest : List Event} (N : Nat) {input : Nat → List Event} {s : State} {es : List Event}
    (he : (s.feed (input 0)).events = es ++ e :: rest) (hN : work ((s.feed (input 0)).setEvents es) ≤ N) :
    ∃ n t rest', fed input n s = .next t ∧ (t.feed (input n)).events = e :: rest' := by
  induction N generalizing input s es rest with
  | zero =>
    rw [work_setEvents] at hN
    obtain rfl : es = [] := List.length_eq_zero_iff.1 (by omega)
    exact ⟨0, s, rest, rfl, he⟩
  | succ N ih =>
    cases es with
    | nil => exact ⟨0, s, rest, rfl, he⟩
    | cons x es =>
      obtain ⟨t, ht, -⟩ := step_transition (s.feed (input 0))
      obtain ⟨es', hevents, hlt⟩ := work_before_lt he ht
      have he' : (t.feed (input 1)).events = es' ++ e :: (rest ++ input 1) := by rw [feed_events, hevents]; simp
      obtain ⟨n, u, rest', hu, hturn⟩ := ih (input := fun k => input (k + 1)) he' (Nat.le_of_lt_succ (hlt.trans_le hN))
      exact ⟨n + 1, u, rest', by rw [fed_succ ht, hu], hturn⟩

/-- An event that comes again and again has its turn. -/
theorem againAndAgain_has_turn {p : Event → Prop} {input : Nat → List Event} (h : againAndAgain p input) (s : State) :
    ∃ n t e rest, fed input n s = .next t ∧ (t.feed (input n)).events = e :: rest ∧ p e := by
  obtain ⟨m, -, e, he, hp⟩ := h 0
  obtain ⟨u, hu⟩ := fed_total input m s
  have hmem : e ∈ (u.feed (input m)).events := List.mem_append_right _ he
  obtain ⟨es, rest, hsplit⟩ := List.append_of_mem hmem
  rw [← Nat.zero_add m] at hsplit
  obtain ⟨n, t, rest', ht, hturn⟩ := queued_has_turn (input := fun k => input (k + m)) _ hsplit le_rfl
  refine ⟨m + n, t, e, rest', by rw [(fed_add hu n).1, ht], ?_, hp⟩
  rw [Nat.add_comm m n]; exact hturn

/-! ### A core that gets its turns ends its block (44_compression_core.md R168, 00_scope.md R19) -/

theorem coreMovesLeft_move {u t : State} (hm : Move u t) (hp : u.PH ≠ .idle) : coreMovesLeft t ≤ coreMovesLeft u := by
  cases hm with
  | quiet | cmdError | rds => exact le_rfl
  | init | wrb | wrw | go | rdb => contradiction
  | row hrun => rw [← coreNext_run hrun]; exact (coreMovesLeft_coreNext hp).le
  | fold hfold => rw [← coreNext_fold hfold]; exact (coreMovesLeft_coreNext hp).le

theorem coreMovesLeft_step {s t : State} (h : step s = .next t) (hp : s.PH ≠ .idle) :
    coreMovesLeft t ≤ coreMovesLeft s := by
  cases transition_of_step h with
  | reset => exact (coreMovesLeft_idle (resetNow_PH _)).trans_le (Nat.zero_le _)
  | offer => exact le_rfl
  | move es _ _ hm => exact coreMovesLeft_move (u := s.setEvents es) hm hp

/-- Until the block ends it never has more core transitions left. -/
theorem fed_idle_or_coreMovesLeft_le {input : Nat → List Event} {n : Nat} {s t : State} (h : fed input n s = .next t) :
    (∃ k u, fed input k s = .next u ∧ u.PH = .idle) ∨ coreMovesLeft t ≤ coreMovesLeft s := by
  induction n generalizing input s with
  | zero => exact .inr (next_inj h ▸ le_rfl)
  | succ n ih =>
    by_cases hp : s.PH = .idle
    · exact .inl ⟨0, s, rfl, hp⟩
    obtain ⟨u, hu, -⟩ := step_transition (s.feed (input 0))
    rw [fed_succ hu] at h
    rcases ih h with ⟨k, v, hv, hidle⟩ | hle
    · exact .inl ⟨k + 1, v, by rw [fed_succ hu, hv], hidle⟩
    · exact .inr (hle.trans (coreMovesLeft_step (s := s.feed (input 0)) hu hp))

theorem fed_reaches_idle (N : Nat) {input : Nat → List Event} {s : State} (hN : coreMovesLeft s ≤ N)
    (h : againAndAgain (fun e => e = .core) input) : ∃ n t, fed input n s = .next t ∧ t.PH = .idle := by
  induction N generalizing input s with
  | zero => exact ⟨0, s, rfl, (coreMovesLeft_eq_zero_iff s).1 (by omega)⟩
  | succ N ih =>
    obtain ⟨n, t, e, rest, ht, he, rfl⟩ := againAndAgain_has_turn h s
    rcases fed_idle_or_coreMovesLeft_le ht with hidle | hle
    · exact hidle
    by_cases hp : t.PH = .idle
    · exact ⟨n, t, ht, hp⟩
    -- the core's turn
    have hnext : fed (fun k => input (k + n)) 1 t = .next (coreNext ((t.feed (input n)).setEvents rest)) := by
      have hstep : step (t.feed (input (0 + n))) = .next (coreNext ((t.feed (input n)).setEvents rest)) := by
        rw [Nat.zero_add, step_core he, coreMove_eq]
      rw [fed_succ hstep]; rfl
    have hlt := coreMovesLeft_coreNext (s := (t.feed (input n)).setEvents rest) hp
    have hrun := (fed_add ht 1).1.trans hnext
    obtain ⟨k, v, hv, hidle⟩ := ih (Nat.le_of_lt_succ (hlt.trans_le (hle.trans hN))) (againAndAgain_later h (n + 1))
    exact ⟨n + 1 + k, v, by rw [(fed_add hrun k).1, hv], hidle⟩

/-! ### A host that does nothing but poll (46_digest_and_driver.md R214) -/

/-- What is to come is polls and turns, and a word on the port is a poll. -/
structure Polling (s : State) : Prop where
  events : ∀ e ∈ s.events, e.polls = true
  cmd : ∀ w, s.cmd = some w → decodeCommand w = .ok .rds

/-- A poll with the answer 0 or 1 (45_host_commands.md R180). -/
def Heard.PollAnswer (e : Heard) : Prop :=
  ∃ w, decodeCommand w = .ok .rds ∧ (e = .answered w 0x000000000 ∨ e = .answered w 0x000000001)

theorem pollAnswer_status {w : CmdWord} (hd : decodeCommand w = .ok .rds) (u : State) :
    (Heard.answered w (rspWord 0 u.STATUS)).PollAnswer := by
  rw [STATUS_eq]
  split
  · exact ⟨w, hd, .inl rfl⟩
  · exact ⟨w, hd, .inr rfl⟩

theorem Polling.feed {s : State} (hs : Polling s) {es : List Event} (hes : ∀ e ∈ es, e.polls = true) :
    Polling (s.feed es) where
  events := List.forall_mem_append.2 ⟨hs.events, hes⟩
  cmd := hs.cmd

/-- A move leaves the word on the port, or answers a poll. -/
theorem move_polling {u t : State} (hm : Move u t) (hcmd : ∀ w, u.cmd = some w → decodeCommand w = .ok .rds) :
    t.cmd = u.cmd ∨ ∃ w, u.cmd = some w ∧ t.cmd = none ∧ t.rsp = some (rspWord 0 u.STATUS) := by
  cases hm with
  | quiet | row | fold => exact .inl (by simp)
  | rds w hc => exact .inr ⟨w, hc, rfl, rfl⟩
  | cmdError w _ hc hd => cases hd.symm.trans (hcmd w hc)
  | init w hc hd => cases hd.symm.trans (hcmd w hc)
  | wrb w _ _ hc hd => cases hd.symm.trans (hcmd w hc)
  | wrw w _ _ hc hd => cases hd.symm.trans (hcmd w hc)
  | go w hc hd => cases hd.symm.trans (hcmd w hc)
  | rdb w _ hc hd => cases hd.symm.trans (hcmd w hc)

/-- A step of a host that polls: nothing is heard and a word on the port stays there, or a poll is answered. -/
theorem polling_step {s t : State} (hs : Polling s) (h : step s = .next t) :
    Polling t ∧ (heardIn s t = [] ∧ (s.cmd ≠ none → t.cmd ≠ none) ∨ ∃ e, heardIn s t = [e] ∧ e.PollAnswer) := by
  obtain ⟨hevents, hcmd⟩ := hs
  have hr (es : List Event) : s.events ≠ .reset :: es := fun he => by simpa [he, Event.polls] using hevents .reset
  cases transition_of_step h with
  | reset es he => exact absurd he (hr es)
  | offer w es he hc =>
    rw [he] at hevents
    refine ⟨⟨fun e h => hevents e (List.mem_cons_of_mem _ h), fun w' hw => ?_⟩,
      .inl ⟨heardIn_none hr (.inr hc), fun _ => Option.some_ne_none w⟩⟩
    obtain rfl := Option.some.inj hw
    simpa [Event.polls] using hevents _ List.mem_cons_self
  | move es _ he hm =>
    have hes : ∀ e ∈ t.events, e.polls = true := by
      rw [(move_frame hm).2.1]
      rcases he with ⟨rfl, -⟩ | he | he
      · exact hevents
      · exact fun e h => hevents e (he ▸ List.mem_cons_of_mem _ h)
      · exact fun e h => hevents e (he ▸ List.mem_cons_of_mem _ h)
    rcases move_polling hm hcmd with hsame | ⟨w, hc, ht, hrsp⟩
    · rw [setEvents_cmd] at hsame
      exact ⟨⟨hes, hsame ▸ hcmd⟩, .inl ⟨heardIn_none hr (.inl hsame), hsame ▸ id⟩⟩
    · exact ⟨⟨hes, fun w' h => nomatch ht.symm.trans h⟩,
        .inr ⟨_, heardIn_answer hr hc ht hrsp, pollAnswer_status (hcmd w hc) _⟩⟩

/-- An offer at the head of the list is taken to the port, or waits for the answer to the poll before it. -/
theorem polling_step_offer {s t : State} (hs : Polling s) {w : CmdWord} {rest : List Event}
    (he : s.events = .offer w :: rest) (h : step s = .next t) :
    s.cmd = none ∧ t.cmd ≠ none ∨ heardIn s t ≠ [] := by
  cases hc : s.cmd with
  | none =>
    obtain rfl := next_inj ((step_offer he hc).symm.trans h)
    exact .inl ⟨rfl, Option.some_ne_none w⟩
  | some w' =>
    have hd := hs.cmd w' hc
    have hanswered : step s = .next (s.respond 0 s.STATUS) := by
      rw [step_waiting he hc, defaultMove_accepts hc ((accepts_iff s w').2 (.inr (.inl hd))), portMove_ok hc hd, exec_rds]
    obtain rfl := next_inj (hanswered.symm.trans h)
    rw [heardIn_answer (by simp [he]) hc rfl rfl]
    exact .inr (List.cons_ne_nil _ _)

section
variable {input : Nat → List Event} {s : State} (hinput : ∀ n, ∀ e ∈ input n, e.polls = true) (hs : Polling s)
include hinput hs

theorem fed_polling {n : Nat} {t : State} (h : fed input n s = .next t) :
    Polling t ∧ (∀ e ∈ heardFed input n s, e.PollAnswer) ∧ (heardFed input n s = [] → s.cmd ≠ none → t.cmd ≠ none) := by
  induction n generalizing input s with
  | zero => obtain rfl := next_inj h; exact ⟨hs, nofun, fun _ => id⟩
  | succ n ih =>
    obtain ⟨u, hu, -⟩ := step_transition (s.feed (input 0))
    obtain ⟨hpolling, hheard⟩ := polling_step (hs.feed (hinput 0)) hu
    rw [fed_succ hu] at h
    obtain ⟨ht, hanswers, hport⟩ := ih (fun n => hinput (n + 1)) hpolling h
    rw [heardFed_succ hu]
    rcases hheard with ⟨hnone, hcmd⟩ | ⟨e, hone, he⟩
    · rw [hnone]
      exact ⟨ht, hanswers, fun hn hc => hport hn (hcmd hc)⟩
    · rw [hone]
      exact ⟨ht, List.forall_mem_cons.2 ⟨he, hanswers⟩, nofun⟩

variable (hoffers : againAndAgain (fun e => ∃ w, e = .offer w) input)
include hoffers

/-- Of a host that offers again and again something is heard, or its first offer comes to the port. -/
theorem offer_taken_or_heard :
    ∃ n t, fed input n s = .next t ∧ (heardFed input n s ≠ [] ∨ s.cmd = none ∧ t.cmd ≠ none) := by
  obtain ⟨n, t, _, rest, ht, he, w, rfl⟩ := againAndAgain_has_turn hoffers s
  obtain ⟨hpolling, -, hport⟩ := fed_polling hinput hs ht
  by_cases hheard : heardFed input n s = []
  · -- the offer's turn
    obtain ⟨u, hu, -⟩ := step_transition (t.feed (input n))
    have hu' : step (t.feed (input (0 + n))) = .next u := by rw [Nat.zero_add]; exact hu
    obtain ⟨hrun, htrace⟩ := fed_add ht 1
    rw [fed_succ (input := fun k => input (k + n)) hu'] at hrun
    rw [heardFed_succ (input := fun k => input (k + n)) hu'] at htrace
    refine ⟨n + 1, u, hrun, ?_⟩
    rcases polling_step_offer (hpolling.feed (hinput n)) he hu with ⟨hfree, htaken⟩ | hanswered
    · exact .inr ⟨by_contra fun hc => hport hheard hc hfree, htaken⟩
    · refine .inl fun hnone => hanswered ?_
      rw [hnone] at htrace
      simpa [heardFed] using (List.append_eq_nil_iff.1 htrace.symm).2
  · exact ⟨n, t, ht, .inl hheard⟩

/-- Once a poll is on the port, the next offer waits for its answer. -/
theorem next_answer : ∃ n t, fed input n s = .next t ∧ heardFed input n s ≠ [] := by
  obtain ⟨n, t, ht, hheard | ⟨-, htaken⟩⟩ := offer_taken_or_heard hinput hs hoffers
  · exact ⟨n, t, ht, hheard⟩
  obtain ⟨k, u, hu, hheard | ⟨hfree, -⟩⟩ := offer_taken_or_heard (fun k => hinput (k + n)) (fed_polling hinput hs ht).1
    (againAndAgain_later hoffers n)
  · obtain ⟨hrun, htrace⟩ := fed_add ht k
    exact ⟨n + k, u, hrun.trans hu, fun hnone => hheard (List.append_eq_nil_iff.1 (htrace.symm.trans hnone)).2⟩
  · exact absurd hfree htaken

theorem answers_unbounded (N : Nat) : ∃ n, N ≤ (heardFed input n s).length := by
  induction N generalizing input s with
  | zero => exact ⟨0, Nat.zero_le _⟩
  | succ N ih =>
    obtain ⟨n, t, ht, hheard⟩ := next_answer hinput hs hoffers
    obtain ⟨k, hk⟩ := ih (fun k => hinput (k + n)) (fed_polling hinput hs ht).1 (againAndAgain_later hoffers n)
    have := List.length_pos_iff.2 hheard
    exact ⟨n + k, by rw [(fed_add ht k).2, List.length_append]; omega⟩

end

/-- Answers to polls tell the host nothing of a digest. -/
theorem hearAll_polls {trace : List Heard} (h : ∀ e ∈ trace, e.PollAnswer) (NB : Nat) (r : Receiver) :
    r.hearAll NB trace = r := by
  induction trace with
  | nil => rfl
  | cons e trace ih =>
    obtain ⟨⟨w, hd, he⟩, htrace⟩ := List.forall_mem_cons.1 h
    have hsame : r.hear NB e = r := by
      rcases he with rfl | rfl <;> exact hear_ok hd NB r _
    rw [hearAll_cons, hsame]
    exact ih htrace

end Sys2Proof.Machine

namespace Sys2Proof

open Machine

/-- Settles O60: every event that comes again and again has its turn (`againAndAgain_has_turn`). The core's turns take its
block to the end (`fed_reaches_idle`); and when an offer has its turn, the poll on the port has been answered
(`next_answer`). -/
theorem endlessRunsGoOnAndTheirBlocksEnd : Obligations.EndlessRunsGoOnAndTheirBlocksEnd := by
  refine ⟨fed_total, fun input s hcore => fed_reaches_idle _ le_rfl hcore, fun input s hevents hinput hcmd hoffers => ?_⟩
  have hs : Polling s := ⟨hevents, hcmd⟩
  refine ⟨answers_unbounded hinput hs hoffers, fun n => ?_⟩
  obtain ⟨t, ht⟩ := fed_total input n s
  obtain ⟨-, hanswers, -⟩ := fed_polling hinput hs ht
  exact ⟨hanswers, fun NB => by rw [outcome, hearAll_polls hanswers, start_result]⟩

end Sys2Proof

/-! ## 60_exceptions.md and 70_reset_and_hazards.md: refusals, polling while busy, no stuck state, reset -/

namespace Sys2Proof

/-- 60_exceptions.md R231, 30_encoding.md R80: the four cases in which a word spells no command, by its fields. -/
theorem decode_error_iff_fields (w : CmdWord) : (∃ e, decodeCommand w = .error e) ↔
    cmdOp w = 6 ∨ cmdOp w = 7 ∨ (cmdOp w = 3 ∨ cmdOp w = 5) ∧ addrHigh (cmdAddr w) ≠ 0 := by
  constructor
  · rintro ⟨e, h⟩
    cases decodes_of_eq h with
    | wrwHighAddress ho hz => exact .inr (.inr ⟨.inl ho, hz⟩)
    | rdbHighAddress ho hz => exact .inr (.inr ⟨.inr ho, hz⟩)
    | reservedOp ho => exact ho.imp_right .inl
  · rintro (ho | ho | ⟨ho | ho, hz⟩)
    · exact ⟨_, decode_op6 w ho⟩
    · exact ⟨_, decode_op7 w ho⟩
    · exact ⟨_, (decode_op3 w ho).trans (if_neg hz)⟩
    · exact ⟨_, (decode_op5 w ho).trans (if_neg hz)⟩

end Sys2Proof

namespace Sys2Proof.Machine

/-- 60_exceptions.md R230: no instruction has a state in which it faults or has no meaning. -/
theorem exec_total (i : Instr) (s : State) : ∃ t, exec i s = .next t := by
  cases hi : isHeldCommand i with
  | true =>
    by_cases hp : s.PH = .idle
    · obtain ⟨u, e, r, h⟩ := exec_responds hi hp
      exact ⟨_, h⟩
    · exact ⟨_, exec_held hi hp⟩
  | false =>
    cases i with
    | rds => exact ⟨_, exec_rds s⟩
    | stepF k n T => exact ⟨_, exec_stepF k n T s⟩
    | stepG k n T => exact ⟨_, exec_stepG k n T s⟩
    | stepH k n T => exact ⟨_, exec_stepH k n T s⟩
    | stepI k n T => exact ⟨_, exec_stepI k n T s⟩
    | init | wrb | wrw | go | rdb => simp [isHeldCommand] at hi

/-! ### The port and the core while a block is in progress (60_exceptions.md R234) -/

/-- The core neither reads nor writes the port. -/
theorem coreNext_respond (s : State) (e : BitVec 1) (r : Word) :
    coreNext (s.respond e r) = (coreNext s).respond e r := by
  cases hp : s.PH with
  | idle => unfold coreNext; simp [hp]
  | run => rw [coreNext_run hp, coreNext_run (s := s.respond e r) hp, transform_eq, transform_eq]; rfl
  | fold => rw [coreNext_fold hp, coreNext_fold (s := s.respond e r) hp]; rfl

/-- 10_state.md R28: from `RUN` the core goes to `RUN` or to `FOLD`, and both are busy. -/
theorem STATUS_coreNext_run {s : State} (hp : s.PH = .run) : (coreNext s).STATUS = s.STATUS := by
  rw [coreNext_run hp, STATUS_eq, STATUS_eq, transform_PH, hp]
  split <;> rfl

/-- A word that is acceptable while a block is in progress is answered before the core's transition and after it, with the
same `err`; the `rdata` of `RDS` can differ only across the add-back. -/
theorem portMove_before_and_after_core {s : State} {w : CmdWord} (hp : s.PH ≠ .idle) (hc : s.cmd = some w)
    (ha : s.accepts w = true) : ∃ (e : BitVec 1) (r r' : Word), portMove s = .next (s.respond e r) ∧
      portMove (coreNext s) = .next ((coreNext s).respond e r') ∧ (s.PH = .run → r' = r) := by
  have hc' : (coreNext s).cmd = some w := by
    obtain ⟨-, -, hcmd, -⟩ := coreNext_frame s
    exact hcmd.trans hc
  rcases (accepts_iff s w).1 ha with hidle | hd | ⟨e, hd⟩
  · exact absurd hidle hp
  · exact ⟨0, s.STATUS, (coreNext s).STATUS, portMove_ok hc hd, portMove_ok hc' hd, STATUS_coreNext_run⟩
  · exact ⟨1, 0, 0, portMove_error hc hd, portMove_error hc' hd, fun _ => rfl⟩

/-! ### The digest string of a message, from its final state (46_digest_and_driver.md R210) -/

theorem digestText_eq {msg : List Byte} {q : Quad} (hlen : msg.length ≤ Config.lmax)
    (hq : messageState (padBytes msg) = q) : digestText msg = some (hexDigest q) := by
  rw [digestText, pad, if_pos hlen, Option.map_some, hq]

end Sys2Proof.Machine

namespace Sys2Proof

open Machine

/-- Settles O4, with the constructor's own lemma for each instruction. -/
theorem decodingAnEncodedInstructionGivesItBack : Obligations.DecodingAnEncodedInstructionGivesItBack
  | .rds => Laws.RoundTrip.rds
  | .init => Laws.RoundTrip.init
  | .wrb j v => Laws.RoundTrip.wrb j v
  | .wrw k w => Laws.RoundTrip.wrw k w
  | .go => Laws.RoundTrip.go
  | .rdb j => Laws.RoundTrip.rdb j
  | .stepF k s T => Laws.RoundTrip.stepF k s T
  | .stepG k s T => Laws.RoundTrip.stepG k s T
  | .stepH k s T => Laws.RoundTrip.stepH k s T
  | .stepI k s T => Laws.RoundTrip.stepI k s T

/-- Settles O27: the four cases by the word's fields; a word in one of them is acceptable in every phase, and the port's
move on it is the error response. -/
theorem wordsThatSpellNoCommandGetCmdError : Obligations.WordsThatSpellNoCommandGetCmdError :=
  ⟨decode_error_iff_fields, fun s w e hd hc => ⟨(accepts_iff s w).2 (.inr (.inr ⟨e, hd⟩)), portMove_error hc hd⟩⟩

/-- Settles O40: every step is a transition, and every instruction has a next state (`exec_total`). -/
theorem noStateIsStuck : Obligations.NoStateIsStuck :=
  ⟨fun s => (step_transition s).imp fun _ h => h.1, exec_total⟩

/-- Settles O47: the port's answer passes through the core's transition (`coreNext_respond`), so the two orders can differ
in the answer alone. -/
theorem pollingCommutesWithTheCore : Obligations.PollingCommutesWithTheCore := by
  intro s w hp hc ha
  obtain ⟨e, r, r', hbefore, hafter, hrun⟩ := portMove_before_and_after_core hp hc ha
  have hcore : coreMove (s.respond e r) = .next ((coreNext s).respond e r) := by rw [coreMove_eq, coreNext_respond]
  exact ⟨rspWord e r, hbefore, _, _, _, hcore, coreMove_eq s, hafter, rfl, fun h => by rw [hrun h]⟩

/-- Settles O36: the step is the reset, whose values are read off its fields; in `IDLE` every word is acceptable. -/
theorem resetLoadsTheResetValues : Obligations.ResetLoadsTheResetValues :=
  fun _ _ he => ⟨_, step_reset he, rfl, rfl, rfl, rfl, rfl, rfl, rfl, rfl, rfl, rfl, rfl, accepts_idle rfl⟩

/-- Settles O1: a command word by its opcode, a row as the word of its fields. -/
theorem printedWordsDecodeAsPrinted : Obligations.PrintedWordsDecodeAsPrinted :=
  ⟨decode_op0 _ rfl, decode_op1 _ rfl, decode_op2 _ rfl, decode_op3 _ rfl, decode_op4 _ rfl, decode_op5 _ rfl,
    decode_op3 _ rfl, decodeRow_rowWord0 0 7 0xd76aa478, decodeRow_rowWord1 1 5 0xf61e2562,
    decodeRow_rowWord2 5 4 0xfffa3942, decodeRow_rowWord3 9 21 0xeb86d391⟩

/-- Settles O55: the final state of each message is computed, and its registers are the printed string. -/
theorem knownDigests : Obligations.KnownDigests := by
  have hempty : messageState (padBytes []) = ⟨0xd98c1dd4, 0x04b2008f, 0x980980e9, 0x7e42f8ec⟩ := by decide +kernel
  have habc : messageState (padBytes [0x61, 0x62, 0x63]) = ⟨0x98500190, 0xb04fd23c, 0x7d3f96d6, 0x727fe128⟩ := by
    decide +kernel
  have hfox : messageState (padBytes
      ("The quick brown fox jumps over the lazy dog".toList.map fun ch => BitVec.ofNat 8 ch.toNat)) =
      ⟨0x9d7d109e, 0x82b62b37, 0x351dd86b, 0xd619a442⟩ := by decide +kernel
  exact ⟨(digestText_eq (by decide) hempty).trans (by decide), (digestText_eq (by decide) habc).trans (by decide),
    (digestText_eq (by decide) hfox).trans (by decide)⟩

end Sys2Proof
